-- ==== Sys2Proof/Syntax.lean ====
section
/-! DEFINITION. The commands of the engine (spec R95), one constructor per row of spec/opcode_table.json, operands in the
field order RD, RS1, RS2, RS3 of R106. -/

namespace Sys2Proof

/-- The number of an integer register `x0` to `x15` (R21): all 16 values of its field are legal (R91). -/
abbrev XReg := Fin 16

/-- The number of a point register `p0` to `p3` (R25): a legal field holds 0 to 3 (R91). -/
abbrev PReg := Fin 4

/-- The commands of R95, with the operand kinds of their formats (R94). -/
inductive Instr where
  /-- MODMUL rd, rs1, rs2, rs3 (format `xxxx`, R125). -/
  | modmul (rd rs1 rs2 rs3 : XReg)
  /-- GCD rd, rs1, rs2 (format `xxx0`, R137). -/
  | gcd (rd rs1 rs2 : XReg)
  /-- MODINV rd, rs1, rs2 (format `xxx0`, R141). -/
  | modinv (rd rs1 rs2 : XReg)
  /-- POWMOD rd, rs1, rs2, rs3 (format `xxxx`, R152). -/
  | powmod (rd rs1 rs2 rs3 : XReg)
  /-- ISPRIME rd, rs1 (format `xx00`, R168). -/
  | isprime (rd rs1 : XReg)
  /-- GENPRIME rd, rs1 (format `xx00`, R172). -/
  | genprime (rd rs1 : XReg)
  /-- SAMPLE rd, rs1, rs2 (format `xxx0`, R162). -/
  | sample (rd rs1 rs2 : XReg)
  /-- FINDGEN rd, rs1 (format `xx00`, R186). -/
  | findgen (rd rs1 : XReg)
  /-- ECSET rs1, rs2, rs3 (format `0xxx`, R196). -/
  | ecset (rs1 rs2 rs3 : XReg)
  /-- ECSETNB rs1, rs3 (format `0x0x`, `NB = 1`, R198). -/
  | ecsetnb (rs1 rs3 : XReg)
  /-- ECONCRV rd, ps1 (format `xp00`, R201). -/
  | econcrv (rd : XReg) (ps1 : PReg)
  /-- ECADD pd, ps1, ps2 (format `ppp0`, R215). -/
  | ecadd (pd ps1 ps2 : PReg)
  /-- ECDBL pd, ps1 (format `pp00`, R218). -/
  | ecdbl (pd ps1 : PReg)
  /-- ECSMUL pd, rs1, ps2 (format `pxp0`, R223). -/
  | ecsmul (pd : PReg) (rs1 : XReg) (ps2 : PReg)
  /-- ECENUM rd (format `x000`, R236). -/
  | ecenum (rd : XReg)
  deriving DecidableEq, Repr

end Sys2Proof
end

