-- ==== Sys2Proof/Word.lean ====
section
/-! DEFINITION. The word types of the engine: the 64-bit command and bus word (spec R61, R90) and the byte lanes of a
bus access (R67). -/

namespace Sys2Proof

/-- A 64-bit value: one command word (R90), or what one access of the register window carries (R61). -/
abbrev Word := BitVec 64

/-- One byte lane of a bus access (R67). -/
abbrev Byte := BitVec 8

end Sys2Proof
end

