-- ==== Sys2Proof/Decode.lean ====
section
/-! DEFINITION. Decoding and encoding of the 64-bit command word (spec R90, R91, R95, R100, R103, R113). -/

namespace Sys2Proof

/-- A field with its lowest bit at bit `lo` of a 64-bit word, zero elsewhere. -/
abbrev placeAt {n : Nat} (f : BitVec n) (lo : Nat) : Word := f.setWidth 64 <<< lo

/-- The 15 rows of the opcode map, in the order of R95. -/
inductive Op where
  | modmul | gcd | modinv | powmod | isprime | genprime | sample | findgen
  | ecset | ecsetnb | econcrv | ecadd | ecdbl | ecsmul | ecenum
  deriving DecidableEq, Repr

/-- One row of the opcode map: a word `w` selects it exactly when `(w and mask) = match` (R95). -/
structure OpRow where
  op : Op
  bits : Word
  mask : Word
  deriving DecidableEq, Repr

/-- The opcode map of R95: the `match` and `mask` of every command. -/
def opRows : List OpRow :=
  [ ⟨.modmul,   0x0000000001000000, 0xFFFFFFFFFF0000FF⟩,
    ⟨.gcd,      0x0000000002000000, 0xFFFFFFFFFF000FFF⟩,
    ⟨.modinv,   0x0000000003000000, 0xFFFFFFFFFF000FFF⟩,
    ⟨.powmod,   0x0000000004000000, 0xFFFFFFFFFF0000FF⟩,
    ⟨.isprime,  0x0000000005000000, 0xFFFFFFFFFF00FFFF⟩,
    ⟨.genprime, 0x0000000006000000, 0xFFFFFFFFFF00FFFF⟩,
    ⟨.sample,   0x0000000007000000, 0xFFFFFFFFFF000FFF⟩,
    ⟨.findgen,  0x0000000008000000, 0xFFFFFFFFFF00FFFF⟩,
    ⟨.ecset,    0x0000000010000000, 0xFFFFFFFFFFF000FF⟩,
    ⟨.ecsetnb,  0x0000000010000001, 0xFFFFFFFFFFF0F0FF⟩,
    ⟨.econcrv,  0x0000000011000000, 0xFFFFFFFFFF0CFFFF⟩,
    ⟨.ecadd,    0x0000000012000000, 0xFFFFFFFFFFCCCFFF⟩,
    ⟨.ecdbl,    0x0000000013000000, 0xFFFFFFFFFFCCFFFF⟩,
    ⟨.ecsmul,   0x0000000014000000, 0xFFFFFFFFFFC0CFFF⟩,
    ⟨.ecenum,   0x0000000015000000, 0xFFFFFFFFFF0FFFFF⟩ ]

/-- `(w and mask) = match` (R95, R103). -/
def OpRow.selects (r : OpRow) (w : Word) : Bool := w &&& r.mask == r.bits

/-- The row a word selects, if one does (R103). -/
def selectRow (w : Word) : Option OpRow := opRows.find? (·.selects w)

/-- Field `RD`, bits 23:20 (R91). -/
def fieldRd (w : Word) : BitVec 4 := w.extractLsb' 20 4
/-- Field `RS1`, bits 19:16 (R91). -/
def fieldRs1 (w : Word) : BitVec 4 := w.extractLsb' 16 4
/-- Field `RS2`, bits 15:12 (R91). -/
def fieldRs2 (w : Word) : BitVec 4 := w.extractLsb' 12 4
/-- Field `RS3`, bits 11:8 (R91). -/
def fieldRs3 (w : Word) : BitVec 4 := w.extractLsb' 8 4

/-- A register field as the number of an integer register: all 16 values are legal (R91). -/
def xReg (f : BitVec 4) : XReg := f.toFin

/-- A register field as the number of a point register: bits 1:0. In a word that selected its row bits 3:2 are zero, since
the row's mask holds them (R91, R113). -/
def pReg (f : BitVec 4) : PReg := (f.extractLsb' 0 2).toFin

/-- The command of a selected row, its register numbers taken from the word's fields (R94, R103). -/
def buildInstr (op : Op) (w : Word) : Instr :=
  match op with
  | .modmul => .modmul (xReg (fieldRd w)) (xReg (fieldRs1 w)) (xReg (fieldRs2 w)) (xReg (fieldRs3 w))
  | .gcd => .gcd (xReg (fieldRd w)) (xReg (fieldRs1 w)) (xReg (fieldRs2 w))
  | .modinv => .modinv (xReg (fieldRd w)) (xReg (fieldRs1 w)) (xReg (fieldRs2 w))
  | .powmod => .powmod (xReg (fieldRd w)) (xReg (fieldRs1 w)) (xReg (fieldRs2 w)) (xReg (fieldRs3 w))
  | .isprime => .isprime (xReg (fieldRd w)) (xReg (fieldRs1 w))
  | .genprime => .genprime (xReg (fieldRd w)) (xReg (fieldRs1 w))
  | .sample => .sample (xReg (fieldRd w)) (xReg (fieldRs1 w)) (xReg (fieldRs2 w))
  | .findgen => .findgen (xReg (fieldRd w)) (xReg (fieldRs1 w))
  | .ecset => .ecset (xReg (fieldRs1 w)) (xReg (fieldRs2 w)) (xReg (fieldRs3 w))
  | .ecsetnb => .ecsetnb (xReg (fieldRs1 w)) (xReg (fieldRs3 w))
  | .econcrv => .econcrv (xReg (fieldRd w)) (pReg (fieldRs1 w))
  | .ecadd => .ecadd (pReg (fieldRd w)) (pReg (fieldRs1 w)) (pReg (fieldRs2 w))
  | .ecdbl => .ecdbl (pReg (fieldRd w)) (pReg (fieldRs1 w))
  | .ecsmul => .ecsmul (pReg (fieldRd w)) (xReg (fieldRs1 w)) (pReg (fieldRs2 w))
  | .ecenum => .ecenum (xReg (fieldRd w))

/-- Decoding, total on every word (R103): `none` when the word matches no row, that is when it is illegal (R100) whatever
the parameters. The one illegality that depends on a parameter, ECENUM with `HAS_ENUM = 0` (R102), is `wellFormed`'s. -/
def decode (w : Word) : Option Instr := (selectRow w).map fun r => buildInstr r.op w

/-- The row of a command. -/
def Instr.op : Instr → Op
  | .modmul _ _ _ _ => .modmul
  | .gcd _ _ _ => .gcd
  | .modinv _ _ _ => .modinv
  | .powmod _ _ _ _ => .powmod
  | .isprime _ _ => .isprime
  | .genprime _ _ => .genprime
  | .sample _ _ _ => .sample
  | .findgen _ _ => .findgen
  | .ecset _ _ _ => .ecset
  | .ecsetnb _ _ => .ecsetnb
  | .econcrv _ _ => .econcrv
  | .ecadd _ _ _ => .ecadd
  | .ecdbl _ _ => .ecdbl
  | .ecsmul _ _ _ => .ecsmul
  | .ecenum _ => .ecenum

/-- The operation code `OP`, bits 31:24 of a row's word (R95). -/
def Op.code : Op → BitVec 8
  | .modmul => 0x01 | .gcd => 0x02 | .modinv => 0x03 | .powmod => 0x04
  | .isprime => 0x05 | .genprime => 0x06 | .sample => 0x07 | .findgen => 0x08
  | .ecset => 0x10 | .ecsetnb => 0x10 | .econcrv => 0x11 | .ecadd => 0x12
  | .ecdbl => 0x13 | .ecsmul => 0x14 | .ecenum => 0x15

/-- The flag `NB`, bit 0: 1 only in ECSETNB (R91, R95). -/
def Op.nb : Op → BitVec 1
  | .modmul => 0 | .gcd => 0 | .modinv => 0 | .powmod => 0
  | .isprime => 0 | .genprime => 0 | .sample => 0 | .findgen => 0
  | .ecset => 0 | .ecsetnb => 1 | .econcrv => 0 | .ecadd => 0
  | .ecdbl => 0 | .ecsmul => 0 | .ecenum => 0

/-- The field of an integer register. -/
def xField (r : XReg) : BitVec 4 := BitVec.ofFin r

/-- The field of a point register: bits 3:2 zero (R91). -/
def pField (r : PReg) : BitVec 4 := (BitVec.ofFin r : BitVec 2).setWidth 4

/-- The command word with these fields, `ZHI` and `ZLO` zero (R91). -/
def cmdWord (op : Op) (rd rs1 rs2 rs3 : BitVec 4) : Word :=
  placeAt op.code 24 ||| placeAt rd 20 ||| placeAt rs1 16 ||| placeAt rs2 12 ||| placeAt rs3 8 ||| placeAt op.nb 0

/-- Encoding: the word of a command, unused fields zero (R91, R94, R95). -/
def encode (i : Instr) : Word :=
  match i with
  | .modmul rd rs1 rs2 rs3 => cmdWord .modmul (xField rd) (xField rs1) (xField rs2) (xField rs3)
  | .gcd rd rs1 rs2 => cmdWord .gcd (xField rd) (xField rs1) (xField rs2) 0
  | .modinv rd rs1 rs2 => cmdWord .modinv (xField rd) (xField rs1) (xField rs2) 0
  | .powmod rd rs1 rs2 rs3 => cmdWord .powmod (xField rd) (xField rs1) (xField rs2) (xField rs3)
  | .isprime rd rs1 => cmdWord .isprime (xField rd) (xField rs1) 0 0
  | .genprime rd rs1 => cmdWord .genprime (xField rd) (xField rs1) 0 0
  | .sample rd rs1 rs2 => cmdWord .sample (xField rd) (xField rs1) (xField rs2) 0
  | .findgen rd rs1 => cmdWord .findgen (xField rd) (xField rs1) 0 0
  | .ecset rs1 rs2 rs3 => cmdWord .ecset 0 (xField rs1) (xField rs2) (xField rs3)
  | .ecsetnb rs1 rs3 => cmdWord .ecsetnb 0 (xField rs1) 0 (xField rs3)
  | .econcrv rd ps1 => cmdWord .econcrv (xField rd) (pField ps1) 0 0
  | .ecadd pd ps1 ps2 => cmdWord .ecadd (pField pd) (pField ps1) (pField ps2) 0
  | .ecdbl pd ps1 => cmdWord .ecdbl (pField pd) (pField ps1) 0 0
  | .ecsmul pd rs1 ps2 => cmdWord .ecsmul (pField pd) (xField rs1) (pField ps2) 0
  | .ecenum rd => cmdWord .ecenum (xField rd) 0 0 0

/-- What the decoder reads from an instruction of `nbits` bits `w`, the bits above `nbits` zero. Every command is one
64-bit word (R90, R105). -/
def decodeTableWord (nbits w : Nat) : Option Instr := decode (BitVec.ofNat 64 (w % 2 ^ nbits))

end Sys2Proof
end

