-- ==== Sys2Proof/Config.lean ====
section
/-! DEFINITION. What an implementation of the engine fixes (spec R7): the fixed numbers, the OPEN parameters as a record
the machine carries as an input, and the free values of the randomness source. -/

namespace Sys2Proof

/-- The OPEN parameters of R7 and of the table at the head of 92_eei_decisions.md, except `SAMPLER`, which is the free
values of `Config.drawSource`. No rule changes them: they are arguments of the model (R53), carried in `Machine.Env`. -/
structure Params where
  /-- `W`, the width in bits of every wide register. -/
  width : Nat
  /-- `MAX_PRIME_PROBES`. -/
  maxPrimeProbes : Nat
  /-- `MAX_GEN_TRIES`. -/
  maxGenTries : Nat
  /-- `HAS_ENUM`, whether the optional ECENUM exists. -/
  hasEnum : Bool
  /-- `ENUM_MAX_P`, the largest field modulus ECENUM accepts. -/
  enumMaxP : Nat
  /-- `NTE_BASE`, the bus address of the register window (R60). -/
  nteBase : Nat
  deriving DecidableEq, Repr

/-- `L = W / 64`, the limbs of a wide register (R7). -/
def Params.limbs (p : Params) : Nat := p.width / 64

/-- `EBUF_DEPTH = 2 · ENUM_MAX_P` (R7, R49). With `HAS_ENUM = 0`, `ENUM_MAX_P` is 0 and so is this. -/
def Params.ebufDepth (p : Params) : Nat := 2 * p.enumMaxP

/-- The constraints R7 puts on the OPEN parameters. -/
def Params.wf (p : Params) : Bool :=
  decide (p.width % 64 = 0 ∧ 64 ≤ p.width ∧ p.width ≤ 32768) &&
  decide (1 ≤ p.maxPrimeProbes ∧ p.maxPrimeProbes < 2 ^ 64) &&
  decide (1 ≤ p.maxGenTries ∧ p.maxGenTries < 2 ^ 64) &&
  (if p.hasEnum then decide (5 ≤ p.enumMaxP ∧ p.enumMaxP < 2 ^ 32) else decide (p.enumMaxP = 0))

namespace Config

/-- `T`, the Miller–Rabin witness count: 5, fixed (R7). -/
def witnessCount : Nat := 5

/-- `GEN_WINDOW`, the upper limit of the generator-search window: 1000000, fixed (R7). -/
def genWindow : Nat := 1000000

/-- `NX`, the number of integer registers (R7). -/
def xRegs : Nat := 16

/-- `NP`, the number of point registers (R7). -/
def pRegs : Nat := 4

/-- FREE VALUE (R16, R50, R160): what the randomness source answers to the engine's `n`-th draw when the state's list of
answers has run out. It has no body: nothing can be proved of its value. Assumption log 2. -/
opaque drawSource : Nat → Int

/-- The parameters `Machine.State.reset` carries. DESIGN CHOICE, assumption log 1: R7 leaves them OPEN; these are the
values the conventions of 95_test_vectors.md name, and `NTE_BASE = 0`. No statement rests on them: a statement about
every state, or about `Machine.State.resetWith p`, holds for every choice. -/
def params : Params :=
  { width := 64, maxPrimeProbes := 1000, maxGenTries := 1000, hasEnum := true, enumMaxP := 1000, nteBase := 0 }

end Config
end Sys2Proof
end

