-- ==== Sys2Proof/Machine/State.lean ====
section
/-! DEFINITION. The state of the engine as plain data (spec R20), the inputs of its transitions (R53, R295), the reasons a
step can stop, and the state after reset (R54, R285). -/

namespace Sys2Proof.Machine

/-- A point register: the tag bit `PTAG[i].INF` and the wide registers `PX[i]`, `PY[i]` (R25, R26). The bits 63:1 of `PTAG[i]`
read as zero and store nothing. -/
structure PointReg where
  inf : Bool
  x : Int
  y : Int
  deriving DecidableEq, Repr

/-- One entry of the enumeration buffer: the pair `(x, y)` of wide registers, the smallest unit a command writes (R49, R74). -/
abbrev Entry := Int × Int

/-- The engine's only internal memory, `EBUF` (R49), as the list of the entries that differ from `unlistedEntry`, by index:
indexes strictly rising. -/
abbrev Memory := List (Nat × Entry)

/-- What an unlisted entry of `EBUF` reads as: its value after reset, `(0, 0)` (R54). -/
def unlistedEntry : Entry := (0, 0)

/-- The canonical form of `m` when every index in it must be at least `lo`. -/
def memoryWfFrom (lo : Nat) : Memory → Bool
  | [] => true
  | (j, e) :: m => decide (lo ≤ j) && decide (e ≠ unlistedEntry) && memoryWfFrom (j + 1) m

/-- The one canonical form of `EBUF`: indexes strictly rising, no listed entry equal to `unlistedEntry`. -/
abbrev Memory.wf (m : Memory) : Bool := memoryWfFrom 0 m

/-- The cause codes of R246 by name; code 0, no fault, is not a cause. -/
inductive Cause where
  /-- Code 1, "invalid parameter". -/
  | param
  /-- Code 2, "invalid curve parameters". -/
  | curve
  /-- Code 3, a point operand out of range or off the curve. -/
  | point
  /-- Code 4, "search exhausted". -/
  | exhausted
  /-- Code 5, the command word matches no row of the opcode map. -/
  | illegal
  /-- Code 6, a result does not fit `W` bits. -/
  | range
  /-- Code 7, an EC command with no curve in force. -/
  | noCurve
  deriving DecidableEq, Repr

/-- The randomness source as an input (R16, R50, R295): the answers to the coming draws, in order, and how many draws have
been answered. When the list has run out the free values of `Config.drawSource` answer. Assumption logs 2 and 3. -/
structure Source where
  answers : List Int
  taken : Nat
  deriving DecidableEq, Repr

/-- What the engine's one port receives, in the order it receives it (R75, R295). Assumption log 4. -/
inductive PortEvent where
  /-- A host read of `size` bytes at the bus address `addr` (R14). -/
  | read (addr size : Nat)
  /-- A host write of `size` bytes at the bus address `addr` (R14). -/
  | write (addr size : Nat) (v : Word)
  /-- The reset input is asserted (R285, R286). -/
  | reset
  /-- The engine moves here: its step (R296) stands at this place of the one total order (R75). -/
  | engineTurn
  deriving DecidableEq, Repr

/-- The engine's answer to a bus access. Assumption log 5. -/
inductive Response where
  /-- A read was accepted and returned this value. -/
  | data (v : Word)
  /-- A write was accepted. -/
  | done
  /-- The access was refused: a bus error (R63). -/
  | busError
  deriving DecidableEq, Repr

/-- The inputs of a transition, which R53 and R295 say are not state of the engine: the parameters, the draws, and the order in
which the port receives the host's accesses; and the response the host sees. The model carries them in `State`
because its step has no other argument. -/
structure Env where
  params : Params
  source : Source
  port : List PortEvent
  response : Option Response
  deriving DecidableEq, Repr

/-- The architectural state of the engine (R20), and the inputs of its transitions in `env`. `STATUS`, `IE` and `FINFO` are held as the
fields they are made of; `Machine/Flags.lean` assembles the 64-bit words, whose other bits read zero. The constants `ID` and
`PARAM0` to `PARAM4` are functions of `env.params` (`Machine/Window.lean`). -/
structure State where
  /-- The integer registers `x0` to `x15` (R21), as the integers they hold (R22). -/
  x : Vector Int 16
  /-- The point registers `p0` to `p3` (R25). -/
  p : Vector PointReg 4
  /-- `CA`, the curve coefficient a (R29). -/
  ca : Int
  /-- `CB`, the curve coefficient b (R29). -/
  cb : Int
  /-- `CP`, the field modulus (R29). -/
  cp : Int
  /-- `IR`, the command word most recently accepted (R31). -/
  ir : Word
  /-- `BUSY`, STATUS bit 0 (R33). -/
  busy : Bool
  /-- `DONE`, STATUS bit 1 (R34). -/
  done : Bool
  /-- `FAULT`, STATUS bit 2 (R35). -/
  fault : Bool
  /-- `NI`, STATUS bit 3 (R36). -/
  ni : Bool
  /-- `CV`, STATUS bit 4 (R37). -/
  cv : Bool
  /-- `FB`, STATUS bit 5 (R39). -/
  fb : Bool
  /-- `CAUSE`, STATUS bits 15:8 (R40). -/
  cause : BitVec 8
  /-- `FINFO.SUB`, FINFO bits 7:0 (R42); bits 63:8 of FINFO read zero. -/
  sub : BitVec 8
  /-- `IE.DONE_IE`, IE bit 0 (R43); bits 63:2 of IE read zero. -/
  doneIe : Bool
  /-- `IE.FAULT_IE`, IE bit 1 (R43). -/
  faultIe : Bool
  /-- `ESEL` (R47). -/
  esel : Word
  /-- `ECNT` (R48). -/
  ecnt : Word
  /-- `EBUF` (R49). -/
  ebuf : Memory
  /-- The inputs of the transitions (R53, R295). -/
  env : Env
  deriving DecidableEq, Repr

/-- The reasons the MACHINE stops with a fault: none. What the spec calls a fault (R245) is the next state of R252, a bus
access the window turns away is a response (R63), and "every accepted access and every accepted command has a defined
outcome, up to the free draws" (93_implementation_defined.md). Safe: there is nothing it could hide. -/
inductive Fault : Type
  deriving DecidableEq, Repr

/-- The reasons the model refuses. -/
inductive Refusal where
  /-- Raised by an arm of `exec` whose instruction has no meaning yet: by none. Safe: nothing is proved of the instruction. -/
  | notModelled (mnemonic : String)
  deriving DecidableEq, Repr

/-- What one transition answers. -/
abbrev Out := Host.Outcome State Fault Refusal

/-- The state after reset under the parameters `p` (R54, R285): every register, flag and entry zero, every point register
`Inf` with zero coordinates; nothing is unspecified. The inputs: no answer listed, none drawn, no access waiting, none answered
(assumption logs 3, 4 and 5). -/
def State.resetWith (p : Params) : State where
  x := Vector.replicate 16 0
  p := Vector.replicate 4 ⟨true, 0, 0⟩
  ca := 0
  cb := 0
  cp := 0
  ir := 0
  busy := false
  done := false
  fault := false
  ni := false
  cv := false
  fb := false
  cause := 0
  sub := 0
  doneIe := false
  faultIe := false
  esel := 0
  ecnt := 0
  ebuf := []
  env := { params := p, source := { answers := [], taken := 0 }, port := [], response := none }

/-- The machine right after reset (R54), with the parameters of `Config.params` (assumption log 1). -/
def State.reset : State := State.resetWith Config.params

end Sys2Proof.Machine
end

