-- ==== Sys2Proof/Machine/Arith.lean ====
section
/-! DEFINITION. The exact integer arithmetic of the engine (spec R9 to R12, R120 to R123) and the primitives `gcd` (R136), `inv` (R139) and `powmod`
(R151). Each loop of the spec is a recursion on a number of turns that is enough for it to end by its own condition. -/

namespace Sys2Proof.Machine

/-- `mod(v, m)` (R10): for `m > 0` the representative in `[0, m)`, whatever the sign of `v`. -/
abbrev imod (v m : Int) : Int := v % m

/-- `v div m` (R10): for `m > 0` the floor quotient. -/
abbrev idiv (v m : Int) : Int := v / m

/-- `bitlen(v)` for `v ≥ 0` (R11). -/
def bitlen (v : Int) : Nat := if v ≤ 0 then 0 else Nat.log2 v.toNat + 1

/-- `bit(v, i)` for `v ≥ 0` (R11). -/
def ibit (v : Int) (i : Nat) : Int := imod (idiv v (2 ^ i)) 2

/-- `v | w` for `v, w ≥ 0` (R11). -/
def ior (v w : Int) : Int := ((v.toNat ||| w.toNat : Nat) : Int)

/-- `odd(v)` (R11). -/
def isOdd (v : Int) : Bool := decide (imod v 2 = 1)

/-- `mulmod(a, b, m) = mod(a · b, m)` (R123), exactly, whatever reduction an implementation uses (R124). -/
def mulmod (a b m : Int) : Int := imod (a * b) m

/-- The loop of Euclid's algorithm (R136). -/
def gcdLoop : Nat → Int → Int → Int
  | 0, u, _ => u
  | n + 1, u, v => if v = 0 then u else gcdLoop n v (imod u v)

/-- `gcd(a, b)` for `b ≥ 0` (R136). The second value of the loop strictly decreases from `b`, so `b + 1` turns are enough. -/
def gcdOf (a b : Int) : Int := gcdLoop (b.toNat + 1) (a.natAbs : Int) b

/-- The loop of the extended Euclidean algorithm (R139), returning the last `r0` and `t0`. -/
def invLoop : Nat → Int → Int → Int → Int → Int × Int
  | 0, r0, _, t0, _ => (r0, t0)
  | n + 1, r0, r1, t0, t1 =>
    if r1 = 0 then (r0, t0)
    else
      let q := idiv r0 r1
      invLoop n r1 (r0 - q * r1) t1 (t0 - q * t1)

/-- `inv(a, m)` for `m > 0` (R139): `some x` for `(true, x)`, `none` for `(false, 0)`, no inverse. -/
def invOf (a m : Int) : Option Int :=
  let r := invLoop (m.toNat + 1) m (imod a m) 0 1
  if r.1 ≠ 1 then none else some (imod r.2 m)

/-- The loop of `powmod` (R151), the exponent scanned from its least significant bit. -/
def powLoop (m : Int) : Nat → Int → Int → Int → Int
  | 0, _, r, _ => r
  | n + 1, e, r, s =>
    if e > 0 then
      powLoop m n (idiv e 2) (if isOdd e then imod (r * s) m else r) (imod (s * s) m)
    else r

/-- `powmod(b, e, m)` for `e ≥ 0`, `m > 0` (R151); the loop takes `bitlen(e)` turns. -/
def powmod (b e m : Int) : Int := powLoop m (bitlen e) e (imod 1 m) (imod b m)

end Sys2Proof.Machine
end

