-- ==== Sys2Proof/Machine/Flags.lean ====
section
/-! DEFINITION. The status words: the layouts of STATUS (spec R41), FINFO (R42) and IE (R43), the cause codes (R246), the host's writes to
STATUS and IE, and the interrupt line (R52, R256). -/

namespace Sys2Proof.Machine

/-- The cause codes of R246. -/
def causeCode : Cause → BitVec 8
  | .param => 1
  | .curve => 2
  | .point => 3
  | .exhausted => 4
  | .illegal => 5
  | .range => 6
  | .noCurve => 7

/-- A flag as one bit. -/
abbrev flagBit (b : Bool) : BitVec 1 := BitVec.ofBool b

/-- `STATUS` as the host reads it (R41): bits 63:16 and 7:6 zero, `CAUSE` in 15:8, then FB, CV, NI, FAULT, DONE, BUSY. -/
def statusWord (s : State) : Word :=
  placeAt s.cause 8 ||| placeAt (flagBit s.fb) 5 ||| placeAt (flagBit s.cv) 4 ||| placeAt (flagBit s.ni) 3 |||
    placeAt (flagBit s.fault) 2 ||| placeAt (flagBit s.done) 1 ||| placeAt (flagBit s.busy) 0

/-- `FINFO` as the host reads it (R42). -/
def finfoWord (s : State) : Word := placeAt s.sub 0

/-- `IE` as the host reads it (R43). -/
def ieWord (s : State) : Word := placeAt (flagBit s.faultIe) 1 ||| placeAt (flagBit s.doneIe) 0

/-- The host's write of `v` to STATUS: write-1-to-clear of DONE (bit 1) and of FAULT (bit 2) with CAUSE and FINFO; every other bit
is ignored, and with `FAULT = 0` bit 2 does nothing (R34, R35, R41, R254). It is the whole return from a fault. -/
def writeStatus (v : Word) (s : State) : State :=
  let clearFault := v.getLsbD 2 && s.fault
  { s with
    done := s.done && !v.getLsbD 1
    fault := s.fault && !clearFault
    cause := if clearFault then 0 else s.cause
    sub := if clearFault then 0 else s.sub }

/-- The host's write of `v` to IE: bits 63:2 are ignored (R43). -/
def writeIe (v : Word) (s : State) : State :=
  { s with doneIe := v.getLsbD 0, faultIe := v.getLsbD 1 }

/-- The interrupt line (R52, R256): `irq = (DONE and DONE_IE) or (FAULT and FAULT_IE)`. -/
def State.irq (s : State) : Bool := (s.done && s.doneIe) || (s.fault && s.faultIe)

end Sys2Proof.Machine
end

