-- ==== Sys2Proof/Machine/Ops.lean ====
section
/-! DEFINITION. The named operations over registers, `EBUF` and the randomness source, the fit check (spec R23), the two ends of a command
(R93, R252), the acceptance of a command (R92) and reset (R285). -/

namespace Sys2Proof.Machine

/-- The register width `W` in force (R7). -/
abbrev State.width (s : State) : Nat := s.env.params.width

/-- `x[i]` (R13, R24). -/
def State.getX (s : State) (i : XReg) : Int := s.x[i]

/-- `x[i] <- v` (R13, R24). No integer register is hardwired. -/
def State.setX (s : State) (i : XReg) (v : Int) : State := { s with x := s.x.set i v }

/-- The three parts of point register `i` (R25). -/
def State.getPReg (s : State) (i : PReg) : PointReg := s.p[i]

/-- Replaces the three parts of point register `i`. -/
def State.setPReg (s : State) (i : PReg) (r : PointReg) : State := { s with p := s.p.set i r }

/-- The randomness source in the state `s` once it has answered as in `g`. -/
def State.setSource (s : State) (g : Source) : State := { s with env := { s.env with source := g } }

/-- `EBUF[j]` (R49). -/
def Memory.read : Memory → Nat → Entry
  | [], _ => unlistedEntry
  | (k, e) :: m, j => if k = j then e else Memory.read m j

/-- `EBUF[j] <- e`, keeping the canonical form: writing what an unlisted entry reads as removes the entry. -/
def Memory.write : Memory → Nat → Entry → Memory
  | [], j, e => if e = unlistedEntry then [] else [(j, e)]
  | (k, f) :: m, j, e =>
    if j < k then (if e = unlistedEntry then (k, f) :: m else (j, e) :: (k, f) :: m)
    else if j = k then (if e = unlistedEntry then m else (j, e) :: m)
    else (k, f) :: Memory.write m j e

/-- `for j <- 0 to length(L) - 1 do EBUF[from + j] <- L[j]` (R236). -/
def Memory.writeList (m : Memory) (start : Nat) : List Entry → Memory
  | [] => m
  | e :: es => Memory.writeList (Memory.write m start e) (start + 1) es

/-- `draw(lo, hi)` for `lo < hi` (R16, R160): a value of `[lo, hi)` the source answers. An answer inside the range is the value
drawn; one outside it is brought into the range, as `SAMPLER` may be any function whose result lies in it (R7). Every
value of the range is drawn for some answer. Assumption log 2. -/
def draw (lo hi : Int) (g : Source) : Int × Source :=
  match g.answers with
  | v :: vs => (lo + imod (v - lo) (hi - lo), { answers := vs, taken := g.taken + 1 })
  | [] => (lo + imod (Config.drawSource g.taken - lo) (hi - lo), { answers := [], taken := g.taken + 1 })

/-- Whether a wide register of `w` bits can hold `v` (R22). -/
def fits (w : Nat) (v : Int) : Bool := decide (-(2 ^ (w - 1)) ≤ v ∧ v ≤ 2 ^ (w - 1) - 1)

/-- A command's end without fault, its own writes made: `BUSY <- 0`, `DONE <- 1` (R93). -/
def complete (s : State) : State := { s with busy := false, done := true }

/-- Fault entry (R252): the five fields it changes and nothing else. -/
def takeFault (c : Cause) (sub : BitVec 8) (s : State) : State :=
  { s with cause := causeCode c, sub := sub, fault := true, done := true, busy := false }

/-- `raise E_X(sub)` (R15). -/
def raise (c : Cause) (sub : BitVec 8) (s : State) : Out := .next (takeFault c sub s)

/-- The end of a command that would write the integers `vs` to wide registers and leave `t`: the fit check of R23 comes first, and a
value that does not fit raises `E_RANGE(1)` from `s`, where nothing has been written (R251, R253). -/
def commit (s : State) (vs : List Int) (t : State) : Out :=
  if vs.all (fits s.width) then .next (complete t) else raise .range 1 s

/-- The end of a command whose only write is `x[rd] <- v`. -/
def commitX (s : State) (rd : XReg) (v : Int) : Out := commit s [v] (s.setX rd v)

/-- A verdict as the integer 1 or 0 (R168, R201). -/
def ofVerdict (b : Bool) : Int := if b then 1 else 0

/-- The host's write of `w` to CMD (R92): accepted exactly when `BUSY = 0` and `FAULT = 0`, whatever `w` is; `none` is refused. -/
def accept (w : Word) (s : State) : Option State :=
  if s.busy || s.fault then none else some { s with ir := w, busy := true, done := false }

/-- Reset (R285, R286): every piece of state at its reset value; a command in flight is abandoned. The inputs stay (log 15), and
the response of the last access is gone (log 5). DESIGN CHOICE, assumption log 22: R286 says that the draws the abandoned command took are lost and
not how many they are; here there are none, and every answer to come is left for the next command. -/
def resetLine (s : State) : State :=
  { State.resetWith s.env.params with env := { s.env with response := none } }

end Sys2Proof.Machine
end

