-- ==== Sys2Proof/Machine/MillerRabin.lean ====
section
/-! DEFINITION. The Miller–Rabin test (spec R164, R165, R166), used by ISPRIME, GENPRIME, FINDGEN, ECSET and ECSETNB (R170). -/

namespace Sys2Proof.Machine

/-- What one round says of the number tested (R164). -/
inductive Verdict where
  | pass
  | composite
  deriving DecidableEq, Repr

/-- `while not odd(k) do k <- k div 2; q <- q + 1`, returning `(q, k)` (R164). -/
def splitTwos : Nat → Nat → Int → Nat × Int
  | 0, q, k => (q, k)
  | n + 1, q, k => if isOdd k then (q, k) else splitTwos n (q + 1) (idiv k 2)

/-- The squarings of a round: the `repeat` loop of R164. -/
def mrSquarings (n : Int) : Nat → Int → Verdict
  | 0, _ => .composite
  | r + 1, y =>
    let z := imod (y * y) n
    if z = n - 1 then .pass else if z = 1 then .composite else mrSquarings n r z

/-- `mr_round(n, a)` for odd `n ≥ 5` and `2 ≤ a < n − 1` (R164), with at most `q − 1` squarings. -/
def mrRound (n a : Int) : Verdict :=
  let qk := splitTwos (bitlen (n - 1)) 0 (n - 1)
  let y := powmod a qk.2 n
  if y = 1 ∨ y = n - 1 then .pass else mrSquarings n (qk.1 - 1) y

/-- The witness loop of R165: one fresh draw a round, ended by the first `composite`. -/
def witnessLoop (n : Int) : Nat → Source → Bool × Source
  | 0, g => (true, g)
  | i + 1, g =>
    let d := draw 2 (n - 1) g
    match mrRound n d.1 with
    | .composite => (false, d.2)
    | .pass => witnessLoop n i d.2

/-- `isprime(n)` for every integer `n` (R165), with the source as it stands afterwards. -/
def isprimeOf (n : Int) (g : Source) : Bool × Source :=
  if n < 2 then (false, g)
  else if n = 2 then (true, g)
  else if n = 3 then (true, g)
  else if isOdd n = false then (false, g)
  else witnessLoop n Config.witnessCount g

end Sys2Proof.Machine
end

