-- ==== Sys2Proof/Machine/Operands.lean ====
section
/-! DEFINITION. The operand forms: a point register as a value of the sum type `Inf | Fin(x, y)` (spec R27, R28), the curve in force
(R199), and a wide register as the host sees it, limb by limb (R12, R22, R66) and byte by byte (R67). -/

namespace Sys2Proof.Machine

/-- The value of a point register (R27); equality is structural. -/
inductive Point where
  | inf
  | fin (x y : Int)
  deriving DecidableEq, Repr

/-- The curve `y² = x³ + a·x + b (mod p)` (R195). -/
structure Curve where
  a : Int
  b : Int
  p : Int
  deriving DecidableEq, Repr

/-- The value a point register holds: `Inf` when its tag is 1, whatever its coordinates hold (R27). -/
def PointReg.value (r : PointReg) : Point := if r.inf then .inf else .fin r.x r.y

/-- What a command's write of a point leaves in the register: `Inf` also zeroes the coordinates (R28). -/
def Point.toReg : Point → PointReg
  | .inf => ⟨true, 0, 0⟩
  | .fin x y => ⟨false, x, y⟩

/-- `p[i]` (R13, R27). -/
def State.getP (s : State) (i : PReg) : Point := (s.getPReg i).value

/-- `p[i] <- P` (R13, R28). -/
def State.setP (s : State) (i : PReg) (P : Point) : State := s.setPReg i P.toReg

/-- The coordinates a write of the point puts into wide registers, for the fit check (R23). -/
def Point.coords : Point → List Int
  | .inf => []
  | .fin x y => [x, y]

/-- `(a, b, p) <- (CA, CB, CP)` (R199). -/
def State.curve (s : State) : Curve := ⟨s.ca, s.cb, s.cp⟩

/-- `CA <- a; CB <- b; CP <- p; CV <- 1` (R196). -/
def State.setCurve (s : State) (c : Curve) : State := { s with ca := c.a, cb := c.b, cp := c.p, cv := true }

/-- `sext_w(v)`: the `w`-bit two's-complement vector a wide register stores (R12, R22). -/
def sextW (w : Nat) (v : Int) : BitVec w := BitVec.ofInt w v

/-- `signed_w(B)` (R12). -/
def signedW {w : Nat} (b : BitVec w) : Int := b.toInt

/-- A read of limb `j` of a wide register holding `v`: `B[64·j + 63 : 64·j]` (R66). -/
def limbOf (w : Nat) (v : Int) (j : Nat) : Word := (sextW w v).extractLsb' (64 * j) 64

/-- The integer a wide register holds after `d` is written to its limb `j`, the other bits unchanged (R66). -/
def putLimb (w : Nat) (v : Int) (j : Nat) (d : Word) : Int :=
  signedW ((sextW w v &&& ~~~((BitVec.allOnes 64).setWidth w <<< (64 * j))) ||| (d.setWidth w <<< (64 * j)))

/-- The byte at offset `addr + k` of an accepted access that carries `v`: bits `8·k + 7 : 8·k` (R67). -/
def byteLane (v : Word) (k : Nat) : Byte := v.extractLsb' (8 * k) 8

/-- The 64-bit value whose bytes at offsets `addr` to `addr + 7` are these (R67). -/
def ofByteLanes (b0 b1 b2 b3 b4 b5 b6 b7 : Byte) : Word :=
  placeAt b7 56 ||| placeAt b6 48 ||| placeAt b5 40 ||| placeAt b4 32 ||| placeAt b3 24 ||| placeAt b2 16 ||| placeAt b1 8 ||| placeAt b0 0

end Sys2Proof.Machine
end

