-- ==== Sys2Proof/Machine/EcCurve.lean ====
section
/-! DEFINITION. The curve commands ECSET (spec R196), ECSETNB (R198) and ECONCRV (R201), the preamble of the EC commands (R199) and the
membership test (R200). -/

namespace Sys2Proof.Machine

/-- `oncurve(P)` for the curve `c` (R200). -/
def oncurve (c : Curve) : Point → Bool
  | .inf => true
  | .fin x y => decide (imod (y * y) c.p = imod (x * x * x + c.a * x + c.b) c.p)

/-- `construct(a, b, p)`: the checks of R196 in their order, then the curve registers as given, not reduced. -/
def construct (c : Curve) (s : State) : Out :=
  if c.p ≤ 3 then raise .curve 1 s
  else
    let v := isprimeOf c.p s.env.source
    if v.1 = false then raise .curve 2 (s.setSource v.2)
    else commit (s.setSource v.2) [c.a, c.b, c.p] ((s.setSource v.2).setCurve c)

/-- ECSET rs1, rs2, rs3 (R196). -/
def execEcset (rs1 rs2 rs3 : XReg) (s : State) : Out :=
  construct ⟨s.getX rs1, s.getX rs2, s.getX rs3⟩ s

/-- ECSETNB rs1, rs3 (R198): `b` is 0 and no register is read for it. -/
def execEcsetnb (rs1 rs3 : XReg) (s : State) : Out :=
  construct ⟨s.getX rs1, 0, s.getX rs3⟩ s

/-- The preamble of every other EC command (R199), then `k` on the curve in force. -/
def withCurve (s : State) (k : Curve → Out) : Out :=
  if s.cv then k s.curve else raise .noCurve 0 s

/-- ECONCRV rd, ps1 (R201): no range check on the coordinates. -/
def execEconcrv (rd : XReg) (ps1 : PReg) (s : State) : Out :=
  withCurve s fun c => commitX s rd (ofVerdict (oncurve c (s.getP ps1)))

end Sys2Proof.Machine
end

