-- ==== Sys2Proof/Machine/EcEnum.lean ====
section
/-! DEFINITION. ECENUM (spec R236) and the list of points it produces (R237). -/

namespace Sys2Proof.Machine

/-- The least of the `n` values `y, y + 1, ...` with `mod(y · y, p) = r`, if there is one (R237). -/
def leastRoot (p r : Int) : Nat → Int → Option Int
  | 0, _ => none
  | n + 1, y => if imod (y * y) p = r then some y else leastRoot p r n (y + 1)

/-- What R237 appends to the list for one `x`. -/
def pointsAt (c : Curve) (x : Int) : List Entry :=
  let r := imod (x * x * x + c.a * x + c.b) c.p
  if r = 0 then [(x, 0)]
  else
    match leastRoot c.p r (c.p - 1).toNat 1 with
    | some y => [(x, y), (x, c.p - y)]
    | none => []

/-- `ec_points()` (R237): `x` ascending from 0 to `p − 1`. -/
def ecPoints (c : Curve) : List Entry :=
  (List.range c.p.toNat).flatMap fun (x : Nat) => pointsAt c (x : Int)

/-- ECENUM rd (R236). With `HAS_ENUM = 0` the command is illegal, before anything else (R102, R258). -/
def execEcenum (rd : XReg) (s : State) : Out :=
  if s.env.params.hasEnum = false then raise .illegal 0 s
  else
    withCurve s fun c =>
      if c.p > (s.env.params.enumMaxP : Int) then raise .param 8 s
      else
        let l := ecPoints c
        let n : Int := l.length
        commit s [n] { s.setX rd n with ebuf := Memory.writeList s.ebuf 0 l, ecnt := BitVec.ofNat 64 l.length }

end Sys2Proof.Machine
end

