-- ==== Sys2Proof/Machine/EcGroup.lean ====
section
/-! DEFINITION. The group law (spec R211 to R213), scalar multiplication (R222), and the commands ECADD (R215), ECDBL (R218) and ECSMUL
(R223). -/

namespace Sys2Proof.Machine

/-- `0 <= x < p and 0 <= y < p` (R210, R211). -/
def inRange (c : Curve) (x y : Int) : Bool := decide (0 ≤ x ∧ x < c.p ∧ 0 ≤ y ∧ y < c.p)

/-- `check_point(P, n)` (R211): the sub-code of the `E_POINT` it raises, or `none` when the point passes. -/
def checkPoint (c : Curve) (P : Point) (n : BitVec 8) : Option (BitVec 8) :=
  match P with
  | .inf => none
  | .fin x y =>
    if inRange c x y = false then some (0x10 + n)
    else if oncurve c (.fin x y) = false then some n
    else none

/-- The slope of R212 as numerator and denominator: the tangent when the operands are equal, else the chord. -/
def slopeTerms (c : Curve) (xP yP xQ yQ : Int) : Int × Int :=
  if xP = xQ ∧ yP = yQ then (3 * xP * xP + c.a, 2 * yP) else (yQ - yP, xQ - xP)

/-- The last lines of R212 for two finite operands that are not additive inverses. Both fallback returns of R213 are here: (b), no inverse
of the denominator, and (a), a result off the curve. Branch (a) is the document's safety net for a numerically
unexpected outcome, not part of the group law, and is kept as an explicit branch. -/
def addFinite (c : Curve) (xP yP xQ yQ : Int) : Point × Bool :=
  let t := slopeTerms c xP yP xQ yQ
  match invOf t.2 c.p with
  | none => (.inf, true)
  | some dinv =>
    let sl := imod (t.1 * dinv) c.p
    let xR := imod (sl * sl - xP - xQ) c.p
    let yR := imod (sl * (xP - xR) - yP) c.p
    if oncurve c (.fin xR yR) = false then (.inf, true) else (.fin xR yR, false)

/-- `ec_add(P, Q)` (R212): the sum and the fallback bit. -/
def ecAdd (c : Curve) (P Q : Point) : Point × Bool :=
  match P, Q with
  | .inf, Q => (Q, false)
  | .fin xP yP, .inf => (.fin xP yP, false)
  | .fin xP yP, .fin xQ yQ =>
    if Point.fin xP yP ≠ Point.fin xQ yQ ∧ xP = xQ ∧ imod (yP + yQ) c.p = 0 then (.inf, false)
    else addFinite c xP yP xQ yQ

/-- One turn of the loop of R222 on the bit `b` of the scalar: double, then add `G` if the bit is 1. -/
def smulTurn (c : Curve) (G : Point) (b : Int) (r : Point × Bool) : Point × Bool :=
  let d := ecAdd c r.1 r.1
  if b = 1 then
    let a := ecAdd c d.1 G
    (a.1, r.2 || d.2 || a.2)
  else (d.1, r.2 || d.2)

/-- The loop of R222 over the bits `i − 1` down to 0 of `k`. -/
def smulLoop (c : Curve) (G : Point) (k : Int) : Nat → Point × Bool → Point × Bool
  | 0, r => r
  | i + 1, r => smulLoop c G k i (smulTurn c G (ibit k i) r)

/-- `ec_smul(k, G)` for `k ≥ 0` (R222): binary, most significant bit first. -/
def ecSmul (c : Curve) (k : Int) (G : Point) : Point × Bool :=
  if k = 0 then (.inf, false) else smulLoop c G k (bitlen k - 1) (G, false)

/-- The end of a group-law command: `p[rd] <- R; FB <- fb` (R215, R218, R223). -/
def commitP (s : State) (pd : PReg) (r : Point × Bool) : Out :=
  commit s r.1.coords { s.setP pd r.1 with fb := r.2 }

/-- ECADD pd, ps1, ps2 (R215). -/
def execEcadd (pd ps1 ps2 : PReg) (s : State) : Out :=
  withCurve s fun c =>
    let P := s.getP ps1
    let Q := s.getP ps2
    match checkPoint c P 1 with
    | some sub => raise .point sub s
    | none =>
      match checkPoint c Q 2 with
      | some sub => raise .point sub s
      | none => commitP s pd (ecAdd c P Q)

/-- ECDBL pd, ps1 (R218): `add(P, P)` (R217). -/
def execEcdbl (pd ps1 : PReg) (s : State) : Out :=
  withCurve s fun c =>
    let P := s.getP ps1
    match checkPoint c P 1 with
    | some sub => raise .point sub s
    | none => commitP s pd (ecAdd c P P)

/-- ECSMUL pd, rs1, ps2 (R223): the point is checked for every scalar. -/
def execEcsmul (pd : PReg) (rs1 : XReg) (ps2 : PReg) (s : State) : Out :=
  withCurve s fun c =>
    let k := s.getX rs1
    let G := s.getP ps2
    if k < 0 then raise .param 7 s
    else
      match checkPoint c G 2 with
      | some sub => raise .point sub s
      | none => commitP s pd (ecSmul c k G)

end Sys2Proof.Machine
end

