-- ==== Sys2Proof/Machine/GcdModinv.lean ====
section
/-! DEFINITION. GCD (spec R137, R138) and MODINV (R141, R142). -/

namespace Sys2Proof.Machine

/-- GCD rd, rs1, rs2 (R137). -/
def execGcd (rd rs1 rs2 : XReg) (s : State) : Out :=
  let a := s.getX rs1
  let b := s.getX rs2
  if b < 0 then raise .param 3 s else commitX s rd (gcdOf a b)

/-- MODINV rd, rs1, rs2 (R141): the absence of an inverse is not a fault (R248). -/
def execModinv (rd rs1 rs2 : XReg) (s : State) : Out :=
  let a := s.getX rs1
  let m := s.getX rs2
  if m ≤ 0 then raise .param 1 s
  else
    match invOf a m with
    | some v => commit s [v] { s.setX rd v with ni := false }
    | none => commit s [0] { s.setX rd 0 with ni := true }

end Sys2Proof.Machine
end

