-- ==== Sys2Proof/Machine/Generator.lean ====
section
/-! DEFINITION. FINDGEN (spec R186) and its window test (R187): the documented heuristic, not a primitive-root test (R185). -/

namespace Sys2Proof.Machine

/-- The loop of `window_ok` (R187): `n` turns left, `v` the last power, `seen` the residues met. -/
def windowLoop (g p : Int) : Nat → Int → List Int → Bool
  | 0, _, _ => true
  | n + 1, v, seen =>
    let u := imod (v * g) p
    if u ∈ seen then false else windowLoop g p n u (u :: seen)

/-- `window_ok(g, p, w)` (R187): whether `g^1, ..., g^w` are pairwise distinct modulo `p`. -/
def windowOk (g p : Int) (w : Nat) : Bool := windowLoop g p w 1 []

/-- "advance the candidate": `g + 1`, wrapping past `pp − 1` to 2 (R186). -/
def advance (pp g : Int) : Int := if g + 1 ≥ pp then 2 else g + 1

/-- The loop of R186 over the tries left, `MAX_GEN_TRIES − tries`; `none` when they are spent. -/
def tryLoop (pp : Int) (w : Nat) : Nat → Int → Option Int
  | 0, _ => none
  | n + 1, g => if windowOk g pp w then some g else tryLoop pp w n (advance pp g)

/-- `w <- min(pp - 1, GEN_WINDOW)` (R186). -/
def windowSize (pp : Int) : Nat := min (pp - 1).toNat Config.genWindow

/-- FINDGEN rd, rs1 (R186). -/
def execFindgen (rd rs1 : XReg) (s : State) : Out :=
  let pp := s.getX rs1
  if pp ≤ 2 then raise .param 6 s
  else
    let v := isprimeOf pp s.env.source
    if v.1 = false then raise .param 6 (s.setSource v.2)
    else
      let d := draw 2 pp v.2
      match tryLoop pp (windowSize pp) s.env.params.maxGenTries d.1 with
      | none => raise .exhausted 2 (s.setSource d.2)
      | some g => commitX (s.setSource d.2) rd g

end Sys2Proof.Machine
end

