-- ==== Sys2Proof/Machine/ModMul.lean ====
section
/-! DEFINITION. MODMUL (spec R125, R126). -/

namespace Sys2Proof.Machine

/-- MODMUL rd, rs1, rs2, rs3 (R125). -/
def execModmul (rd rs1 rs2 rs3 : XReg) (s : State) : Out :=
  let a := s.getX rs1
  let b := s.getX rs2
  let m := s.getX rs3
  if m ≤ 0 then raise .param 1 s else commitX s rd (mulmod a b m)

end Sys2Proof.Machine
end

