-- ==== Sys2Proof/Machine/PowMod.lean ====
section
/-! DEFINITION. POWMOD (spec R152, R153). -/

namespace Sys2Proof.Machine

/-- POWMOD rd, rs1, rs2, rs3 (R152): the modulus is checked before the exponent. -/
def execPowmod (rd rs1 rs2 rs3 : XReg) (s : State) : Out :=
  let b := s.getX rs1
  let e := s.getX rs2
  let m := s.getX rs3
  if m ≤ 0 then raise .param 1 s
  else if e < 0 then raise .param 2 s
  else commitX s rd (powmod b e m)

end Sys2Proof.Machine
end

