-- ==== Sys2Proof/Machine/Primality.lean ====
section
/-! DEFINITION. SAMPLE (spec R162), ISPRIME (R168) and GENPRIME (R172). -/

namespace Sys2Proof.Machine

/-- SAMPLE rd, rs1, rs2 (R162): exactly one draw. -/
def execSample (rd rs1 rs2 : XReg) (s : State) : Out :=
  let low := s.getX rs1
  let high := s.getX rs2
  if low < 0 ∨ low ≥ high then raise .param 5 s
  else
    let d := draw low high s.env.source
    commitX (s.setSource d.2) rd d.1

/-- ISPRIME rd, rs1 (R168): it never faults. -/
def execIsprime (rd rs1 : XReg) (s : State) : Out :=
  let v := isprimeOf (s.getX rs1) s.env.source
  commitX (s.setSource v.2) rd (ofVerdict v.1)

/-- `r <- draw(0, 2^tb); c <- r | 2^(tb-1) | 1` (R172). -/
def candidate (tb : Nat) (g : Source) : Int × Source :=
  let d := draw 0 (2 ^ tb) g
  (ior (ior d.1 (2 ^ (tb - 1))) 1, d.2)

/-- The candidate to examine next (R172): `c` while it has `tb` bits; when it has overflowed, a fresh sample. -/
def refresh (tb : Nat) (c : Int) (g : Source) : Int × Source :=
  if bitlen c = tb then (c, g) else candidate tb g

/-- The two loops of R172 as one over the probes left, `MAX_PRIME_PROBES − probes`: a candidate that overflowed is sampled again, then the
budget is checked, then the candidate is tested. Both loops meet the budget check with a candidate of `tb` bits, since
every fresh sample has `tb` bits (R309). `none` when the budget is spent. -/
def probeLoop (tb : Nat) : Nat → Int → Source → Option Int × Source
  | 0, c, g => (none, (refresh tb c g).2)
  | n + 1, c, g =>
    let r := refresh tb c g
    let v := isprimeOf r.1 r.2
    if v.1 then (some r.1, v.2) else probeLoop tb n (r.1 + 2) v.2

/-- The search of GENPRIME: a first sample, then the loops (R172). -/
def searchPrime (tb probes : Nat) (g : Source) : Option Int × Source :=
  let c := candidate tb g
  probeLoop tb probes c.1 c.2

/-- GENPRIME rd, rs1 (R172). -/
def execGenprime (rd rs1 : XReg) (s : State) : Out :=
  let tb := s.getX rs1
  if tb < 8 ∨ imod tb 8 ≠ 0 ∨ tb > (s.width : Int) - 8 then raise .param 4 s
  else
    let r := searchPrime tb.toNat s.env.params.maxPrimeProbes s.env.source
    match r.1 with
    | none => raise .exhausted 1 (s.setSource r.2)
    | some c => commitX (s.setSource r.2) rd c

end Sys2Proof.Machine
end

