-- ==== Sys2Proof/Machine/Dispatch.lean ====
section
/-! DEFINITION. The meaning of each command, one arm per constructor. -/

namespace Sys2Proof.Machine

def exec (i : Instr) (s : State) : Host.Outcome State Fault Refusal :=
  match i with
  | .modmul rd rs1 rs2 rs3 => Sys2Proof.Machine.execModmul rd rs1 rs2 rs3 s
  | .gcd rd rs1 rs2 => Sys2Proof.Machine.execGcd rd rs1 rs2 s
  | .modinv rd rs1 rs2 => Sys2Proof.Machine.execModinv rd rs1 rs2 s
  | .powmod rd rs1 rs2 rs3 => Sys2Proof.Machine.execPowmod rd rs1 rs2 rs3 s
  | .isprime rd rs1 => Sys2Proof.Machine.execIsprime rd rs1 s
  | .genprime rd rs1 => Sys2Proof.Machine.execGenprime rd rs1 s
  | .sample rd rs1 rs2 => Sys2Proof.Machine.execSample rd rs1 rs2 s
  | .findgen rd rs1 => Sys2Proof.Machine.execFindgen rd rs1 s
  | .ecset rs1 rs2 rs3 => Sys2Proof.Machine.execEcset rs1 rs2 rs3 s
  | .ecsetnb rs1 rs3 => Sys2Proof.Machine.execEcsetnb rs1 rs3 s
  | .econcrv rd ps1 => Sys2Proof.Machine.execEconcrv rd ps1 s
  | .ecadd pd ps1 ps2 => Sys2Proof.Machine.execEcadd pd ps1 ps2 s
  | .ecdbl pd ps1 => Sys2Proof.Machine.execEcdbl pd ps1 s
  | .ecsmul pd rs1 ps2 => Sys2Proof.Machine.execEcsmul pd rs1 ps2 s
  | .ecenum rd => Sys2Proof.Machine.execEcenum rd s

end Sys2Proof.Machine
end

