-- ==== Sys2Proof/Machine/Window.lean ====
section
/-! DEFINITION. The register window (spec R60 to R73): where an access lands, what it reads, what it writes, and when it is refused
(R63). -/

namespace Sys2Proof.Machine

/-- The registers of the control part of the window (R64). -/
inductive CtlReg where
  | id | param0 | cmd | status | ie | finfo | param1 | param2 | param3 | param4 | esel | ecnt
  | ptag (i : PReg)
  deriving DecidableEq, Repr

/-- The wide registers of the window (R65). -/
inductive WideReg where
  | x (i : XReg)
  | ca | cb | cp
  | px (i : PReg)
  | py (i : PReg)
  | ex | ey
  deriving DecidableEq, Repr

/-- Where an accepted access lands: a control register, or one limb of a wide register. -/
inductive Loc where
  | ctl (r : CtlReg)
  | limb (r : WideReg) (j : Nat)
  deriving DecidableEq, Repr

/-- The control register at an offset below `0x10000` (R64); `none` is unmapped (R70). -/
def ctlAt : Nat → Option CtlReg
  | 0x000 => some .id
  | 0x008 => some .param0
  | 0x010 => some .cmd
  | 0x018 => some .status
  | 0x020 => some .ie
  | 0x028 => some .finfo
  | 0x030 => some .param1
  | 0x038 => some .param2
  | 0x040 => some .param3
  | 0x048 => some .param4
  | 0x050 => some .esel
  | 0x058 => some .ecnt
  | 0x080 => some (.ptag 0)
  | 0x088 => some (.ptag 1)
  | 0x090 => some (.ptag 2)
  | 0x098 => some (.ptag 3)
  | _ => none

/-- The wide register of a slot (R65); `none` is unmapped (R70). -/
def wideAt (slot : Nat) : Option WideReg :=
  if h : slot < 16 then some (.x ⟨slot, h⟩)
  else
    match slot with
    | 16 => some .ca
    | 17 => some .cb
    | 18 => some .cp
    | 32 => some (.px 0)
    | 33 => some (.py 0)
    | 34 => some (.px 1)
    | 35 => some (.py 1)
    | 36 => some (.px 2)
    | 37 => some (.py 2)
    | 38 => some (.px 3)
    | 39 => some (.py 3)
    | 48 => some .ex
    | 49 => some .ey
    | _ => none

/-- The size of the window in bytes (R60). -/
def windowBytes : Nat := 0x50000

/-- Where an access of `size` bytes at offset `off` lands; `none` when it is refused for its size or alignment (R61, R62), because the offset
is unmapped (R70), or because the limb does not exist (R71). -/
def locate (p : Params) (off size : Nat) : Option Loc :=
  if size ≠ 8 ∨ off % 8 ≠ 0 then none
  else if off < 0x10000 then (ctlAt off).map .ctl
  else if off < windowBytes then
    match wideAt ((off - 0x10000) / 0x1000) with
    | none => none
    | some r =>
      let j := (off - 0x10000) % 0x1000 / 8
      if j < p.limbs then some (.limb r j) else none
  else none

/-- `PARAM0` (R44): NX in 39:32, NP in 31:28, HAS_ENUM in 24, T in 23:16, W in 15:0. -/
def param0Word (p : Params) : Word :=
  placeAt (BitVec.ofNat 8 Config.xRegs) 32 ||| placeAt (BitVec.ofNat 4 Config.pRegs) 28 |||
    placeAt (BitVec.ofBool p.hasEnum) 24 ||| placeAt (BitVec.ofNat 8 Config.witnessCount) 16 |||
    placeAt (BitVec.ofNat 16 p.width) 0

/-- `PTAG[i]` as the host reads it: bit 0 is `INF`, the rest zero (R26). -/
def ptagWord (r : PointReg) : Word := placeAt (BitVec.ofBool r.inf) 0

/-- The value of a control register: readable at any time (R64, R68). -/
def ctlRead (s : State) : CtlReg → Word
  | .id => 0x4E54453100000001
  | .param0 => param0Word s.env.params
  | .cmd => s.ir
  | .status => statusWord s
  | .ie => ieWord s
  | .finfo => finfoWord s
  | .param1 => BitVec.ofNat 64 Config.genWindow
  | .param2 => BitVec.ofNat 64 s.env.params.maxPrimeProbes
  | .param3 => BitVec.ofNat 64 s.env.params.maxGenTries
  | .param4 => BitVec.ofNat 64 s.env.params.enumMaxP
  | .esel => s.esel
  | .ecnt => s.ecnt
  | .ptag i => ptagWord (s.getPReg i)

/-- The integer a wide register holds; `EX` and `EY` exist for a read only when `HAS_ENUM = 1` and show `EBUF[ESEL]` (R65). -/
def wideValue (s : State) : WideReg → Option Int
  | .x i => some (s.getX i)
  | .ca => some s.ca
  | .cb => some s.cb
  | .cp => some s.cp
  | .px i => some (s.getPReg i).x
  | .py i => some (s.getPReg i).y
  | .ex => if s.env.params.hasEnum then some (s.ebuf.read s.esel.toNat).1 else none
  | .ey => if s.env.params.hasEnum then some (s.ebuf.read s.esel.toNat).2 else none

/-- A read where it lands: control registers at any time, limbs only while idle (R64, R65, R68); `none` is refused. -/
def readLoc (s : State) : Loc → Option Word
  | .ctl r => some (ctlRead s r)
  | .limb r j => if s.busy then none else (wideValue s r).map fun v => limbOf s.width v j

/-- The host's write of `v` to a control register (R64); `none` is refused: a read-only register, a locked one (R68), a `CMD` write not accepted
(R92), an `ESEL` out of range (R47). -/
def ctlWrite (s : State) (v : Word) : CtlReg → Option State
  | .id => none
  | .param0 => none
  | .cmd => accept v s
  | .status => some (writeStatus v s)
  | .ie => some (writeIe v s)
  | .finfo => none
  | .param1 => none
  | .param2 => none
  | .param3 => none
  | .param4 => none
  | .esel =>
    if s.busy then none
    else if v.toNat < s.env.params.ebufDepth then some { s with esel := v }
    else none
  | .ecnt => none
  | .ptag i => if s.busy then none else some (s.setPReg i { s.getPReg i with inf := v.getLsbD 0 })

/-- The host's write of `v` to limb `j` of a wide register, only while idle (R65, R66, R68); `none` is refused. -/
def wideWrite (s : State) (j : Nat) (v : Word) (r : WideReg) : Option State :=
  if s.busy then none
  else
    match r with
    | .x i => some (s.setX i (putLimb s.width (s.getX i) j v))
    | .ca => none
    | .cb => none
    | .cp => none
    | .px i => some (s.setPReg i { s.getPReg i with x := putLimb s.width (s.getPReg i).x j v })
    | .py i => some (s.setPReg i { s.getPReg i with y := putLimb s.width (s.getPReg i).y j v })
    | .ex => none
    | .ey => none

/-- A write where it lands. -/
def writeLoc (s : State) (v : Word) : Loc → Option State
  | .ctl r => ctlWrite s v r
  | .limb r j => wideWrite s j v r

/-- `MemRead(off, size)` (R14): the value read, or `none` for a bus error. It changes nothing (R73). -/
def memRead (s : State) (off size : Nat) : Option Word := (locate s.env.params off size).bind (readLoc s)

/-- `MemWrite(off, size, v)` (R14): the state after it, or `none` for a bus error, which changes nothing (R63). -/
def memWrite (s : State) (off size : Nat) (v : Word) : Option State :=
  (locate s.env.params off size).bind (writeLoc s v)

end Sys2Proof.Machine
end

