-- ==== Sys2Proof/Machine/Engine.lean ====
section
/-! DEFINITION. The transitions of the engine (spec R295): the engine step (R296), and the events its one port receives (R75). -/

namespace Sys2Proof.Machine

/-- The engine step (R296): enabled while `BUSY = 1`, it decodes `IR` and performs the whole command; an illegal word is
`E_ILLEGAL(0)` (R250). While `BUSY = 0` the engine changes no state on its own (R265). -/
def engineStep (s : State) : Out :=
  if s.busy then
    match decode s.ir with
    | none => raise .illegal 0 s
    | some i => exec i s
  else .next s

/-- The state once its last access has been answered with `r`. -/
def State.respond (s : State) (r : Option Response) : State := { s with env := { s.env with response := r } }

/-- The offset of a bus address in the register window, if it lies in it (R60). -/
def busOffset (p : Params) (addr : Nat) : Option Nat :=
  if p.nteBase ≤ addr ∧ addr < p.nteBase + windowBytes then some (addr - p.nteBase) else none

/-- A host read (R295 (a)): it changes nothing but the response. An address outside the window is not the engine's concern and gets no
response from it (R70). -/
def hostRead (s : State) (addr size : Nat) : State :=
  match busOffset s.env.params addr with
  | none => s.respond none
  | some off =>
    match memRead s off size with
    | none => s.respond (some .busError)
    | some v => s.respond (some (.data v))

/-- A host write (R295 (b)): a refused one changes nothing but the response. -/
def hostWrite (s : State) (addr size : Nat) (v : Word) : State :=
  match busOffset s.env.params addr with
  | none => s.respond none
  | some off =>
    match memWrite s off size v with
    | none => s.respond (some .busError)
    | some t => t.respond (some .done)

/-- One port event (R75, R295), taken from the head of `Env.port`. -/
def portEvent (e : PortEvent) (s : State) : Out :=
  match e with
  | .read addr size => .next (hostRead s addr size)
  | .write addr size v => .next (hostWrite s addr size v)
  | .reset => .next (resetLine s)
  | .engineTurn => engineStep s

/-- The state without the head of its port. -/
def State.setPort (s : State) (l : List PortEvent) : State := { s with env := { s.env with port := l } }

/-- One transition (R295): the first event the port still holds, and with an empty port the engine's own step. -/
def transition (s : State) : Out :=
  match s.env.port with
  | [] => engineStep s
  | e :: rest => portEvent e (s.setPort rest)

/-- The state in which the engine's next step runs the command word `w`: what the acceptance of `w` leaves (R92), and nothing
waiting at the port. -/
def presentWord (s : State) (w : Word) : State :=
  { s.setPort [] with ir := w, busy := true, done := false }

end Sys2Proof.Machine
end

