-- ==== Sys2Proof/Machine/Step.lean ====
section
/-! DEFINITION. The step of the machine. -/

namespace Sys2Proof.Machine

/-- One step of the machine: one transition of R295. -/
def step (s : State) : Host.Outcome State Fault Refusal := transition s

/-- `s` with the instruction of `nbits` bits `w` placed where the next step takes its command from: `IR`, with `BUSY = 1` (R93, R296). The
engine fetches nothing from memory (R30, R78); this stands for the host's accepted `CMD` write (R92). -/
def State.withFetchWord (s : State) (nbits w : Nat) : State := presentWord s (BitVec.ofNat 64 (w % 2 ^ nbits))

end Sys2Proof.Machine
end

