-- ==== Sys2Proof/WellFormed.lean ====
section
/-! DEFINITION. Which commands exist on an implementation. The register fields of `Instr` are bounded by their types, so
the one check left is R102's: ECENUM exists only when `HAS_ENUM = 1`. -/

namespace Sys2Proof

/-- Whether the command exists under the parameters: ECENUM with `HAS_ENUM = 0` is an illegal command (R100, R102). -/
def wellFormed (p : Params) : Instr → Bool
  | .modmul _ _ _ _ => true
  | .gcd _ _ _ => true
  | .modinv _ _ _ => true
  | .powmod _ _ _ _ => true
  | .isprime _ _ => true
  | .genprime _ _ => true
  | .sample _ _ _ => true
  | .findgen _ _ => true
  | .ecset _ _ _ => true
  | .ecsetnb _ _ => true
  | .econcrv _ _ => true
  | .ecadd _ _ _ => true
  | .ecdbl _ _ => true
  | .ecsmul _ _ _ => true
  | .ecenum _ => p.hasEnum

end Sys2Proof
end

