-- ==== Sys2Proof/Safety.lean ====
section
/-! DEFINITION. What the claims call a good state and a safe run: the invariants the spec gives the engine's state (R22, R29, R41, R42, R47,
R49, R247), and a run without a fault or a bus error. -/

namespace Sys2Proof.Machine

/-- The `(CAUSE, SUB)` pairs of R247: every pair a fault can record. -/
def faultPairs : List (BitVec 8 × BitVec 8) :=
  [ (1, 1), (1, 2), (1, 3), (1, 4), (1, 5), (1, 6), (1, 7), (1, 8),
    (2, 1), (2, 2),
    (3, 1), (3, 2), (3, 0x11), (3, 0x12),
    (4, 1), (4, 2),
    (5, 0),
    (6, 1),
    (7, 0) ]

/-- The invariant of the engine's state. -/
structure State.Inv (s : State) : Prop where
  /-- The parameters meet R7. -/
  params : s.env.params.wf = true
  /-- Every integer register holds a value of its width (R22). -/
  xFits : ∀ i, fits s.width (s.getX i) = true
  /-- So does every point coordinate (R22, R25). -/
  pFits : ∀ i, fits s.width (s.getPReg i).x = true ∧ fits s.width (s.getPReg i).y = true
  /-- So do the curve registers (R22, R29). -/
  curveFits : fits s.width s.ca = true ∧ fits s.width s.cb = true ∧ fits s.width s.cp = true
  /-- `EBUF` is in its canonical form, inside its depth, its coordinates of register width (R49). -/
  ebufWf : s.ebuf.wf = true
  ebufFits : ∀ je ∈ s.ebuf, je.1 < s.env.params.ebufDepth ∧ fits s.width je.2.1 = true ∧ fits s.width je.2.2 = true
  /-- `BUSY = 1` implies `DONE = 0` and `FAULT = 0` (R41). -/
  busyFlags : s.busy = true → s.done = false ∧ s.fault = false
  /-- `CAUSE ≠ 0` exactly when `FAULT = 1` (R41). -/
  causeIffFault : s.cause ≠ 0 ↔ s.fault = true
  /-- `FINFO = 0` whenever `FAULT = 0` (R42). -/
  finfoZero : s.fault = false → s.sub = 0
  /-- A pending fault is one of R247. -/
  faultPair : s.fault = true → (s.cause, s.sub) ∈ faultPairs
  /-- While `CV = 1`: `CP > 3`, and odd, since it passed the primality test (R29, R165). -/
  curveValid : s.cv = true → 3 < s.cp ∧ s.cp % 2 = 1
  /-- `ESEL` selects an entry of `EBUF`, or is 0 when there is none (R47). -/
  eselBound : s.esel.toNat < s.env.params.ebufDepth ∨ s.esel = 0
  /-- `ECNT` counts entries of `EBUF` (R48). -/
  ecntBound : s.ecnt.toNat ≤ s.env.params.ebufDepth

/-- No fault is pending and the last access was not refused. -/
def State.safe (s : State) : Bool := !s.fault && decide (s.env.response ≠ some .busError)

/-- A run of `n` steps from `s` all of whose states are safe. -/
def safeRun : Nat → State → Bool
  | 0, s => s.safe
  | n + 1, s =>
    s.safe &&
      match step s with
      | .next t => safeRun n t
      | .fault _ => false
      | .refused _ => false

end Sys2Proof.Machine
end

