-- ==== Sys2Proof/Certificates/Slice0/Obligations.lean ====
section
/-! DEFINITION. The statements for the provers, listed in OBLIGATIONS.json. The namespace `Sys2Proof.Claims` holds the words they are
written in; each cites the rule of spec/ it writes down. -/

namespace Sys2Proof.Claims
open Sys2Proof.Machine

/-- The command word of these fields, `OP·2^24 + RD·2^20 + RS1·2^16 + RS2·2^12 + RS3·2^8 + NB` (95_test_vectors.md, R91). -/
def commandWord (op rd rs1 rs2 rs3 nb : Nat) : Word :=
  BitVec.ofNat 64 (op * 2 ^ 24 + rd * 2 ^ 20 + rs1 * 2 ^ 16 + rs2 * 2 ^ 12 + rs3 * 2 ^ 8 + nb)

/-- Fault entry (R252): `CAUSE`, `FINFO`, `FAULT`, `DONE`, `BUSY`, and nothing else. -/
def faulted (code sub : BitVec 8) (s : State) : State :=
  { s with cause := code, sub := sub, fault := true, done := true, busy := false }

/-- The state after a command whose only write is `x[rd] <- v` (R93). -/
def wroteX (rd : XReg) (v : Int) (s : State) : State :=
  { s with x := s.x.set rd v, busy := false, done := true }

/-- The state after a command that writes a point and `FB` (R28, R93). -/
def wroteP (pd : PReg) (r : Point × Bool) (s : State) : State :=
  match r.1 with
  | .inf => { s with p := s.p.set pd ⟨true, 0, 0⟩, fb := r.2, busy := false, done := true }
  | .fin x y => { s with p := s.p.set pd ⟨false, x, y⟩, fb := r.2, busy := false, done := true }

/-- The state after a command that sets the curve (R93, R196). -/
def wroteCurve (a b p : Int) (s : State) : State :=
  { s with ca := a, cb := b, cp := p, cv := true, busy := false, done := true }

/-- The state once the randomness source has answered `k` more draws: its next `k` listed answers are used up (log 2). -/
def drawn (k : Nat) (s : State) : State :=
  { s with env := { s.env with
      source := { answers := s.env.source.answers.drop k, taken := s.env.source.taken + k } } }

/-- The state once the first port event has been taken and `rest` is still to come (log 4). -/
def portLeft (rest : List PortEvent) (s : State) : State := { s with env := { s.env with port := rest } }

/-- While idle, the limbs of the wide slot at `off` show the two's-complement form of `v`: limb `j` reads bits `64·j + 63 : 64·j` (R65, R66). -/
def slotShows (s : State) (off : Nat) (v : Int) : Prop :=
  ∀ j, j < s.env.params.limbs → ∃ w, memRead s (off + 8 * j) 8 = some w ∧ (w.toNat : Int) = v / 2 ^ (64 * j) % 2 ^ 64

/-- What R164 means by a base `a` passing for `n`: with `n − 1 = 2^q · k`, `k` odd, `a^k` is 1 modulo `n`, or one of
`a^k, a^(2k), ..., a^(2^(q−1)·k)` is `n − 1`. -/
def roundPasses (n a : Int) : Prop :=
  ∃ q k : Nat, n - 1 = 2 ^ q * (k : Int) ∧ k % 2 = 1 ∧ (a ^ k % n = 1 ∨ ∃ j < q, a ^ (2 ^ j * k) % n = n - 1)

/-- What the inner loop of R172 ends in. -/
inductive Probed where
  | found (c : Int) (g : Source)
  | spent (g : Source)
  | overflowed (probes : Nat) (g : Source)

/-- The inner loop of R172, `while bitlen(c) = tb do ...`, with the budget `max`; `max + 1` turns are enough. -/
def innerLoop (tb max : Nat) : Nat → Nat → Int → Source → Probed
  | 0, probes, _, g => .overflowed probes g
  | turns + 1, probes, c, g =>
    if bitlen c = tb then
      if probes = max then .spent g
      else
        let v := isprimeOf c g
        if v.1 then .found c v.2 else innerLoop tb max turns (probes + 1) (c + 2) v.2
    else .overflowed probes g

/-- The outer loop of R172 (R309: at most `max + 1` samples). -/
def outerLoop (tb max : Nat) : Nat → Nat → Source → Option Int × Source
  | 0, _, g => (none, g)
  | samples + 1, probes, g =>
    let c := candidate tb g
    match innerLoop tb max (max + 1) probes c.1 c.2 with
    | .found c g' => (some c, g')
    | .spent g' => (none, g')
    | .overflowed probes' g' => outerLoop tb max samples probes' g'

/-- The first `w` powers of `g` are pairwise distinct modulo `p` (R187). -/
def powersDistinct (g p : Int) (w : Nat) : Prop :=
  ∀ i j : Nat, 1 ≤ j → j < i → i ≤ w → g ^ i % p ≠ g ^ j % p

/-- The candidate after `n` advances from `g0` in the cyclic sequence `g0, g0 + 1, ..., pp − 1, 2, 3, ...` (R188). -/
def candidateAt (pp g0 : Int) (n : Nat) : Int := 2 + (g0 - 2 + n) % (pp - 2)

/-- `w <- min(pp − 1, 1000000)` (R186). -/
def windowOf (pp : Int) : Nat := min (pp - 1).toNat 1000000

/-- `y` is the least of `1 .. p − 1` with `mod(y · y, p) = r` (R237). -/
def isLeastRoot (p r y : Int) : Prop :=
  1 ≤ y ∧ y < p ∧ y * y % p = r ∧ ∀ z, 1 ≤ z → z < y → z * z % p ≠ r

/-- The equation of R200 for finite coordinates. -/
def satisfies (c : Curve) (x y : Int) : Prop := y * y % c.p = (x * x * x + c.a * x + c.b) % c.p

/-- The first line of `check_point` fails (R211). -/
def outOfRange (c : Curve) (P : Point) : Prop :=
  ∃ x y, P = .fin x y ∧ ¬(0 ≤ x ∧ x < c.p ∧ 0 ≤ y ∧ y < c.p)

/-- The second line of `check_point` fails (R211). -/
def offCurve (c : Curve) (P : Point) : Prop := ∃ x y, P = .fin x y ∧ ¬satisfies c x y

/-- The point passes `check_point` (R211). -/
def usable (c : Curve) (P : Point) : Prop := ¬outOfRange c P ∧ ¬offCurve c P

/-- The integer register a command writes when it ends without fault (R96). -/
def destX : Instr → Option XReg
  | .modmul rd _ _ _ | .gcd rd _ _ | .modinv rd _ _ | .powmod rd _ _ _ | .isprime rd _ | .genprime rd _
  | .sample rd _ _ | .findgen rd _ | .econcrv rd _ | .ecenum rd => some rd
  | .ecset _ _ _ | .ecsetnb _ _ | .ecadd _ _ _ | .ecdbl _ _ | .ecsmul _ _ _ => none

/-- The point register a command writes when it ends without fault (R96). -/
def destP : Instr → Option PReg
  | .ecadd pd _ _ | .ecdbl pd _ | .ecsmul pd _ _ => some pd
  | .modmul _ _ _ _ | .gcd _ _ _ | .modinv _ _ _ | .powmod _ _ _ _ | .isprime _ _ | .genprime _ _ | .sample _ _ _
  | .findgen _ _ | .ecset _ _ _ | .ecsetnb _ _ | .econcrv _ _ | .ecenum _ => none

/-- The commands that take draws (R96). -/
def draws : Instr → Bool
  | .isprime _ _ | .genprime _ _ | .sample _ _ _ | .findgen _ _ | .ecset _ _ _ | .ecsetnb _ _ => true
  | .modmul _ _ _ _ | .gcd _ _ _ | .modinv _ _ _ | .powmod _ _ _ _ | .econcrv _ _ | .ecadd _ _ _ | .ecdbl _ _
  | .ecsmul _ _ _ | .ecenum _ => false

/-- The conditions of R100, field by field; `p` gives `HAS_ENUM`. -/
def illegalWord (p : Params) (w : Word) : Prop :=
  let op := w.extractLsb' 24 8
  let rd := w.extractLsb' 20 4
  let rs1 := w.extractLsb' 16 4
  let rs2 := w.extractLsb' 12 4
  let rs3 := w.extractLsb' 8 4
  let nb := w.extractLsb' 0 1
  w.extractLsb' 32 32 ≠ 0 ∨ w.extractLsb' 1 7 ≠ 0 ∨
  ¬((1 ≤ op.toNat ∧ op.toNat ≤ 8) ∨ (0x10 ≤ op.toNat ∧ op.toNat ≤ 0x15)) ∨
  (nb = 1 ∧ op ≠ 0x10) ∨ (nb = 1 ∧ op = 0x10 ∧ rs2 ≠ 0) ∨
  -- a field the format marks 0 (R94)
  ((op = 0x02 ∨ op = 0x03 ∨ op = 0x07 ∨ op = 0x12 ∨ op = 0x14) ∧ rs3 ≠ 0) ∨
  ((op = 0x05 ∨ op = 0x06 ∨ op = 0x08 ∨ op = 0x11 ∨ op = 0x13) ∧ (rs2 ≠ 0 ∨ rs3 ≠ 0)) ∨
  (op = 0x10 ∧ rd ≠ 0) ∨ (op = 0x15 ∧ (rs1 ≠ 0 ∨ rs2 ≠ 0 ∨ rs3 ≠ 0)) ∨
  -- a point-register field greater than 3 (R94)
  ((op = 0x12 ∨ op = 0x13 ∨ op = 0x14) ∧ 3 < rd.toNat) ∨ ((op = 0x11 ∨ op = 0x12 ∨ op = 0x13) ∧ 3 < rs1.toNat) ∨
  ((op = 0x12 ∨ op = 0x14) ∧ 3 < rs2.toNat) ∨
  (op = 0x15 ∧ p.hasEnum = false)

end Sys2Proof.Claims

section
open Sys2Proof Sys2Proof.Machine Sys2Proof.Claims

/-! ### encoding -/

/-- Every command comes back from its word, whichever parameters it is well formed under (R91, R95, R103). -/
def Obligations.DecodeInvertsEncode : Prop :=
  ∀ (p : Params) (i : Instr), wellFormed p i = true → decode (encode i) = some i

/-- A word that decodes is the encoding of what it decodes to: decoding drops no bit (R91, R103). -/
def Obligations.EncodeInvertsDecode : Prop :=
  ∀ (w : Word) (i : Instr), decode w = some i → encode i = w

/-- R103: decoding compares the word with each row of the map; at most one matches, its fields are taken from these bits, and a word that
matches none is illegal. -/
def Obligations.DecodingFollowsTheMap : Prop :=
  ∀ w : Word,
    (∀ r ∈ opRows, ∀ r' ∈ opRows, w &&& r.mask = r.bits → w &&& r'.mask = r'.bits → r = r') ∧
    (∀ r ∈ opRows, w &&& r.mask = r.bits → decode w = some (buildInstr r.op w)) ∧
    ((∀ r ∈ opRows, w &&& r.mask ≠ r.bits) → decode w = none) ∧
    (fieldRd w).toNat = w.toNat / 2 ^ 20 % 16 ∧ (fieldRs1 w).toNat = w.toNat / 2 ^ 16 % 16 ∧
    (fieldRs2 w).toNat = w.toNat / 2 ^ 12 % 16 ∧ (fieldRs3 w).toNat = w.toNat / 2 ^ 8 % 16

/-- R100 (and R102 for `HAS_ENUM`): a word matches no command of the implementation exactly when one of the listed conditions holds, and the
step of an accepted illegal word raises `E_ILLEGAL(0)` and nothing else: with nothing waiting at the port, and at an `engineTurn` (log 4). -/
def Obligations.IllegalWordsFault : Prop :=
  ∀ (p : Params) (w : Word),
    (illegalWord p w ↔ ∀ i, decode w = some i → wellFormed p i = false) ∧
    ∀ s : State, s.env.params = p → s.busy = true → s.ir = w → illegalWord p w →
      (s.env.port = [] → step s = .next (faulted 5 0 s)) ∧
      ∀ rest, s.env.port = .engineTurn :: rest → step s = .next (faulted 5 0 (portLeft rest s))

/-- Words of 95_test_vectors.md §2.15, one of each family and three illegal ones. -/
def Obligations.SpecWordsDecode : Prop :=
  decode 0x0000000001412300 = some (.modmul 4 1 2 3) ∧
  decode 0x0000000003735000 = some (.modinv 7 3 5) ∧
  decode 0x0000000004A97400 = some (.powmod 10 9 7 4) ∧
  decode 0x0000000006210000 = some (.genprime 2 1) ∧
  decode 0x0000000008420000 = some (.findgen 4 2) ∧
  decode 0x0000000010012300 = some (.ecset 1 2 3) ∧
  decode 0x0000000010010301 = some (.ecsetnb 1 3) ∧
  decode 0x00000000142F3000 = some (.ecsmul 2 15 3) ∧
  decode 0x0000000015600000 = some (.ecenum 6) ∧
  decode 0x0000000010012301 = none ∧ decode 0x0000000012401000 = none ∧ decode 0x0000000000000000 = none

/-! ### the step -/

/-- R296: the engine's step decodes `IR` and runs the command on the current registers. With nothing waiting at the port the machine's step
is that step; an `engineTurn` at the head of the port puts it at its place of the total order of R75 (log 4), and nothing else
of the state moves. -/
def Obligations.StepRunsTheDecodedCommand : Prop :=
  ∀ (s : State) (i : Instr), s.busy = true → decode s.ir = some i → wellFormed s.env.params i = true →
    (s.env.port = [] → step s = exec i s) ∧
    (∀ rest, s.env.port = .engineTurn :: rest →
      step s = exec i (portLeft rest s))

/-- R265: while `BUSY = 0` the engine changes no state on its own: not with nothing waiting at the port (log 6), and an `engineTurn` is used up
without effect (log 4). -/
def Obligations.IdleEngineChangesNothing : Prop :=
  ∀ s : State, s.busy = false →
    (s.env.port = [] → step s = .next s) ∧ ∀ rest, s.env.port = .engineTurn :: rest → step s = .next (portLeft rest s)

/-- R93, R296: the whole life of a command is two transitions, acceptance and step. From an idle state with no fault pending, the host's
write of a command's word to `CMD` is accepted, and the next transition runs exactly that command on the registers as they
stood (the bus address is the parameter `NTE_BASE` of R60). -/
def Obligations.CommandIsTwoTransitions : Prop :=
  ∀ (s t : State) (i : Instr), wellFormed s.env.params i = true → s.busy = false → s.fault = false →
    s.env.port = [.write (s.env.params.nteBase + 0x010) 8 (encode i)] →
    t = { s with ir := encode i, busy := true, done := false, env := { s.env with port := [], response := some .done } } →
    step s = .next t ∧ step t = exec i t

/-- R93, R303 (a), R309: every command ends, with or without fault, `BUSY = 0` and `DONE = 1`. -/
def Obligations.EveryCommandEnds : Prop :=
  ∀ (i : Instr) (s : State), ∃ t, exec i s = .next t ∧ t.busy = false ∧ t.done = true

/-- Every transition has a next state: the machine never stops (93_implementation_defined.md, "every accepted access and every accepted
command has a defined outcome"; log 20). -/
def Obligations.EveryStepHasNextState : Prop := ∀ s : State, ∃ t, step s = .next t

/-- Every step keeps the invariant of the state (R22, R29, R41, R42, R47, R48, R49, R247), from every state that meets it. -/
def Obligations.StepKeepsTheStateInvariant : Prop :=
  ∀ s t : State, s.Inv → step s = .next t → t.Inv

/-- The reset state meets the invariant, under every choice of the parameters that R7 allows, the model's own choice (log 1) among them. -/
def Obligations.ResetMeetsTheStateInvariant : Prop :=
  (∀ p : Params, p.wf = true → (State.resetWith p).Inv) ∧ Config.params.wf = true

/-- R54, R285, R286: reset, at any time, during a command too, puts every piece of state at its reset value; `ID` and `PARAM0` to `PARAM4`
read their constants and `irq` is 0. The last clause is the model's own, which neither rule states: the parameters, the answers to come, with
none of them lost, and the rest of the port list stay, and the response becomes none (logs 15, 22 and 5). -/
def Obligations.ResetSetsEveryRegister : Prop :=
  ∀ (s : State) (rest : List PortEvent), s.env.port = .reset :: rest →
    ∃ t, step s = .next t ∧ (∀ i, t.getX i = 0) ∧ (∀ i, t.getPReg i = ⟨true, 0, 0⟩) ∧ t.ca = 0 ∧ t.cb = 0 ∧ t.cp = 0 ∧
      t.ir = 0 ∧ t.busy = false ∧ t.done = false ∧ t.fault = false ∧ t.ni = false ∧ t.cv = false ∧ t.fb = false ∧
      t.cause = 0 ∧ t.sub = 0 ∧ t.doneIe = false ∧ t.faultIe = false ∧ t.esel = 0 ∧ t.ecnt = 0 ∧
      (∀ j, Memory.read t.ebuf j = (0, 0)) ∧ statusWord t = 0 ∧ finfoWord t = 0 ∧ ieWord t = 0 ∧ t.irq = false ∧
      memRead t 0x000 8 = some 0x4E54453100000001 ∧ memRead t 0x008 8 = memRead s 0x008 8 ∧
      memRead t 0x030 8 = some 1000000 ∧ memRead t 0x038 8 = memRead s 0x038 8 ∧
      memRead t 0x040 8 = memRead s 0x040 8 ∧ memRead t 0x048 8 = memRead s 0x048 8 ∧
      t.env = { s.env with port := rest, response := none }

/-! ### the integer commands -/

/-- R125: MODMUL, its encoding, its one fault and its result; no draw, no flag, every other register and `EBUF` as before. -/
def Obligations.ModmulWritesTheResidue : Prop :=
  ∀ (s : State) (rd rs1 rs2 rs3 : XReg), s.Inv →
    decode (commandWord 0x01 rd rs1 rs2 rs3 0) = some (.modmul rd rs1 rs2 rs3) ∧
    (s.getX rs3 ≤ 0 → exec (.modmul rd rs1 rs2 rs3) s = .next (faulted 1 1 s)) ∧
    (0 < s.getX rs3 →
      exec (.modmul rd rs1 rs2 rs3) s = .next (wroteX rd (s.getX rs1 * s.getX rs2 % s.getX rs3) s))

/-- R137 (with R136): GCD, its encoding, its two faults in order (`E_RANGE(1)` for exactly one input pair), and its result, the non-negative
greatest common divisor. -/
def Obligations.GcdWritesTheDivisor : Prop :=
  ∀ (s : State) (rd rs1 rs2 : XReg), s.Inv →
    decode (commandWord 0x02 rd rs1 rs2 0 0) = some (.gcd rd rs1 rs2) ∧
    (s.getX rs2 < 0 → exec (.gcd rd rs1 rs2) s = .next (faulted 1 3 s)) ∧
    (s.getX rs1 = -2 ^ (s.width - 1) → s.getX rs2 = 0 → exec (.gcd rd rs1 rs2) s = .next (faulted 6 1 s)) ∧
    (0 ≤ s.getX rs2 → ¬(s.getX rs1 = -2 ^ (s.width - 1) ∧ s.getX rs2 = 0) →
      exec (.gcd rd rs1 rs2) s = .next (wroteX rd (Int.gcd (s.getX rs1) (s.getX rs2)) s))

/-- R141 (with R139, R140): MODINV, its encoding, its one fault, the inverse in `[0, m)` with `NI = 0`, and the no-inverse outcome, which is
no fault: 0 with `NI = 1`. -/
def Obligations.ModinvWritesTheInverse : Prop :=
  ∀ (s : State) (rd rs1 rs2 : XReg), s.Inv →
    decode (commandWord 0x03 rd rs1 rs2 0 0) = some (.modinv rd rs1 rs2) ∧
    (s.getX rs2 ≤ 0 → exec (.modinv rd rs1 rs2) s = .next (faulted 1 1 s)) ∧
    (0 < s.getX rs2 → Int.gcd (s.getX rs1) (s.getX rs2) = 1 →
      ∃ v, 0 ≤ v ∧ v < s.getX rs2 ∧ s.getX rs1 * v % s.getX rs2 = 1 % s.getX rs2 ∧
        exec (.modinv rd rs1 rs2) s = .next { wroteX rd v s with ni := false }) ∧
    (0 < s.getX rs2 → Int.gcd (s.getX rs1) (s.getX rs2) ≠ 1 →
      exec (.modinv rd rs1 rs2) s = .next { wroteX rd 0 s with ni := true })

/-- R152 (with R151): POWMOD, its encoding, its two faults in order, and its result, the exact power reduced. -/
def Obligations.PowmodWritesThePower : Prop :=
  ∀ (s : State) (rd rs1 rs2 rs3 : XReg), s.Inv →
    decode (commandWord 0x04 rd rs1 rs2 rs3 0) = some (.powmod rd rs1 rs2 rs3) ∧
    (s.getX rs3 ≤ 0 → exec (.powmod rd rs1 rs2 rs3) s = .next (faulted 1 1 s)) ∧
    (0 < s.getX rs3 → s.getX rs2 < 0 → exec (.powmod rd rs1 rs2 rs3) s = .next (faulted 1 2 s)) ∧
    (0 < s.getX rs3 → 0 ≤ s.getX rs2 →
      exec (.powmod rd rs1 rs2 rs3) s = .next (wroteX rd (s.getX rs1 ^ (s.getX rs2).toNat % s.getX rs3) s))

/-! ### the commands that draw -/

/-- R162 (with R160): SAMPLE, its encoding, its one fault, a value of `[low, high)` after exactly one draw; and every value of the range is written
for some answer of the source. -/
def Obligations.SampleWritesValueInRange : Prop :=
  ∀ (s : State) (rd rs1 rs2 : XReg), s.Inv →
    decode (commandWord 0x07 rd rs1 rs2 0 0) = some (.sample rd rs1 rs2) ∧
    (s.getX rs1 < 0 ∨ s.getX rs2 ≤ s.getX rs1 → exec (.sample rd rs1 rs2) s = .next (faulted 1 5 s)) ∧
    (0 ≤ s.getX rs1 → s.getX rs1 < s.getX rs2 →
      (∃ v, s.getX rs1 ≤ v ∧ v < s.getX rs2 ∧ exec (.sample rd rs1 rs2) s = .next (wroteX rd v (drawn 1 s))) ∧
      ∀ v rest, s.getX rs1 ≤ v → v < s.getX rs2 → s.env.source.answers = v :: rest →
        exec (.sample rd rs1 rs2) s = .next (wroteX rd v (drawn 1 s)))

/-- R168 (with R164, R165, R166): ISPRIME, its encoding, and its verdict on every integer, with the bases the test draws: no draw below 5 or for
an even number; otherwise 1 when five bases pass, 0 at the first base that does not. A listed answer in range is the base drawn. -/
def Obligations.IsprimeWritesTheVerdict : Prop :=
  ∀ (s : State) (rd rs1 : XReg), s.Inv →
    decode (commandWord 0x05 rd rs1 0 0 0) = some (.isprime rd rs1) ∧
    (s.getX rs1 < 2 → exec (.isprime rd rs1) s = .next (wroteX rd 0 s)) ∧
    (s.getX rs1 = 2 ∨ s.getX rs1 = 3 → exec (.isprime rd rs1) s = .next (wroteX rd 1 s)) ∧
    (4 ≤ s.getX rs1 → s.getX rs1 % 2 = 0 → exec (.isprime rd rs1) s = .next (wroteX rd 0 s)) ∧
    (5 ≤ s.getX rs1 → s.getX rs1 % 2 = 1 →
      ∃ bases : List Int, (∀ a ∈ bases, 2 ≤ a ∧ a ≤ s.getX rs1 - 2) ∧
        (∀ j v, j < bases.length → s.env.source.answers[j]? = some v → 2 ≤ v → v ≤ s.getX rs1 - 2 → bases[j]? = some v) ∧
        ((bases.length = 5 ∧ (∀ a ∈ bases, roundPasses (s.getX rs1) a) ∧
            exec (.isprime rd rs1) s = .next (wroteX rd 1 (drawn 5 s))) ∨
          (∃ passed last, bases = passed ++ [last] ∧ passed.length < 5 ∧ (∀ a ∈ passed, roundPasses (s.getX rs1) a) ∧
            ¬roundPasses (s.getX rs1) last ∧
            exec (.isprime rd rs1) s = .next (wroteX rd 0 (drawn bases.length s)))))

/-- ISPRIME writes 1 for every prime, whatever is drawn: the document's first test property (95_test_vectors.md S1), which 43_primality.md section 2
explains from general knowledge. -/
def Obligations.IsprimeAcceptsEveryPrime : Prop :=
  ∀ (s : State) (rd rs1 : XReg) (n : Nat), s.Inv → n.Prime → s.getX rs1 = n →
    exec (.isprime rd rs1) s = .next (wroteX rd 1 (drawn (if n < 5 then 0 else 5) s))

/-- R172: GENPRIME, its encoding, its two faults in order, and its search, which is the two nested loops of the rule. -/
def Obligations.GenprimeRunsTheNestedLoops : Prop :=
  ∀ (s : State) (rd rs1 : XReg), s.Inv →
    decode (commandWord 0x06 rd rs1 0 0 0) = some (.genprime rd rs1) ∧
    (s.getX rs1 < 8 ∨ s.getX rs1 % 8 ≠ 0 ∨ s.getX rs1 > (s.width : Int) - 8 →
      exec (.genprime rd rs1) s = .next (faulted 1 4 s)) ∧
    (8 ≤ s.getX rs1 → s.getX rs1 % 8 = 0 → s.getX rs1 ≤ (s.width : Int) - 8 →
      let max := s.env.params.maxPrimeProbes
      let r := outerLoop (s.getX rs1).toNat max (max + 1) 0 s.env.source
      (∀ c, r.1 = some c → exec (.genprime rd rs1) s = .next (wroteX rd c (s.setSource r.2))) ∧
      (r.1 = none → exec (.genprime rd rs1) s = .next (faulted 4 1 (s.setSource r.2))))

/-- What 43_primality.md section 3 says GENPRIME guarantees, marked as its own inference: when GENPRIME ends without fault, the result has exactly the wanted bits, is odd, and the last primality test, on it, returned `true`. -/
def Obligations.GenprimeResultHasWantedBits : Prop :=
  ∀ (s t : State) (rd rs1 : XReg), s.Inv → s.fault = false → exec (.genprime rd rs1) s = .next t → t.fault = false →
    2 ^ ((s.getX rs1).toNat - 1) ≤ t.getX rd ∧ t.getX rd < 2 ^ (s.getX rs1).toNat ∧ t.getX rd % 2 = 1 ∧
      ∃ g, isprimeOf (t.getX rd) g = (true, t.env.source)

/-- GENPRIME (R172) completes at its first candidate when that is a prime: six draws, the sample and five bases. That a prime passes whatever is
drawn is R167 (a), which 43_primality.md section 2 gives from general knowledge. -/
def Obligations.GenprimeCompletesAtFirstPrime : Prop :=
  ∀ (s : State) (rd rs1 : XReg) (tb c : Nat) (v : Int) (rest : List Int), s.Inv →
    s.getX rs1 = tb → 8 ≤ tb → tb % 8 = 0 → tb + 8 ≤ s.width →
    s.env.source.answers = v :: rest → 0 ≤ v → v < 2 ^ tb → c = v.toNat ||| 2 ^ (tb - 1) ||| 1 → c.Prime →
    exec (.genprime rd rs1) s = .next (wroteX rd c (drawn 6 s))

/-- R186 (with R187, R188): FINDGEN, its encoding, its faults in order, and its result: the first value of the cyclic sequence that starts
at the drawn candidate whose powers are distinct over the window. -/
def Obligations.FindgenFindsFirstCandidate : Prop :=
  ∀ (s : State) (rd rs1 : XReg), s.Inv →
    let pp := s.getX rs1
    let v := isprimeOf pp s.env.source
    let tries := s.env.params.maxGenTries
    decode (commandWord 0x08 rd rs1 0 0 0) = some (.findgen rd rs1) ∧
    (pp ≤ 2 → exec (.findgen rd rs1) s = .next (faulted 1 6 s)) ∧
    (2 < pp → v.1 = false → exec (.findgen rd rs1) s = .next (faulted 1 6 (s.setSource v.2))) ∧
    (2 < pp → v.1 = true →
      ∃ g0, 2 ≤ g0 ∧ g0 < pp ∧ (∀ a rest, v.2.answers = a :: rest → 2 ≤ a → a < pp → g0 = a) ∧
        (∀ n, n < tries → powersDistinct (candidateAt pp g0 n) pp (windowOf pp) →
          (∀ k < n, ¬powersDistinct (candidateAt pp g0 k) pp (windowOf pp)) →
          exec (.findgen rd rs1) s = .next (wroteX rd (candidateAt pp g0 n) (drawn 1 (s.setSource v.2)))) ∧
        ((∀ n, n < tries → ¬powersDistinct (candidateAt pp g0 n) pp (windowOf pp)) →
          exec (.findgen rd rs1) s = .next (faulted 4 2 (drawn 1 (s.setSource v.2)))))

/-- 44_generator.md says, from general knowledge, what FINDGEN guarantees: for a prime `pp ≤ 1000001` and at least `pp − 2` tries, FINDGEN ends without fault, whatever is drawn, and its result is a
primitive root: no smaller positive power of it is 1. -/
def Obligations.FindgenFindsPrimitiveRoot : Prop :=
  ∀ (s : State) (rd rs1 : XReg) (n : Nat), s.Inv → n.Prime → 3 ≤ n → n ≤ 1000001 → s.getX rs1 = n →
    n - 2 ≤ s.env.params.maxGenTries →
    ∃ g : Int, 2 ≤ g ∧ g < n ∧ (∀ k : Nat, 1 ≤ k → k < n - 1 → g ^ k % n ≠ 1) ∧
      exec (.findgen rd rs1) s = .next (wroteX rd g (drawn (if n < 5 then 1 else 6) s))

/-! ### the curve commands -/

/-- R196 (with R197): ECSET, its encoding, its two faults in order, which leave the curve as it was, and the curve it sets, not reduced. `v` is the
primality test's verdict with the draws it took. -/
def Obligations.EcsetSetsTheCurve : Prop :=
  ∀ (s : State) (rs1 rs2 rs3 : XReg), s.Inv →
    let v := isprimeOf (s.getX rs3) s.env.source
    decode (commandWord 0x10 0 rs1 rs2 rs3 0) = some (.ecset rs1 rs2 rs3) ∧
    (s.getX rs3 ≤ 3 → exec (.ecset rs1 rs2 rs3) s = .next (faulted 2 1 s)) ∧
    (3 < s.getX rs3 → v.1 = false → exec (.ecset rs1 rs2 rs3) s = .next (faulted 2 2 (s.setSource v.2))) ∧
    (3 < s.getX rs3 → v.1 = true → exec (.ecset rs1 rs2 rs3) s =
      .next (wroteCurve (s.getX rs1) (s.getX rs2) (s.getX rs3) (s.setSource v.2)))

/-- R198: ECSETNB, as ECSET with `b = 0` and no register read for it. -/
def Obligations.EcsetnbSetsTheCurve : Prop :=
  ∀ (s : State) (rs1 rs3 : XReg), s.Inv →
    let v := isprimeOf (s.getX rs3) s.env.source
    decode (commandWord 0x10 0 rs1 0 rs3 1) = some (.ecsetnb rs1 rs3) ∧
    (s.getX rs3 ≤ 3 → exec (.ecsetnb rs1 rs3) s = .next (faulted 2 1 s)) ∧
    (3 < s.getX rs3 → v.1 = false → exec (.ecsetnb rs1 rs3) s = .next (faulted 2 2 (s.setSource v.2))) ∧
    (3 < s.getX rs3 → v.1 = true → exec (.ecsetnb rs1 rs3) s =
      .next (wroteCurve (s.getX rs1) 0 (s.getX rs3) (s.setSource v.2)))

/-- A prime modulus above 3 is always accepted, whatever is drawn, after five draws: a consequence of the fact that 43_primality.md section 2 gives from
general knowledge, that a prime passes every round. -/
def Obligations.PrimeModulusSetsTheCurve : Prop :=
  ∀ (s : State) (rs1 rs2 rs3 : XReg) (n : Nat), s.Inv → n.Prime → 3 < n → s.getX rs3 = n →
    exec (.ecset rs1 rs2 rs3) s = .next (wroteCurve (s.getX rs1) (s.getX rs2) n (drawn 5 s)) ∧
    exec (.ecsetnb rs1 rs3) s = .next (wroteCurve (s.getX rs1) 0 n (drawn 5 s))

/-- R201 (with R199, R200): ECONCRV, its encoding, its one fault, and its verdict for whatever coordinates the register holds. -/
def Obligations.EconcrvWritesTheVerdict : Prop :=
  ∀ (s : State) (rd : XReg) (ps1 : PReg), s.Inv →
    decode (commandWord 0x11 rd ps1 0 0 0) = some (.econcrv rd ps1) ∧
    (s.cv = false → exec (.econcrv rd ps1) s = .next (faulted 7 0 s)) ∧
    (s.cv = true → s.getP ps1 = .inf → exec (.econcrv rd ps1) s = .next (wroteX rd 1 s)) ∧
    (∀ x y, s.cv = true → s.getP ps1 = .fin x y → satisfies s.curve x y →
      exec (.econcrv rd ps1) s = .next (wroteX rd 1 s)) ∧
    (∀ x y, s.cv = true → s.getP ps1 = .fin x y → ¬satisfies s.curve x y →
      exec (.econcrv rd ps1) s = .next (wroteX rd 0 s))

/-! ### the group law -/

/-- The sum of two points that passed the check, by the document's clauses (R212). An infinite operand gives the other; additive inverses give `Inf`;
otherwise, with `num` and `den` of the tangent or the chord, the fallback `(Inf, 1)` is taken exactly when `den` has no inverse modulo `p`,
and else the result is the formula's with the slope `sl`. That the branch for a result off the curve is never reached, over any modulus, is what
46_ec_group.md section 2 says of it from general knowledge: the model keeps the branch. -/
def Obligations.AdditionFollowsTheGroupLaw : Prop :=
  ∀ (c : Curve) (P Q : Point), 1 < c.p → usable c P → usable c Q →
    (P = .inf → ecAdd c P Q = (Q, false)) ∧ (Q = .inf → ecAdd c P Q = (P, false)) ∧
    ∀ xP yP xQ yQ, P = .fin xP yP → Q = .fin xQ yQ →
      (P ≠ Q → xP = xQ → (yP + yQ) % c.p = 0 → ecAdd c P Q = (.inf, false)) ∧
      (¬(P ≠ Q ∧ xP = xQ ∧ (yP + yQ) % c.p = 0) →
        let num := if P = Q then 3 * xP * xP + c.a else yQ - yP
        let den := if P = Q then 2 * yP else xQ - xP
        (Int.gcd den c.p ≠ 1 → ecAdd c P Q = (.inf, true)) ∧
        (Int.gcd den c.p = 1 → ∃ sl, 0 ≤ sl ∧ sl < c.p ∧ sl * den % c.p = num % c.p ∧
          let xR := (sl * sl - xP - xQ) % c.p
          ecAdd c P Q = (.fin xR ((sl * (xP - xR) - yP) % c.p), false)))

/-- Over a prime modulus above 2, the fallback is reached only by doubling a point with `y = 0`: 46_ec_group.md section 2 states it from general
knowledge. -/
def Obligations.FallbackOnlyAtDoublingZeroY : Prop :=
  ∀ (c : Curve) (P Q : Point) (n : Nat), n.Prime → 2 < n → c.p = n → usable c P → usable c Q →
    ((ecAdd c P Q).2 = true ↔ ∃ x, P = .fin x 0 ∧ Q = .fin x 0)

/-- Closure, the neutral element, mirror points, and commutativity of the group law, for points that passed the check on a modulus as `CV = 1` leaves
it. 46_ec_group.md section 2 states these properties and marks them as its own inference from the group law. -/
def Obligations.AdditionLaws : Prop :=
  ∀ (c : Curve) (P Q : Point), 3 < c.p → c.p % 2 = 1 → usable c P → usable c Q →
    usable c (ecAdd c P Q).1 ∧ ecAdd c P .inf = (P, false) ∧ ecAdd c .inf .inf = (.inf, false) ∧
    (∀ x y, P = .fin x y → y ≠ 0 → ecAdd c P (.fin x (-y % c.p)) = (.inf, false)) ∧
    ecAdd c P Q = ecAdd c Q P

/-- R215 (with R28, R199, R211): ECADD, its encoding, its faults in order, and the point and `FB` it writes. -/
def Obligations.EcaddWritesTheSum : Prop :=
  ∀ (s : State) (pd ps1 ps2 : PReg), s.Inv →
    let P := s.getP ps1
    let Q := s.getP ps2
    let c := s.curve
    decode (commandWord 0x12 pd ps1 ps2 0 0) = some (.ecadd pd ps1 ps2) ∧
    (s.cv = false → exec (.ecadd pd ps1 ps2) s = .next (faulted 7 0 s)) ∧
    (s.cv = true → outOfRange c P → exec (.ecadd pd ps1 ps2) s = .next (faulted 3 0x11 s)) ∧
    (s.cv = true → ¬outOfRange c P → offCurve c P → exec (.ecadd pd ps1 ps2) s = .next (faulted 3 1 s)) ∧
    (s.cv = true → usable c P → outOfRange c Q → exec (.ecadd pd ps1 ps2) s = .next (faulted 3 0x12 s)) ∧
    (s.cv = true → usable c P → ¬outOfRange c Q → offCurve c Q →
      exec (.ecadd pd ps1 ps2) s = .next (faulted 3 2 s)) ∧
    (s.cv = true → usable c P → usable c Q →
      exec (.ecadd pd ps1 ps2) s = .next (wroteP pd (ecAdd c P Q) s))

/-- R218: ECDBL, its encoding, its faults in order, and the double it writes. -/
def Obligations.EcdblWritesTheDouble : Prop :=
  ∀ (s : State) (pd ps1 : PReg), s.Inv →
    let P := s.getP ps1
    let c := s.curve
    decode (commandWord 0x13 pd ps1 0 0 0) = some (.ecdbl pd ps1) ∧
    (s.cv = false → exec (.ecdbl pd ps1) s = .next (faulted 7 0 s)) ∧
    (s.cv = true → outOfRange c P → exec (.ecdbl pd ps1) s = .next (faulted 3 0x11 s)) ∧
    (s.cv = true → ¬outOfRange c P → offCurve c P → exec (.ecdbl pd ps1) s = .next (faulted 3 1 s)) ∧
    (s.cv = true → usable c P → exec (.ecdbl pd ps1) s = .next (wroteP pd (ecAdd c P P) s))

/-- ECDBL is ECADD of the point with itself in every case: 46_ec_group.md section 4 states it and marks it as its own inference. -/
def Obligations.DoublingIsAddingToItself : Prop :=
  ∀ (s : State) (pd ps1 : PReg), exec (.ecdbl pd ps1) s = exec (.ecadd pd ps1 ps1) s

/-- The loop of R222, turn by turn: `ec_smul` is double-and-add: `Inf` at 0, `G` at 1, and from `k` to `2k + bit` a doubling and, for the bit 1, an addition of `G`, the
fallback bits gathered. -/
def Obligations.ScalarMultipleDoublesAndAdds : Prop :=
  ∀ (c : Curve) (G : Point),
    ecSmul c 0 G = (.inf, false) ∧ ecSmul c 1 G = (G, false) ∧
    ∀ k : Int, 1 ≤ k →
      let r := ecSmul c k G
      let d := ecAdd c r.1 r.1
      let a := ecAdd c d.1 G
      ecSmul c (2 * k) G = (d.1, r.2 || d.2) ∧ ecSmul c (2 * k + 1) G = (a.1, r.2 || d.2 || a.2)

/-- R223: ECSMUL, its encoding, its faults in order (the point is checked for every scalar), and the point and `FB` it writes. -/
def Obligations.EcsmulWritesTheMultiple : Prop :=
  ∀ (s : State) (pd : PReg) (rs1 : XReg) (ps2 : PReg), s.Inv →
    let k := s.getX rs1
    let G := s.getP ps2
    let c := s.curve
    decode (commandWord 0x14 pd rs1 ps2 0 0) = some (.ecsmul pd rs1 ps2) ∧
    (s.cv = false → exec (.ecsmul pd rs1 ps2) s = .next (faulted 7 0 s)) ∧
    (s.cv = true → k < 0 → exec (.ecsmul pd rs1 ps2) s = .next (faulted 1 7 s)) ∧
    (s.cv = true → 0 ≤ k → outOfRange c G → exec (.ecsmul pd rs1 ps2) s = .next (faulted 3 0x12 s)) ∧
    (s.cv = true → 0 ≤ k → ¬outOfRange c G → offCurve c G →
      exec (.ecsmul pd rs1 ps2) s = .next (faulted 3 2 s)) ∧
    (s.cv = true → 0 ≤ k → usable c G →
      exec (.ecsmul pd rs1 ps2) s = .next (wroteP pd (ecSmul c k G) s))

/-- R236 (with R48, R49, R102): ECENUM, its encoding, its faults in order, and what it writes: the list into the first entries of `EBUF`, every other entry
as before, `ECNT` and `x[rd]` its length, at most `EBUF_DEPTH`. -/
def Obligations.EcenumFillsTheBuffer : Prop :=
  ∀ (s : State) (rd : XReg), s.Inv →
    let l := ecPoints s.curve
    decode (commandWord 0x15 rd 0 0 0 0) = some (.ecenum rd) ∧
    (s.env.params.hasEnum = false → exec (.ecenum rd) s = .next (faulted 5 0 s)) ∧
    (s.env.params.hasEnum = true → s.cv = false → exec (.ecenum rd) s = .next (faulted 7 0 s)) ∧
    (s.env.params.hasEnum = true → s.cv = true → (s.env.params.enumMaxP : Int) < s.cp →
      exec (.ecenum rd) s = .next (faulted 1 8 s)) ∧
    (s.env.params.hasEnum = true → s.cv = true → s.cp ≤ (s.env.params.enumMaxP : Int) →
      l.length ≤ s.env.params.ebufDepth ∧
      ∃ m : Memory, m.wf = true ∧
        (∀ j, m.read j = if h : j < l.length then l[j] else s.ebuf.read j) ∧
        exec (.ecenum rd) s =
          .next { wroteX rd (l.length : Int) s with ebuf := m, ecnt := BitVec.ofNat 64 l.length })

/-- R237: for every modulus above 1, a composite one that passed the test too, the list is the concatenation over `x` ascending of `(x, 0)` alone when
the right-hand side is 0, of `(x, y)` and `(x, p − y)` for the least root `y`, and of nothing when there is no root. Over an odd prime
(47_ec_enum.md, from general knowledge) it holds exactly the canonical finite points of the curve, `x` ascending and within one `x` the smaller
`y` first (so no point twice). -/
def Obligations.EnumerationIsTheCurve : Prop :=
  ∀ c : Curve, 1 < c.p →
    (∃ pointsOf : Int → List Entry, ecPoints c = (List.range c.p.toNat).flatMap (fun x : Nat => pointsOf x) ∧
      ∀ x, 0 ≤ x → x < c.p →
        let r := (x * x * x + c.a * x + c.b) % c.p
        (r = 0 → pointsOf x = [(x, 0)]) ∧
        (r ≠ 0 → ∀ y, isLeastRoot c.p r y → pointsOf x = [(x, y), (x, c.p - y)]) ∧
        (r ≠ 0 → (∀ y, 1 ≤ y → y < c.p → y * y % c.p ≠ r) → pointsOf x = [])) ∧
    ∀ n : Nat, n.Prime → 2 < n → c.p = n →
      (∀ x y, (x, y) ∈ ecPoints c ↔ 0 ≤ x ∧ x < c.p ∧ 0 ≤ y ∧ y < c.p ∧ satisfies c x y) ∧
      (ecPoints c).Pairwise fun e f => e.1 < f.1 ∨ (e.1 = f.1 ∧ e.2 < f.2)

/-! ### rules over all commands -/

/-- R252 (and the pairs of R247): a command that ends with a fault has changed `CAUSE`, `FINFO`, `FAULT`, `DONE` and `BUSY` and nothing else (draws taken are not
given back), and its `(cause, sub)` pair is one of the table of R247. -/
def Obligations.FaultsArePrecise : Prop :=
  ∀ (s t : State) (i : Instr), s.fault = false → exec i s = .next t → t.fault = true →
    (t.cause, t.sub) ∈ faultPairs ∧ t = faulted t.cause t.sub (s.setSource t.env.source)

/-- What a command leaves unchanged: every integer and point register but its destination; `IR`, `IE`, `ESEL` and the
inputs; `NI` but for MODINV, the curve and `CV` but for ECSET and ECSETNB, `FB` but for ECADD, ECDBL and ECSMUL, `ECNT` and every entry of
`EBUF` but for ECENUM (R31, R32, R48, R49; the table of 30_encoding.md section 2, which the spec marks as its own inference). -/
def Obligations.CommandsWriteOnlyTheirResults : Prop :=
  ∀ (s t : State) (i : Instr), exec i s = .next t →
    (∀ r, destX i ≠ some r → t.getX r = s.getX r) ∧ (∀ r, destP i ≠ some r → t.getPReg r = s.getPReg r) ∧
    t.ir = s.ir ∧ t.doneIe = s.doneIe ∧ t.faultIe = s.faultIe ∧ t.esel = s.esel ∧
    t.env.params = s.env.params ∧ t.env.port = s.env.port ∧ t.env.response = s.env.response ∧
    ((∀ rd rs1 rs2, i ≠ .modinv rd rs1 rs2) → t.ni = s.ni) ∧
    ((∀ rs1 rs2 rs3, i ≠ .ecset rs1 rs2 rs3) → (∀ rs1 rs3, i ≠ .ecsetnb rs1 rs3) →
      t.ca = s.ca ∧ t.cb = s.cb ∧ t.cp = s.cp ∧ t.cv = s.cv) ∧
    (destP i = none → t.fb = s.fb) ∧
    ((∀ rd, i ≠ .ecenum rd) → t.ecnt = s.ecnt ∧ ∀ j, t.ebuf.read j = s.ebuf.read j)

/-- 70_reset_and_hazards.md section 3, marked as the spec's inference: the nine commands that take no draw are functions of the state alone: the source is neither read nor changed. -/
def Obligations.DrawlessCommandsIgnoreTheSource : Prop :=
  ∀ (s t : State) (i : Instr) (g : Source), draws i = false → exec i s = .next t →
    t.env.source = s.env.source ∧ exec i (s.setSource g) = .next (t.setSource g)

/-- Every value a command writes to an integer register or to a point coordinate is non-negative (10_state.md section 2, marked as the spec's
inference): an integer register that changes, the destination of a command that ends without fault, changed or not, and from a state
that meets the invariant both coordinates of a destination point. The curve registers are not among them: ECSET stores a negative `a` or `b` as
given (R196). -/
def Obligations.ResultsAreNonNegative : Prop :=
  ∀ (s t : State) (i : Instr), exec i s = .next t →
    (∀ r, t.getX r ≠ s.getX r → 0 ≤ t.getX r) ∧
    (∀ r, destX i = some r → s.fault = false → t.fault = false → 0 ≤ t.getX r) ∧
    (∀ r, destP i = some r → s.Inv → s.fault = false → t.fault = false →
      0 ≤ (t.getPReg r).x ∧ 0 ≤ (t.getPReg r).y)

/-- R251: `E_RANGE` is raised only by GCD with `a = −2^(W−1)` and `b = 0`. -/
def Obligations.RangeFaultOnlyFromGcd : Prop :=
  ∀ (s t : State) (i : Instr), s.Inv → s.fault = false → exec i s = .next t → t.cause = 6 →
    ∃ rd rs1 rs2, i = .gcd rd rs1 rs2 ∧ s.getX rs1 = -2 ^ (s.width - 1) ∧ s.getX rs2 = 0

/-- Every point a command writes is `Inf` with zero coordinates, or a canonical point (R28, a sentence the spec marks as its own inference, and R210) that
is on the curve in force: what 46_ec_group.md section 2 gives by the last check of R212 and by R214. -/
def Obligations.CommandsWriteOnlyCurvePoints : Prop :=
  ∀ (s t : State) (i : Instr) (r : PReg), s.Inv → exec i s = .next t → t.getPReg r ≠ s.getPReg r →
    t.getPReg r = ⟨true, 0, 0⟩ ∨ ((t.getPReg r).inf = false ∧ usable t.curve (t.getP r))

/-- R32, R37: `CV` is cleared by nothing but reset. -/
def Obligations.CurveFlagClearedOnlyByReset : Prop :=
  ∀ s t : State, s.cv = true → step s = .next t → (∀ rest, s.env.port ≠ .reset :: rest) → t.cv = true

/-- R255, R92: while `FAULT = 1`, no transition but reset and the write of R254 to `STATUS` changes `FAULT`, `CAUSE`, `FINFO` or `IR`, and none starts a
command. -/
def Obligations.FaultIsSticky : Prop :=
  ∀ s t : State, s.Inv → s.fault = true → step s = .next t →
    (∀ rest, s.env.port ≠ .reset :: rest) →
    (∀ v rest, s.env.port = .write (s.env.params.nteBase + 0x018) 8 v :: rest → v.getLsbD 2 = false) →
    t.fault = true ∧ t.cause = s.cause ∧ t.sub = s.sub ∧ t.ir = s.ir ∧ t.busy = false

/-- R264, R68: of a command in flight a host sees nothing of the wide registers: two states that agree on the control registers, both with
`BUSY = 1`, give the same response to every read. -/
def Obligations.InFlightReadsShowNoOperand : Prop :=
  ∀ (s t : State) (addr size : Nat), s.busy = true → t.busy = true → s.ir = t.ir → s.done = t.done → s.fault = t.fault →
    s.ni = t.ni → s.cv = t.cv → s.fb = t.fb → s.cause = t.cause → s.sub = t.sub → s.doneIe = t.doneIe →
    s.faultIe = t.faultIe → s.esel = t.esel → s.ecnt = t.ecnt → (∀ i, (s.getPReg i).inf = (t.getPReg i).inf) →
    s.env.params = t.env.params →
    (hostRead s addr size).env.response = (hostRead t addr size).env.response

/-! ### the register window -/

/-- R92: a `CMD` write is accepted exactly when `BUSY = 0` and `FAULT = 0`, whatever the word is, and then changes `IR`, `BUSY` and `DONE` only. -/
def Obligations.CmdWriteIsAcceptedWhenIdle : Prop :=
  ∀ (s : State) (w : Word),
    (s.busy = false → s.fault = false → memWrite s 0x010 8 w = some { s with ir := w, busy := true, done := false }) ∧
    (s.busy = true ∨ s.fault = true → memWrite s 0x010 8 w = none)

/-- R254: a write to `STATUS` with bit 2 set clears `FAULT`, `CAUSE` and `FINFO`, with bit 1 set `DONE`; other bits are ignored; it is accepted at any
time, and with `FAULT = 0` its bit 2 does nothing. -/
def Obligations.StatusWriteClearsTheFault : Prop :=
  ∀ (s : State) (v : Word),
    (v.getLsbD 2 = true → s.fault = true → memWrite s 0x018 8 v =
      some { s with fault := false, cause := 0, sub := 0, done := s.done && !v.getLsbD 1 }) ∧
    (v.getLsbD 2 = false ∨ s.fault = false → memWrite s 0x018 8 v = some { s with done := s.done && !v.getLsbD 1 })

/-- R41, R42, R46, R48: what a read of `STATUS`, `FINFO`, `CMD` and `ECNT` shows, at any time: the fields of `STATUS` at their bits, with the invariants
between them; `SUB` in `FINFO`, which is 0 while `FAULT = 0`; `IR`; the count of the last ECENUM. -/
def Obligations.StatusReadsItsFields : Prop :=
  ∀ s : State, s.Inv →
    (∃ w : Word, memRead s 0x018 8 = some w ∧
      w.getLsbD 0 = s.busy ∧ w.getLsbD 1 = s.done ∧ w.getLsbD 2 = s.fault ∧ w.getLsbD 3 = s.ni ∧ w.getLsbD 4 = s.cv ∧
      w.getLsbD 5 = s.fb ∧ w.extractLsb' 6 2 = 0 ∧ w.extractLsb' 8 8 = s.cause ∧ w.extractLsb' 16 48 = 0 ∧
      (w.extractLsb' 8 8).toNat ≤ 7 ∧ (w.getLsbD 0 = true → w.getLsbD 1 = false ∧ w.getLsbD 2 = false) ∧
      (w.extractLsb' 8 8 ≠ 0 ↔ w.getLsbD 2 = true)) ∧
    (∃ w : Word, memRead s 0x028 8 = some w ∧ w.extractLsb' 0 8 = s.sub ∧ w.extractLsb' 8 56 = 0 ∧ (s.fault = false → w = 0)) ∧
    memRead s 0x010 8 = some s.ir ∧ memRead s 0x058 8 = some s.ecnt

/-- R26: `PTAG[i]` is read at any time, written only while `BUSY = 0`, through its bit 0 alone. -/
def Obligations.PtagReadAndWrite : Prop :=
  ∀ (s : State) (i : PReg) (v : Word),
    (∃ w, memRead s (0x080 + 8 * i.val) 8 = some w ∧ w.getLsbD 0 = (s.getPReg i).inf ∧ w.extractLsb' 1 63 = 0) ∧
    (s.busy = true → memWrite s (0x080 + 8 * i.val) 8 v = none) ∧
    (s.busy = false → memWrite s (0x080 + 8 * i.val) 8 v =
      some { s with p := s.p.set i ⟨v.getLsbD 0, (s.getPReg i).x, (s.getPReg i).y⟩ })

/-- R43, R52: `IE` keeps bits 0 and 1 of what is written, at any time, reads 0 elsewhere, and gates the interrupt line
`irq = (DONE and DONE_IE) or (FAULT and FAULT_IE)`. -/
def Obligations.IeGatesTheInterruptLine : Prop :=
  ∀ (s : State) (v : Word), ∃ t, memWrite s 0x020 8 v = some t ∧ t = { s with doneIe := v.getLsbD 0, faultIe := v.getLsbD 1 } ∧
    memRead t 0x020 8 = some (v &&& 3) ∧
    (t.irq = true ↔ (s.done = true ∧ v.getLsbD 0 = true) ∨ (s.fault = true ∧ v.getLsbD 1 = true))

/-- R47 (with R65): `ESEL` is written only while `BUSY = 0` and only below `EBUF_DEPTH`, read at any time, and selects the entry that `EX` and `EY` show. -/
def Obligations.EselSelectsTheEntry : Prop :=
  ∀ (s : State) (v : Word) (j : Nat), s.env.params.wf = true → j < s.env.params.limbs →
    memRead s 0x050 8 = some s.esel ∧
    (s.busy = true ∨ s.env.params.ebufDepth ≤ v.toNat → memWrite s 0x050 8 v = none) ∧
    (s.busy = false → v.toNat < s.env.params.ebufDepth →
      memWrite s 0x050 8 v = some { s with esel := v } ∧
      memRead { s with esel := v } (0x40000 + 8 * j) 8 = some (limbOf s.width (s.ebuf.read v.toNat).1 j) ∧
      memRead { s with esel := v } (0x41000 + 8 * j) 8 = some (limbOf s.width (s.ebuf.read v.toNat).2 j))

/-- R38, R44, R45: the constants a read shows, at any time; no write of them is accepted. -/
def Obligations.ConstantsReadTheParameters : Prop :=
  ∀ s : State, s.env.params.wf = true →
    memRead s 0x000 8 = some 0x4E54453100000001 ∧
    (∃ w, memRead s 0x008 8 = some w ∧ (w.extractLsb' 0 16).toNat = s.env.params.width ∧ w.extractLsb' 16 8 = 5 ∧
      w.getLsbD 24 = s.env.params.hasEnum ∧ w.extractLsb' 25 3 = 0 ∧ w.extractLsb' 28 4 = 4 ∧ w.extractLsb' 32 8 = 16 ∧
      w.extractLsb' 40 24 = 0) ∧
    memRead s 0x030 8 = some 1000000 ∧
    (∃ w, memRead s 0x038 8 = some w ∧ w.toNat = s.env.params.maxPrimeProbes) ∧
    (∃ w, memRead s 0x040 8 = some w ∧ w.toNat = s.env.params.maxGenTries) ∧
    (∃ w, memRead s 0x048 8 = some w ∧ w.toNat = s.env.params.enumMaxP) ∧
    ∀ off ∈ [0x000, 0x008, 0x030, 0x038, 0x040, 0x048], ∀ v, memWrite s off 8 v = none

/-- R62, R68, R70, R71, R64, R65: the reads that are accepted, and no others: 8 bytes at a control register of the table at any time, and while
`BUSY = 0` at an existing limb of a mapped slot. -/
def Obligations.ReadsAcceptedExactly : Prop :=
  ∀ (s : State) (off size : Nat), s.env.params.wf = true →
    ((memRead s off size).isSome = true ↔ size = 8 ∧
      (off ∈ [0x000, 0x008, 0x010, 0x018, 0x020, 0x028, 0x030, 0x038, 0x040, 0x048, 0x050, 0x058, 0x080, 0x088, 0x090, 0x098] ∨
        (s.busy = false ∧ ∃ slot j, j < s.env.params.limbs ∧ off = 0x10000 + slot * 0x1000 + 8 * j ∧
          (slot ≤ 18 ∨ (32 ≤ slot ∧ slot ≤ 39) ∨ (s.env.params.hasEnum = true ∧ (slot = 48 ∨ slot = 49))))))

/-- R295 (b), R64, R65, R68, R29: the writes that are accepted, and no others, and that each changes exactly the register addressed: so no write
reaches the curve, `EBUF`, `ECNT`, `NI`, `CV`, `FB` or a constant. `putLimb` is the write of one limb (R66). -/
def Obligations.WritesAcceptedExactly : Prop :=
  ∀ (s t : State) (off size : Nat) (v : Word), s.env.params.wf = true →
    (memWrite s off size v = some t ↔ size = 8 ∧
      ((off = 0x010 ∧ s.busy = false ∧ s.fault = false ∧ t = { s with ir := v, busy := true, done := false }) ∨
        (off = 0x018 ∧ t = writeStatus v s) ∨
        (off = 0x020 ∧ t = { s with doneIe := v.getLsbD 0, faultIe := v.getLsbD 1 }) ∨
        (off = 0x050 ∧ s.busy = false ∧ v.toNat < s.env.params.ebufDepth ∧ t = { s with esel := v }) ∨
        (∃ i : PReg, off = 0x080 + 8 * i.val ∧ s.busy = false ∧
          t = { s with p := s.p.set i { s.getPReg i with inf := v.getLsbD 0 } }) ∨
        (∃ (i : XReg) (j : Nat), off = 0x10000 + i.val * 0x1000 + 8 * j ∧ j < s.env.params.limbs ∧ s.busy = false ∧
          t = { s with x := s.x.set i (putLimb s.width (s.getX i) j v) }) ∨
        (∃ (i : PReg) (j : Nat), off = 0x30000 + i.val * 0x2000 + 8 * j ∧ j < s.env.params.limbs ∧ s.busy = false ∧
          t = { s with p := s.p.set i { s.getPReg i with x := putLimb s.width (s.getPReg i).x j v } }) ∨
        (∃ (i : PReg) (j : Nat), off = 0x31000 + i.val * 0x2000 + 8 * j ∧ j < s.env.params.limbs ∧ s.busy = false ∧
          t = { s with p := s.p.set i { s.getPReg i with y := putLimb s.width (s.getPReg i).y j v } })))

/-- R66 (with R65): after the host writes `d` to limb `j` of `x[i]`, `PX[i]` or `PY[i]`, limb `j` reads `d` and every other limb of it reads as before. -/
def Obligations.LimbWriteReadsBack : Prop :=
  ∀ (s t : State) (off j k : Nat) (d : Word), s.env.params.wf = true → s.busy = false →
    ((∃ i : XReg, off = 0x10000 + i.val * 0x1000) ∨ (∃ i : PReg, off = 0x30000 + i.val * 0x2000) ∨
      (∃ i : PReg, off = 0x31000 + i.val * 0x2000)) →
    j < s.env.params.limbs → k < s.env.params.limbs → memWrite s (off + 8 * j) 8 d = some t →
    memRead t (off + 8 * k) 8 = if k = j then some d else memRead s (off + 8 * k) 8

/-- R66, R22 (with R65): limb `j` of a wide register reads bits `64·j + 63 : 64·j` of the two's-complement form of the integer it holds. So for every
wide register of the window at its slot: `x[i]`, `CA`, `CB`, `CP`, `PX[i]`, `PY[i]`, and, when `HAS_ENUM = 1`, `EX` and `EY`, the two
parts of `EBUF[ESEL]`. -/
def Obligations.LimbReadsTwosComplement : Prop :=
  ∀ s : State, s.Inv → s.busy = false →
    (∀ i : XReg, slotShows s (0x10000 + i.val * 0x1000) (s.getX i)) ∧
    slotShows s 0x20000 s.ca ∧ slotShows s 0x21000 s.cb ∧ slotShows s 0x22000 s.cp ∧
    (∀ i : PReg, slotShows s (0x30000 + i.val * 0x2000) (s.getPReg i).x ∧
      slotShows s (0x31000 + i.val * 0x2000) (s.getPReg i).y) ∧
    (s.env.params.hasEnum = true →
      slotShows s 0x40000 (s.ebuf.read s.esel.toNat).1 ∧ slotShows s 0x41000 (s.ebuf.read s.esel.toNat).2)

/-- R295 (a), (b), R63, R73: a port access is what `MemRead` and `MemWrite` say of its offset. A read, accepted or refused, and a refused write change
no state of the engine: only the response (log 5) tells that they happened. An accepted write makes the state the window's write gives,
with the response `done`. -/
def Obligations.RefusedAccessChangesNothing : Prop :=
  ∀ (s : State) (off size : Nat) (v : Word) (rest : List PortEvent), off < 0x50000 →
    let a := s.env.params.nteBase + off
    let answered (t : State) (r : Response) : State := { t with env := { t.env with port := rest, response := some r } }
    (s.env.port = .read a size :: rest → step s = .next (answered s
        (match memRead s off size with | some d => .data d | none => .busError))) ∧
    (s.env.port = .write a size v :: rest →
      (memWrite s off size v = none → step s = .next (answered s .busError)) ∧
      ∀ t, memWrite s off size v = some t → step s = .next (answered t .done))

end
end

