-- ==== Sys2Proof/Laws/Arith.lean ====
section
/-! SUPPORT. What the arithmetic primitives compute: one specification lemma for each, cited instead of unfolding the loops. -/

namespace Sys2Proof.Machine

/-! ### mod, div, odd -/

theorem imod_nonneg (v : Int) {m : Int} (h : 0 < m) : 0 ≤ imod v m := Int.emod_nonneg v h.ne'

theorem imod_lt (v : Int) {m : Int} (h : 0 < m) : imod v m < m := Int.emod_lt_of_pos v h

theorem imod_eq_self {v m : Int} (h0 : 0 ≤ v) (h1 : v < m) : imod v m = v := Int.emod_eq_of_lt h0 h1

theorem isOdd_iff (v : Int) : isOdd v = true ↔ v % 2 = 1 := by simp [isOdd]

theorem isOdd_false_iff (v : Int) : isOdd v = false ↔ v % 2 = 0 := by
  simp [isOdd]

/-! ### bitlen, or -/

theorem bitlen_of_nonpos {v : Int} (h : v ≤ 0) : bitlen v = 0 := by simp [bitlen, h]

/-- `bitlen(v)` is the unique `n ≥ 1` with `2^(n−1) ≤ v < 2^n` (R11). -/
theorem bitlen_eq_iff {v : Int} {n : Nat} (hn : 1 ≤ n) : bitlen v = n ↔ 2 ^ (n - 1) ≤ v ∧ v < 2 ^ n := by
  obtain ⟨n, rfl⟩ : ∃ k, n = k + 1 := ⟨n - 1, by omega⟩
  unfold bitlen
  split
  case isTrue h =>
    have : (0 : Int) < 2 ^ n := by positivity
    constructor
    · intro hc; omega
    · rintro ⟨h1, -⟩; simp at h1; omega
  case isFalse h =>
    obtain ⟨k, rfl⟩ := Int.eq_ofNat_of_zero_le (by omega : 0 ≤ v)
    have hk : k ≠ 0 := by rintro rfl; simp at h
    simp only [Int.toNat_natCast, Nat.add_right_cancel_iff, Nat.add_sub_cancel]
    rw [Nat.log2_eq_iff hk]
    norm_cast

theorem bitlen_le_iff {v : Int} {n : Nat} : bitlen v ≤ n ↔ v < 2 ^ n := by
  unfold bitlen
  split
  case isTrue h =>
    have : (0 : Int) < 2 ^ n := by positivity
    constructor <;> intro <;> omega
  case isFalse h =>
    obtain ⟨k, rfl⟩ := Int.eq_ofNat_of_zero_le (by omega : 0 ≤ v)
    have hk : k ≠ 0 := by rintro rfl; simp at h
    simp only [Int.toNat_natCast, Nat.succ_le_iff]
    rw [Nat.log2_lt hk]
    norm_cast

theorem ior_nonneg (v w : Int) : 0 ≤ ior v w := by simp [ior]

theorem le_ior_right (v : Int) {w : Int} (h : 0 ≤ w) : w ≤ ior v w := by
  have := Nat.right_le_or (n := v.toNat) (m := w.toNat)
  unfold ior; omega

theorem le_ior_left {v : Int} (w : Int) (h : 0 ≤ v) : v ≤ ior v w := by
  have := Nat.left_le_or (n := v.toNat) (m := w.toNat)
  unfold ior; omega

theorem ior_lt {v w : Int} {n : Nat} (hv : v < 2 ^ n) (hw : w < 2 ^ n) : ior v w < 2 ^ n := by
  have h1 : v.toNat < 2 ^ n := by
    rw [Int.toNat_lt' (by positivity)]; exact_mod_cast hv
  have h2 : w.toNat < 2 ^ n := by
    rw [Int.toNat_lt' (by positivity)]; exact_mod_cast hw
  have := Nat.or_lt_two_pow h1 h2
  unfold ior; exact_mod_cast this

theorem ior_one_odd (v : Int) : ior v 1 % 2 = 1 := by
  unfold ior
  have : (v.toNat ||| 1) % 2 = 1 := by
    rw [Nat.or_mod_two_eq_one]; simp
  simp only [Int.toNat_one]; omega

/-! ### gcd -/

theorem gcdLoop_eq (n : Nat) (u v : Int) (hv : 0 ≤ v) (hu : 0 ≤ u) (hn : v.toNat < n) :
    gcdLoop n u v = Int.gcd u v := by
  induction n generalizing u v with
  | zero => omega
  | succ n ih =>
    simp only [gcdLoop]
    split
    case isTrue h => subst h; simp [abs_of_nonneg hu]
    case isFalse h =>
      have hpos : 0 < v := by omega
      have := imod_lt u hpos
      have h0 := imod_nonneg u hpos
      rw [ih v (imod u v) h0 hv (by omega), Int.gcd_comm, Int.gcd_emod]

/-- The value of Euclid's loop (R136): the non-negative greatest common divisor. -/
theorem gcdOf_eq_gcd (a : Int) {b : Int} (hb : 0 ≤ b) : gcdOf a b = Int.gcd a b := by
  unfold gcdOf
  rw [gcdLoop_eq _ _ _ hb (by positivity) (by omega)]
  simp only [Int.gcd, Int.natAbs_natCast]

/-! ### inv -/

/-- The invariant of the extended Euclidean loop (R139): `t_i · a ≡ r_i (mod m)`, and the gcd of the remainders stays. -/
theorem invLoop_spec (m a : Int) (n : Nat) (r0 r1 t0 t1 : Int) (h0 : 0 ≤ r0) (h1 : 0 ≤ r1) (hn : r1.toNat < n)
    (e0 : t0 * a ≡ r0 [ZMOD m]) (e1 : t1 * a ≡ r1 [ZMOD m]) :
    (invLoop n r0 r1 t0 t1).1 = Int.gcd r0 r1 ∧
      (invLoop n r0 r1 t0 t1).2 * a ≡ (invLoop n r0 r1 t0 t1).1 [ZMOD m] := by
  induction n generalizing r0 r1 t0 t1 with
  | zero => omega
  | succ n ih =>
    simp only [invLoop]
    split
    case isTrue h => subst h; exact ⟨by simp [abs_of_nonneg h0], e0⟩
    case isFalse h =>
      have hpos : 0 < r1 := by omega
      have hr : r0 - idiv r0 r1 * r1 = imod r0 r1 := by
        have := Int.emod_add_mul_ediv r0 r1
        have : r0 / r1 * r1 = r1 * (r0 / r1) := mul_comm _ _
        simp only [idiv, imod]; omega
      have hlt := imod_lt r0 hpos
      have hge := imod_nonneg r0 hpos
      have e2 : (t0 - idiv r0 r1 * t1) * a ≡ r0 - idiv r0 r1 * r1 [ZMOD m] := by
        have := e0.sub (e1.mul_left (idiv r0 r1))
        rw [sub_mul, mul_assoc]; exact this
      have := ih r1 (r0 - idiv r0 r1 * r1) t1 _ h1 (by omega) (by omega) e1 e2
      rw [hr] at this ⊢
      refine ⟨this.1.trans ?_, this.2⟩
      rw [Int.gcd_comm, Int.gcd_emod]

/-- With an inverse (R139): `invOf a m` is the value of `[0, m)` that times `a` is 1 modulo `m`. -/
theorem invOf_of_gcd_eq_one {a m : Int} (hm : 0 < m) (h : Int.gcd a m = 1) :
    ∃ v, invOf a m = some v ∧ 0 ≤ v ∧ v < m ∧ imod (a * v) m = imod 1 m := by
  obtain ⟨hg, he⟩ := invLoop_spec m a (m.toNat + 1) m (imod a m) 0 1 hm.le (imod_nonneg a hm)
    (by have := imod_lt a hm; omega) (by simp [Int.modEq_iff_dvd]) (by simpa using (Int.mod_modEq a m).symm)
  rw [Int.gcd_comm, Int.gcd_emod, h] at hg
  refine ⟨_, by simp [invOf, hg]; rfl, imod_nonneg _ hm, imod_lt _ hm, ?_⟩
  rw [hg] at he
  have : a * imod (invLoop (m.toNat + 1) m (imod a m) 0 1).2 m ≡ 1 [ZMOD m] := by
    rw [mul_comm]; exact ((Int.mod_modEq _ m).mul_right a).trans he
  exact this

/-- Without an inverse (R139, R140). -/
theorem invOf_of_gcd_ne_one {a m : Int} (hm : 0 < m) (h : Int.gcd a m ≠ 1) : invOf a m = none := by
  obtain ⟨hg, -⟩ := invLoop_spec m a (m.toNat + 1) m (imod a m) 0 1 hm.le (imod_nonneg a hm)
    (by have := imod_lt a hm; omega) (by simp [Int.modEq_iff_dvd]) (by simpa using (Int.mod_modEq a m).symm)
  rw [Int.gcd_comm, Int.gcd_emod] at hg
  have : (invLoop (m.toNat + 1) m (imod a m) 0 1).1 ≠ 1 := by rw [hg]; exact_mod_cast h
  simp [invOf, this]

/-- Everything `invOf` can answer. -/
theorem invOf_cases (a : Int) {m : Int} (hm : 0 < m) :
    (∃ v, invOf a m = some v ∧ Int.gcd a m = 1 ∧ 0 ≤ v ∧ v < m ∧ imod (a * v) m = imod 1 m) ∨
      (invOf a m = none ∧ Int.gcd a m ≠ 1) := by
  by_cases h : Int.gcd a m = 1
  · obtain ⟨v, h1, h2, h3, h4⟩ := invOf_of_gcd_eq_one hm h
    exact .inl ⟨v, h1, h, h2, h3, h4⟩
  · exact .inr ⟨invOf_of_gcd_ne_one hm h, h⟩

/-! ### powmod -/

theorem powLoop_eq (m : Int) (n : Nat) (e r s : Int) (he : 0 ≤ e) (hn : e < 2 ^ n) (hr : imod r m = r) :
    powLoop m n e r s = imod (r * s ^ e.toNat) m := by
  induction n generalizing e r s with
  | zero =>
    have : e = 0 := by simp at hn; omega
    subst this; simp [powLoop, hr]
  | succ n ih =>
    simp only [powLoop]
    split
    case isTrue h =>
      have hd : idiv e 2 < 2 ^ n := by
        have : (2 : Int) ^ (n + 1) = 2 * 2 ^ n := by ring
        simp only [idiv]; omega
      have hsq : ∀ k : Nat, (imod (s * s) m) ^ k ≡ s ^ (2 * k) [ZMOD m] := by
        intro k; rw [pow_mul, pow_two]; exact (Int.mod_modEq _ m).pow k
      cases ho : isOdd e with
      | true =>
        rw [isOdd_iff] at ho
        have hk : e.toNat = 2 * (idiv e 2).toNat + 1 := by simp only [idiv]; omega
        rw [if_pos rfl, ih _ _ _ (by simp only [idiv]; omega) hd (Int.emod_emod_of_dvd _ dvd_rfl), hk, pow_succ']
        have := (Int.mod_modEq (r * s) m).mul (hsq (idiv e 2).toNat)
        rw [mul_assoc] at this
        exact this
      | false =>
        rw [isOdd_false_iff] at ho
        have hk : e.toNat = 2 * (idiv e 2).toNat := by simp only [idiv]; omega
        rw [if_neg (by simp), ih _ _ _ (by simp only [idiv]; omega) hd hr, hk]
        exact (hsq (idiv e 2).toNat).mul_left r
    case isFalse h =>
      have : e = 0 := by omega
      subst this; simp [hr]

/-- The value of square-and-multiply (R151): `mod(b^e, m)`. -/
theorem powmod_eq (b m : Int) {e : Int} (he : 0 ≤ e) : powmod b e m = imod (b ^ e.toNat) m := by
  unfold powmod
  rw [powLoop_eq _ _ _ _ _ he (bitlen_le_iff.1 le_rfl) (Int.emod_emod_of_dvd _ dvd_rfl)]
  have := (Int.mod_modEq 1 m).mul ((Int.mod_modEq b m).pow e.toNat)
  rw [one_mul] at this
  exact this

end Sys2Proof.Machine
end

