-- ==== Sys2Proof/Laws/State.lean ====
section
/-! SUPPORT. One lemma per field for every update of the state, so that no proof unfolds a record update. -/

namespace Sys2Proof.Machine

variable (s : State)

/-! ### State.setX -/

@[simp] theorem State.setX_x (i : XReg) (v : Int) : (s.setX i v).x = s.x.set i v := rfl
@[simp] theorem State.setX_p (i : XReg) (v : Int) : (s.setX i v).p = s.p := rfl
@[simp] theorem State.setX_ca (i : XReg) (v : Int) : (s.setX i v).ca = s.ca := rfl
@[simp] theorem State.setX_cb (i : XReg) (v : Int) : (s.setX i v).cb = s.cb := rfl
@[simp] theorem State.setX_cp (i : XReg) (v : Int) : (s.setX i v).cp = s.cp := rfl
@[simp] theorem State.setX_ir (i : XReg) (v : Int) : (s.setX i v).ir = s.ir := rfl
@[simp] theorem State.setX_busy (i : XReg) (v : Int) : (s.setX i v).busy = s.busy := rfl
@[simp] theorem State.setX_done (i : XReg) (v : Int) : (s.setX i v).done = s.done := rfl
@[simp] theorem State.setX_fault (i : XReg) (v : Int) : (s.setX i v).fault = s.fault := rfl
@[simp] theorem State.setX_ni (i : XReg) (v : Int) : (s.setX i v).ni = s.ni := rfl
@[simp] theorem State.setX_cv (i : XReg) (v : Int) : (s.setX i v).cv = s.cv := rfl
@[simp] theorem State.setX_fb (i : XReg) (v : Int) : (s.setX i v).fb = s.fb := rfl
@[simp] theorem State.setX_cause (i : XReg) (v : Int) : (s.setX i v).cause = s.cause := rfl
@[simp] theorem State.setX_sub (i : XReg) (v : Int) : (s.setX i v).sub = s.sub := rfl
@[simp] theorem State.setX_doneIe (i : XReg) (v : Int) : (s.setX i v).doneIe = s.doneIe := rfl
@[simp] theorem State.setX_faultIe (i : XReg) (v : Int) : (s.setX i v).faultIe = s.faultIe := rfl
@[simp] theorem State.setX_esel (i : XReg) (v : Int) : (s.setX i v).esel = s.esel := rfl
@[simp] theorem State.setX_ecnt (i : XReg) (v : Int) : (s.setX i v).ecnt = s.ecnt := rfl
@[simp] theorem State.setX_ebuf (i : XReg) (v : Int) : (s.setX i v).ebuf = s.ebuf := rfl
@[simp] theorem State.setX_env (i : XReg) (v : Int) : (s.setX i v).env = s.env := rfl

/-! ### State.setPReg -/

@[simp] theorem State.setPReg_x (i : PReg) (r : PointReg) : (s.setPReg i r).x = s.x := rfl
@[simp] theorem State.setPReg_p (i : PReg) (r : PointReg) : (s.setPReg i r).p = s.p.set i r := rfl
@[simp] theorem State.setPReg_ca (i : PReg) (r : PointReg) : (s.setPReg i r).ca = s.ca := rfl
@[simp] theorem State.setPReg_cb (i : PReg) (r : PointReg) : (s.setPReg i r).cb = s.cb := rfl
@[simp] theorem State.setPReg_cp (i : PReg) (r : PointReg) : (s.setPReg i r).cp = s.cp := rfl
@[simp] theorem State.setPReg_ir (i : PReg) (r : PointReg) : (s.setPReg i r).ir = s.ir := rfl
@[simp] theorem State.setPReg_busy (i : PReg) (r : PointReg) : (s.setPReg i r).busy = s.busy := rfl
@[simp] theorem State.setPReg_done (i : PReg) (r : PointReg) : (s.setPReg i r).done = s.done := rfl
@[simp] theorem State.setPReg_fault (i : PReg) (r : PointReg) : (s.setPReg i r).fault = s.fault := rfl
@[simp] theorem State.setPReg_ni (i : PReg) (r : PointReg) : (s.setPReg i r).ni = s.ni := rfl
@[simp] theorem State.setPReg_cv (i : PReg) (r : PointReg) : (s.setPReg i r).cv = s.cv := rfl
@[simp] theorem State.setPReg_fb (i : PReg) (r : PointReg) : (s.setPReg i r).fb = s.fb := rfl
@[simp] theorem State.setPReg_cause (i : PReg) (r : PointReg) : (s.setPReg i r).cause = s.cause := rfl
@[simp] theorem State.setPReg_sub (i : PReg) (r : PointReg) : (s.setPReg i r).sub = s.sub := rfl
@[simp] theorem State.setPReg_doneIe (i : PReg) (r : PointReg) : (s.setPReg i r).doneIe = s.doneIe := rfl
@[simp] theorem State.setPReg_faultIe (i : PReg) (r : PointReg) : (s.setPReg i r).faultIe = s.faultIe := rfl
@[simp] theorem State.setPReg_esel (i : PReg) (r : PointReg) : (s.setPReg i r).esel = s.esel := rfl
@[simp] theorem State.setPReg_ecnt (i : PReg) (r : PointReg) : (s.setPReg i r).ecnt = s.ecnt := rfl
@[simp] theorem State.setPReg_ebuf (i : PReg) (r : PointReg) : (s.setPReg i r).ebuf = s.ebuf := rfl
@[simp] theorem State.setPReg_env (i : PReg) (r : PointReg) : (s.setPReg i r).env = s.env := rfl

/-! ### State.setP -/

@[simp] theorem State.setP_x (i : PReg) (P : Point) : (s.setP i P).x = s.x := rfl
@[simp] theorem State.setP_p (i : PReg) (P : Point) : (s.setP i P).p = s.p.set i P.toReg := rfl
@[simp] theorem State.setP_ca (i : PReg) (P : Point) : (s.setP i P).ca = s.ca := rfl
@[simp] theorem State.setP_cb (i : PReg) (P : Point) : (s.setP i P).cb = s.cb := rfl
@[simp] theorem State.setP_cp (i : PReg) (P : Point) : (s.setP i P).cp = s.cp := rfl
@[simp] theorem State.setP_ir (i : PReg) (P : Point) : (s.setP i P).ir = s.ir := rfl
@[simp] theorem State.setP_busy (i : PReg) (P : Point) : (s.setP i P).busy = s.busy := rfl
@[simp] theorem State.setP_done (i : PReg) (P : Point) : (s.setP i P).done = s.done := rfl
@[simp] theorem State.setP_fault (i : PReg) (P : Point) : (s.setP i P).fault = s.fault := rfl
@[simp] theorem State.setP_ni (i : PReg) (P : Point) : (s.setP i P).ni = s.ni := rfl
@[simp] theorem State.setP_cv (i : PReg) (P : Point) : (s.setP i P).cv = s.cv := rfl
@[simp] theorem State.setP_fb (i : PReg) (P : Point) : (s.setP i P).fb = s.fb := rfl
@[simp] theorem State.setP_cause (i : PReg) (P : Point) : (s.setP i P).cause = s.cause := rfl
@[simp] theorem State.setP_sub (i : PReg) (P : Point) : (s.setP i P).sub = s.sub := rfl
@[simp] theorem State.setP_doneIe (i : PReg) (P : Point) : (s.setP i P).doneIe = s.doneIe := rfl
@[simp] theorem State.setP_faultIe (i : PReg) (P : Point) : (s.setP i P).faultIe = s.faultIe := rfl
@[simp] theorem State.setP_esel (i : PReg) (P : Point) : (s.setP i P).esel = s.esel := rfl
@[simp] theorem State.setP_ecnt (i : PReg) (P : Point) : (s.setP i P).ecnt = s.ecnt := rfl
@[simp] theorem State.setP_ebuf (i : PReg) (P : Point) : (s.setP i P).ebuf = s.ebuf := rfl
@[simp] theorem State.setP_env (i : PReg) (P : Point) : (s.setP i P).env = s.env := rfl

/-! ### State.setSource -/

@[simp] theorem State.setSource_x (g : Source) : (s.setSource g).x = s.x := rfl
@[simp] theorem State.setSource_p (g : Source) : (s.setSource g).p = s.p := rfl
@[simp] theorem State.setSource_ca (g : Source) : (s.setSource g).ca = s.ca := rfl
@[simp] theorem State.setSource_cb (g : Source) : (s.setSource g).cb = s.cb := rfl
@[simp] theorem State.setSource_cp (g : Source) : (s.setSource g).cp = s.cp := rfl
@[simp] theorem State.setSource_ir (g : Source) : (s.setSource g).ir = s.ir := rfl
@[simp] theorem State.setSource_busy (g : Source) : (s.setSource g).busy = s.busy := rfl
@[simp] theorem State.setSource_done (g : Source) : (s.setSource g).done = s.done := rfl
@[simp] theorem State.setSource_fault (g : Source) : (s.setSource g).fault = s.fault := rfl
@[simp] theorem State.setSource_ni (g : Source) : (s.setSource g).ni = s.ni := rfl
@[simp] theorem State.setSource_cv (g : Source) : (s.setSource g).cv = s.cv := rfl
@[simp] theorem State.setSource_fb (g : Source) : (s.setSource g).fb = s.fb := rfl
@[simp] theorem State.setSource_cause (g : Source) : (s.setSource g).cause = s.cause := rfl
@[simp] theorem State.setSource_sub (g : Source) : (s.setSource g).sub = s.sub := rfl
@[simp] theorem State.setSource_doneIe (g : Source) : (s.setSource g).doneIe = s.doneIe := rfl
@[simp] theorem State.setSource_faultIe (g : Source) : (s.setSource g).faultIe = s.faultIe := rfl
@[simp] theorem State.setSource_esel (g : Source) : (s.setSource g).esel = s.esel := rfl
@[simp] theorem State.setSource_ecnt (g : Source) : (s.setSource g).ecnt = s.ecnt := rfl
@[simp] theorem State.setSource_ebuf (g : Source) : (s.setSource g).ebuf = s.ebuf := rfl
@[simp] theorem State.setSource_env_params (g : Source) : (s.setSource g).env.params = s.env.params := rfl
@[simp] theorem State.setSource_env_source (g : Source) : (s.setSource g).env.source = g := rfl
@[simp] theorem State.setSource_env_port (g : Source) : (s.setSource g).env.port = s.env.port := rfl
@[simp] theorem State.setSource_env_response (g : Source) : (s.setSource g).env.response = s.env.response := rfl

/-! ### State.setCurve -/

@[simp] theorem State.setCurve_x (c : Curve) : (s.setCurve c).x = s.x := rfl
@[simp] theorem State.setCurve_p (c : Curve) : (s.setCurve c).p = s.p := rfl
@[simp] theorem State.setCurve_ca (c : Curve) : (s.setCurve c).ca = c.a := rfl
@[simp] theorem State.setCurve_cb (c : Curve) : (s.setCurve c).cb = c.b := rfl
@[simp] theorem State.setCurve_cp (c : Curve) : (s.setCurve c).cp = c.p := rfl
@[simp] theorem State.setCurve_ir (c : Curve) : (s.setCurve c).ir = s.ir := rfl
@[simp] theorem State.setCurve_busy (c : Curve) : (s.setCurve c).busy = s.busy := rfl
@[simp] theorem State.setCurve_done (c : Curve) : (s.setCurve c).done = s.done := rfl
@[simp] theorem State.setCurve_fault (c : Curve) : (s.setCurve c).fault = s.fault := rfl
@[simp] theorem State.setCurve_ni (c : Curve) : (s.setCurve c).ni = s.ni := rfl
@[simp] theorem State.setCurve_cv (c : Curve) : (s.setCurve c).cv = true := rfl
@[simp] theorem State.setCurve_fb (c : Curve) : (s.setCurve c).fb = s.fb := rfl
@[simp] theorem State.setCurve_cause (c : Curve) : (s.setCurve c).cause = s.cause := rfl
@[simp] theorem State.setCurve_sub (c : Curve) : (s.setCurve c).sub = s.sub := rfl
@[simp] theorem State.setCurve_doneIe (c : Curve) : (s.setCurve c).doneIe = s.doneIe := rfl
@[simp] theorem State.setCurve_faultIe (c : Curve) : (s.setCurve c).faultIe = s.faultIe := rfl
@[simp] theorem State.setCurve_esel (c : Curve) : (s.setCurve c).esel = s.esel := rfl
@[simp] theorem State.setCurve_ecnt (c : Curve) : (s.setCurve c).ecnt = s.ecnt := rfl
@[simp] theorem State.setCurve_ebuf (c : Curve) : (s.setCurve c).ebuf = s.ebuf := rfl
@[simp] theorem State.setCurve_env (c : Curve) : (s.setCurve c).env = s.env := rfl

/-! ### State.setPort -/

@[simp] theorem State.setPort_x (l : List PortEvent) : (s.setPort l).x = s.x := rfl
@[simp] theorem State.setPort_p (l : List PortEvent) : (s.setPort l).p = s.p := rfl
@[simp] theorem State.setPort_ca (l : List PortEvent) : (s.setPort l).ca = s.ca := rfl
@[simp] theorem State.setPort_cb (l : List PortEvent) : (s.setPort l).cb = s.cb := rfl
@[simp] theorem State.setPort_cp (l : List PortEvent) : (s.setPort l).cp = s.cp := rfl
@[simp] theorem State.setPort_ir (l : List PortEvent) : (s.setPort l).ir = s.ir := rfl
@[simp] theorem State.setPort_busy (l : List PortEvent) : (s.setPort l).busy = s.busy := rfl
@[simp] theorem State.setPort_done (l : List PortEvent) : (s.setPort l).done = s.done := rfl
@[simp] theorem State.setPort_fault (l : List PortEvent) : (s.setPort l).fault = s.fault := rfl
@[simp] theorem State.setPort_ni (l : List PortEvent) : (s.setPort l).ni = s.ni := rfl
@[simp] theorem State.setPort_cv (l : List PortEvent) : (s.setPort l).cv = s.cv := rfl
@[simp] theorem State.setPort_fb (l : List PortEvent) : (s.setPort l).fb = s.fb := rfl
@[simp] theorem State.setPort_cause (l : List PortEvent) : (s.setPort l).cause = s.cause := rfl
@[simp] theorem State.setPort_sub (l : List PortEvent) : (s.setPort l).sub = s.sub := rfl
@[simp] theorem State.setPort_doneIe (l : List PortEvent) : (s.setPort l).doneIe = s.doneIe := rfl
@[simp] theorem State.setPort_faultIe (l : List PortEvent) : (s.setPort l).faultIe = s.faultIe := rfl
@[simp] theorem State.setPort_esel (l : List PortEvent) : (s.setPort l).esel = s.esel := rfl
@[simp] theorem State.setPort_ecnt (l : List PortEvent) : (s.setPort l).ecnt = s.ecnt := rfl
@[simp] theorem State.setPort_ebuf (l : List PortEvent) : (s.setPort l).ebuf = s.ebuf := rfl
@[simp] theorem State.setPort_env_params (l : List PortEvent) : (s.setPort l).env.params = s.env.params := rfl
@[simp] theorem State.setPort_env_source (l : List PortEvent) : (s.setPort l).env.source = s.env.source := rfl
@[simp] theorem State.setPort_env_port (l : List PortEvent) : (s.setPort l).env.port = l := rfl
@[simp] theorem State.setPort_env_response (l : List PortEvent) : (s.setPort l).env.response = s.env.response := rfl

/-! ### State.respond -/

@[simp] theorem State.respond_x (r : Option Response) : (s.respond r).x = s.x := rfl
@[simp] theorem State.respond_p (r : Option Response) : (s.respond r).p = s.p := rfl
@[simp] theorem State.respond_ca (r : Option Response) : (s.respond r).ca = s.ca := rfl
@[simp] theorem State.respond_cb (r : Option Response) : (s.respond r).cb = s.cb := rfl
@[simp] theorem State.respond_cp (r : Option Response) : (s.respond r).cp = s.cp := rfl
@[simp] theorem State.respond_ir (r : Option Response) : (s.respond r).ir = s.ir := rfl
@[simp] theorem State.respond_busy (r : Option Response) : (s.respond r).busy = s.busy := rfl
@[simp] theorem State.respond_done (r : Option Response) : (s.respond r).done = s.done := rfl
@[simp] theorem State.respond_fault (r : Option Response) : (s.respond r).fault = s.fault := rfl
@[simp] theorem State.respond_ni (r : Option Response) : (s.respond r).ni = s.ni := rfl
@[simp] theorem State.respond_cv (r : Option Response) : (s.respond r).cv = s.cv := rfl
@[simp] theorem State.respond_fb (r : Option Response) : (s.respond r).fb = s.fb := rfl
@[simp] theorem State.respond_cause (r : Option Response) : (s.respond r).cause = s.cause := rfl
@[simp] theorem State.respond_sub (r : Option Response) : (s.respond r).sub = s.sub := rfl
@[simp] theorem State.respond_doneIe (r : Option Response) : (s.respond r).doneIe = s.doneIe := rfl
@[simp] theorem State.respond_faultIe (r : Option Response) : (s.respond r).faultIe = s.faultIe := rfl
@[simp] theorem State.respond_esel (r : Option Response) : (s.respond r).esel = s.esel := rfl
@[simp] theorem State.respond_ecnt (r : Option Response) : (s.respond r).ecnt = s.ecnt := rfl
@[simp] theorem State.respond_ebuf (r : Option Response) : (s.respond r).ebuf = s.ebuf := rfl
@[simp] theorem State.respond_env_params (r : Option Response) : (s.respond r).env.params = s.env.params := rfl
@[simp] theorem State.respond_env_source (r : Option Response) : (s.respond r).env.source = s.env.source := rfl
@[simp] theorem State.respond_env_port (r : Option Response) : (s.respond r).env.port = s.env.port := rfl
@[simp] theorem State.respond_env_response (r : Option Response) : (s.respond r).env.response = r := rfl

/-! ### complete -/

@[simp] theorem complete_x : (complete s).x = s.x := rfl
@[simp] theorem complete_p : (complete s).p = s.p := rfl
@[simp] theorem complete_ca : (complete s).ca = s.ca := rfl
@[simp] theorem complete_cb : (complete s).cb = s.cb := rfl
@[simp] theorem complete_cp : (complete s).cp = s.cp := rfl
@[simp] theorem complete_ir : (complete s).ir = s.ir := rfl
@[simp] theorem complete_busy : (complete s).busy = false := rfl
@[simp] theorem complete_done : (complete s).done = true := rfl
@[simp] theorem complete_fault : (complete s).fault = s.fault := rfl
@[simp] theorem complete_ni : (complete s).ni = s.ni := rfl
@[simp] theorem complete_cv : (complete s).cv = s.cv := rfl
@[simp] theorem complete_fb : (complete s).fb = s.fb := rfl
@[simp] theorem complete_cause : (complete s).cause = s.cause := rfl
@[simp] theorem complete_sub : (complete s).sub = s.sub := rfl
@[simp] theorem complete_doneIe : (complete s).doneIe = s.doneIe := rfl
@[simp] theorem complete_faultIe : (complete s).faultIe = s.faultIe := rfl
@[simp] theorem complete_esel : (complete s).esel = s.esel := rfl
@[simp] theorem complete_ecnt : (complete s).ecnt = s.ecnt := rfl
@[simp] theorem complete_ebuf : (complete s).ebuf = s.ebuf := rfl
@[simp] theorem complete_env : (complete s).env = s.env := rfl

/-! ### takeFault -/

@[simp] theorem takeFault_x (c : Cause) (n : BitVec 8) : (takeFault c n s).x = s.x := rfl
@[simp] theorem takeFault_p (c : Cause) (n : BitVec 8) : (takeFault c n s).p = s.p := rfl
@[simp] theorem takeFault_ca (c : Cause) (n : BitVec 8) : (takeFault c n s).ca = s.ca := rfl
@[simp] theorem takeFault_cb (c : Cause) (n : BitVec 8) : (takeFault c n s).cb = s.cb := rfl
@[simp] theorem takeFault_cp (c : Cause) (n : BitVec 8) : (takeFault c n s).cp = s.cp := rfl
@[simp] theorem takeFault_ir (c : Cause) (n : BitVec 8) : (takeFault c n s).ir = s.ir := rfl
@[simp] theorem takeFault_busy (c : Cause) (n : BitVec 8) : (takeFault c n s).busy = false := rfl
@[simp] theorem takeFault_done (c : Cause) (n : BitVec 8) : (takeFault c n s).done = true := rfl
@[simp] theorem takeFault_fault (c : Cause) (n : BitVec 8) : (takeFault c n s).fault = true := rfl
@[simp] theorem takeFault_ni (c : Cause) (n : BitVec 8) : (takeFault c n s).ni = s.ni := rfl
@[simp] theorem takeFault_cv (c : Cause) (n : BitVec 8) : (takeFault c n s).cv = s.cv := rfl
@[simp] theorem takeFault_fb (c : Cause) (n : BitVec 8) : (takeFault c n s).fb = s.fb := rfl
@[simp] theorem takeFault_cause (c : Cause) (n : BitVec 8) : (takeFault c n s).cause = causeCode c := rfl
@[simp] theorem takeFault_sub (c : Cause) (n : BitVec 8) : (takeFault c n s).sub = n := rfl
@[simp] theorem takeFault_doneIe (c : Cause) (n : BitVec 8) : (takeFault c n s).doneIe = s.doneIe := rfl
@[simp] theorem takeFault_faultIe (c : Cause) (n : BitVec 8) : (takeFault c n s).faultIe = s.faultIe := rfl
@[simp] theorem takeFault_esel (c : Cause) (n : BitVec 8) : (takeFault c n s).esel = s.esel := rfl
@[simp] theorem takeFault_ecnt (c : Cause) (n : BitVec 8) : (takeFault c n s).ecnt = s.ecnt := rfl
@[simp] theorem takeFault_ebuf (c : Cause) (n : BitVec 8) : (takeFault c n s).ebuf = s.ebuf := rfl
@[simp] theorem takeFault_env (c : Cause) (n : BitVec 8) : (takeFault c n s).env = s.env := rfl

/-! ### writeIe -/

@[simp] theorem writeIe_x (v : Word) : (writeIe v s).x = s.x := rfl
@[simp] theorem writeIe_p (v : Word) : (writeIe v s).p = s.p := rfl
@[simp] theorem writeIe_ca (v : Word) : (writeIe v s).ca = s.ca := rfl
@[simp] theorem writeIe_cb (v : Word) : (writeIe v s).cb = s.cb := rfl
@[simp] theorem writeIe_cp (v : Word) : (writeIe v s).cp = s.cp := rfl
@[simp] theorem writeIe_ir (v : Word) : (writeIe v s).ir = s.ir := rfl
@[simp] theorem writeIe_busy (v : Word) : (writeIe v s).busy = s.busy := rfl
@[simp] theorem writeIe_done (v : Word) : (writeIe v s).done = s.done := rfl
@[simp] theorem writeIe_fault (v : Word) : (writeIe v s).fault = s.fault := rfl
@[simp] theorem writeIe_ni (v : Word) : (writeIe v s).ni = s.ni := rfl
@[simp] theorem writeIe_cv (v : Word) : (writeIe v s).cv = s.cv := rfl
@[simp] theorem writeIe_fb (v : Word) : (writeIe v s).fb = s.fb := rfl
@[simp] theorem writeIe_cause (v : Word) : (writeIe v s).cause = s.cause := rfl
@[simp] theorem writeIe_sub (v : Word) : (writeIe v s).sub = s.sub := rfl
@[simp] theorem writeIe_doneIe (v : Word) : (writeIe v s).doneIe = v.getLsbD 0 := rfl
@[simp] theorem writeIe_faultIe (v : Word) : (writeIe v s).faultIe = v.getLsbD 1 := rfl
@[simp] theorem writeIe_esel (v : Word) : (writeIe v s).esel = s.esel := rfl
@[simp] theorem writeIe_ecnt (v : Word) : (writeIe v s).ecnt = s.ecnt := rfl
@[simp] theorem writeIe_ebuf (v : Word) : (writeIe v s).ebuf = s.ebuf := rfl
@[simp] theorem writeIe_env (v : Word) : (writeIe v s).env = s.env := rfl

end Sys2Proof.Machine
end

