-- ==== Sys2Proof/Laws/Ops.lean ====
section
/-! SUPPORT. What the shared operations can do: one lemma each, cited instead of unfolding them. -/

namespace Sys2Proof.Machine

variable (s : State)

/-! ### registers -/

theorem State.getX_setX (i j : XReg) (v : Int) : (s.setX i v).getX j = if i = j then v else s.getX j := by
  simp only [State.getX, State.setX, Fin.getElem_fin, Vector.getElem_set, Fin.ext_iff]

@[simp] theorem State.getX_setX_self (i : XReg) (v : Int) : (s.setX i v).getX i = v := by
  simp [State.getX_setX]

theorem State.getPReg_setPReg (i j : PReg) (r : PointReg) :
    (s.setPReg i r).getPReg j = if i = j then r else s.getPReg j := by
  simp only [State.getPReg, State.setPReg, Fin.getElem_fin, Vector.getElem_set, Fin.ext_iff]

@[simp] theorem Point.value_toReg (P : Point) : P.toReg.value = P := by
  cases P <;> simp [Point.toReg, PointReg.value]

theorem State.getP_setP (i j : PReg) (P : Point) : (s.setP i P).getP j = if i = j then P else s.getP j := by
  simp only [State.getP, State.setP, State.getPReg_setPReg]
  split <;> simp

@[simp] theorem State.getX_setSource (g : Source) (i : XReg) : (s.setSource g).getX i = s.getX i := rfl
@[simp] theorem State.getP_setSource (g : Source) (i : PReg) : (s.setSource g).getP i = s.getP i := rfl
@[simp] theorem State.getPReg_setSource (g : Source) (i : PReg) : (s.setSource g).getPReg i = s.getPReg i := rfl
@[simp] theorem State.curve_setSource (g : Source) : (s.setSource g).curve = s.curve := rfl
@[simp] theorem State.setSource_setSource (g h : Source) : (s.setSource g).setSource h = s.setSource h := rfl
@[simp] theorem State.setX_setSource (g : Source) (i : XReg) (v : Int) :
    (s.setSource g).setX i v = (s.setX i v).setSource g := rfl
@[simp] theorem State.setP_setSource (g : Source) (i : PReg) (P : Point) :
    (s.setSource g).setP i P = (s.setP i P).setSource g := rfl

/-! ### draws -/

/-- Everything a draw can do (R160): a value of the range, and one more draw taken. -/
theorem draw_spec {lo hi : Int} (h : lo < hi) (g : Source) :
    lo ≤ (draw lo hi g).1 ∧ (draw lo hi g).1 < hi ∧
      (draw lo hi g).2 = { answers := g.answers.tail, taken := g.taken + 1 } := by
  have hp : 0 < hi - lo := by omega
  obtain ⟨_ | ⟨v, vs⟩, t⟩ := g
  all_goals
    simp only [draw, List.tail]
    exact ⟨le_add_of_nonneg_right (imod_nonneg _ hp), lt_sub_iff_add_lt'.1 (imod_lt _ hp), trivial⟩

/-- An answer inside the range is the value drawn (R160). -/
theorem draw_answer {lo hi v : Int} (h0 : lo ≤ v) (h1 : v < hi) (vs : List Int) (n : Nat) :
    draw lo hi ⟨v :: vs, n⟩ = (v, ⟨vs, n + 1⟩) := by
  simp only [draw]
  rw [imod_eq_self (by omega) (by omega)]
  simp

/-! ### the fit check -/

theorem fits_iff (w : Nat) (v : Int) : fits w v = true ↔ -(2 ^ (w - 1)) ≤ v ∧ v ≤ 2 ^ (w - 1) - 1 := by
  simp [fits]

/-- A non-negative value below one that fits does fit. -/
theorem fits_of_lt {w : Nat} {v m : Int} (hm : fits w m = true) (h0 : 0 ≤ v) (h1 : v < m) : fits w v = true := by
  rw [fits_iff] at hm ⊢
  have : (0 : Int) < 2 ^ (w - 1) := by positivity
  omega

theorem fits_zero (w : Nat) : fits w 0 = true := by
  rw [fits_iff]
  have : (0 : Int) < 2 ^ (w - 1) := by positivity
  omega

theorem fits_of_lt_pow {w k : Nat} {v : Int} (hk : k + 1 ≤ w) (h0 : 0 ≤ v) (h1 : v < 2 ^ k) : fits w v = true := by
  rw [fits_iff]
  have h2 : (2 : Int) ^ k ≤ 2 ^ (w - 1) := pow_le_pow_right₀ (by norm_num) (by omega)
  have : (0 : Int) < 2 ^ (w - 1) := by positivity
  omega

theorem fits_one {w : Nat} (hw : 2 ≤ w) : fits w 1 = true := fits_of_lt_pow (k := 1) hw (by norm_num) (by norm_num)

theorem fits_ofVerdict {w : Nat} (hw : 2 ≤ w) (b : Bool) : fits w (ofVerdict b) = true := by
  cases b
  · exact fits_zero w
  · exact fits_one hw

/-! ### the two ends of a command -/

theorem commit_of_fits {vs : List Int} {t : State} (h : ∀ v ∈ vs, fits s.width v = true) :
    commit s vs t = .next (complete t) := by
  rw [commit, if_pos (List.all_eq_true.2 h)]

/-- Everything `commit` can answer (R93, R251). -/
theorem commit_cases (vs : List Int) (t : State) :
    ((∀ v ∈ vs, fits s.width v = true) ∧ commit s vs t = .next (complete t)) ∨
      ((∃ v ∈ vs, fits s.width v = false) ∧ commit s vs t = .next (takeFault .range 1 s)) := by
  by_cases h : ∀ v ∈ vs, fits s.width v = true
  · exact .inl ⟨h, commit_of_fits s h⟩
  · right
    simp only [not_forall, Bool.not_eq_true] at h
    obtain ⟨v, hv, hf⟩ := h
    refine ⟨⟨v, hv, hf⟩, ?_⟩
    rw [commit, if_neg]
    · rfl
    · rw [List.all_eq_true]; intro h; simp [h v hv] at hf

theorem commitX_of_fits {rd : XReg} {v : Int} (h : fits s.width v = true) :
    commitX s rd v = .next (complete (s.setX rd v)) :=
  commit_of_fits s (by simpa using h)

/-! ### acceptance -/

/-- Everything the acceptance of a command can do (R92). -/
theorem accept_eq_some {w : Word} {t : State} (h : accept w s = some t) :
    s.busy = false ∧ s.fault = false ∧ t = { s with ir := w, busy := true, done := false } := by
  unfold accept at h
  split at h
  · cases h
  · rename_i hb
    simp only [Bool.or_eq_true, not_or, Bool.not_eq_true] at hb
    exact ⟨hb.1, hb.2, (Option.some.inj h).symm⟩

end Sys2Proof.Machine
end

