-- ==== Sys2Proof/Laws/MillerRabin.lean ====
section
/-! SUPPORT. What the primality test can answer (spec R164 to R167). -/

namespace Sys2Proof.Machine

/-- The decomposition `n − 1 = 2^q · k` with `k` odd (R164). -/
theorem splitTwos_spec (n q : Nat) (k : Int) (hk : 0 < k) (hn : k < 2 ^ n) :
    ∃ j : Nat, (splitTwos n q k).1 = q + j ∧ (splitTwos n q k).2 * 2 ^ j = k ∧ (splitTwos n q k).2 % 2 = 1 := by
  induction n generalizing q k with
  | zero => simp at hn; omega
  | succ n ih =>
    simp only [splitTwos]
    cases ho : isOdd k with
    | true => exact ⟨0, by simp, by simp, by simpa [isOdd_iff] using ho⟩
    | false =>
      rw [isOdd_false_iff] at ho
      have h2 : (2 : Int) ^ (n + 1) = 2 * 2 ^ n := by ring
      obtain ⟨j, h1, hj, h3⟩ := ih (q + 1) (idiv k 2) (by simp only [idiv]; omega) (by simp only [idiv]; omega)
      refine ⟨j + 1, by simp [h1]; omega, ?_, by simpa using h3⟩
      simp only [Bool.false_eq_true, if_false, pow_succ, ← mul_assoc, hj, idiv]
      omega

theorem modEq_of_imod_eq {x y n : Int} (h : imod x n = y) : x ≡ y [ZMOD n] := by
  subst h; exact (Int.mod_modEq x n).symm

/-- A square that is 1 modulo a prime has its root at `1` or `n − 1`. -/
theorem root_of_one {n : Nat} (hp : n.Prime) {y : Int} (h0 : 0 ≤ y) (h1 : y < n) (h : y * y ≡ 1 [ZMOD n]) :
    y = 1 ∨ y = n - 1 := by
  have hd : (n : Int) ∣ (y - 1) * (y + 1) := by
    have := (Int.modEq_iff_dvd.1 h.symm); ring_nf at this ⊢; exact this
  have h2 := hp.two_le
  rcases (Nat.prime_iff_prime_int.1 hp).dvd_or_dvd hd with hd | hd
  · left
    obtain ⟨c, hc⟩ := hd
    have : c = 0 := by
      rcases lt_trichotomy c 0 with hc' | hc' | hc'
      · nlinarith
      · exact hc'
      · nlinarith
    subst this; omega
  · right
    obtain ⟨c, hc⟩ := hd
    have : c = 1 := by
      rcases lt_trichotomy c 1 with hc' | hc' | hc'
      · nlinarith
      · exact hc'
      · nlinarith
    subst this; omega

theorem mrSquarings_of_prime {n : Nat} (hp : n.Prime) (r : Nat) (y : Int) (h0 : 0 ≤ y) (h1 : y < n) (hy1 : y ≠ 1)
    (hym : y ≠ n - 1) (h : y ^ (2 ^ (r + 1)) ≡ 1 [ZMOD n]) : mrSquarings n r y = .pass := by
  have hpos : (0 : Int) < n := by exact_mod_cast hp.pos
  induction r generalizing y with
  | zero =>
    rcases root_of_one hp h0 h1 (by simpa [pow_two] using h) with h | h <;> contradiction
  | succ r ih =>
    simp only [mrSquarings]
    split
    · rfl
    · rename_i hz
      rw [if_neg]
      · refine ih _ (imod_nonneg _ hpos) (imod_lt _ hpos) ?_ hz ?_
        · intro hc
          rcases root_of_one hp h0 h1 (modEq_of_imod_eq hc) with h | h <;> contradiction
        · refine ((Int.mod_modEq _ _).pow _).trans ?_
          rw [← pow_two, ← pow_mul, ← pow_succ']; exact h
      · intro hc
        rcases root_of_one hp h0 h1 (modEq_of_imod_eq hc) with h | h <;> contradiction

/-- A prime has no Miller–Rabin witness (R167 (a)). -/
theorem mrRound_of_prime {n : Nat} (hp : n.Prime) (h5 : 5 ≤ n) {a : Int} (ha0 : 2 ≤ a) (ha1 : a < n - 1) :
    mrRound n a = .pass := by
  have hpos : (0 : Int) < n := by exact_mod_cast hp.pos
  obtain ⟨j, hq, hk, ho⟩ := splitTwos_spec (bitlen ((n : Int) - 1)) 0 (n - 1) (by omega) (bitlen_le_iff.1 le_rfl)
  simp only [zero_add] at hq
  set K := (splitTwos (bitlen ((n : Int) - 1)) 0 (n - 1)).2 with hK
  have hodd : n % 2 = 1 := by
    rcases hp.eq_two_or_odd with h | h <;> omega
  have hj : 1 ≤ j := by
    rcases Nat.eq_zero_or_pos j with h | h
    · subst h; simp only [pow_zero, mul_one] at hk; omega
    · exact h
  have hK0 : 0 ≤ K := by
    by_contra hneg
    have : (0 : Int) < 2 ^ j := by positivity
    nlinarith
  have hcop : IsCoprime a (n : Int) := by
    rw [Int.isCoprime_iff_gcd_eq_one, Int.gcd_comm]
    refine (Nat.Coprime.symm ?_ : Nat.gcd _ _ = 1)
    rw [Nat.coprime_comm, Int.natAbs_natCast, hp.coprime_iff_not_dvd]
    intro hd
    have := Nat.le_of_dvd (by omega) hd
    omega
  have hf : a ^ (n - 1) ≡ 1 [ZMOD n] := Int.ModEq.pow_card_sub_one_eq_one hp hcop
  unfold mrRound
  simp only [← hK, hq]
  rw [powmod_eq a n hK0]
  split
  · rfl
  · rename_i hy
    simp only [not_or] at hy
    refine mrSquarings_of_prime hp _ _ (imod_nonneg _ hpos) (imod_lt _ hpos) hy.1 hy.2 ?_
    refine ((Int.mod_modEq _ _).pow _).trans ?_
    rw [← pow_mul, Nat.sub_add_cancel hj]
    have : K.toNat * 2 ^ j = n - 1 := by
      have h1 : ((K.toNat : Int)) = K := Int.toNat_of_nonneg hK0
      have h2 : ((K.toNat * 2 ^ j : Nat) : Int) = ((n - 1 : Nat) : Int) := by
        push_cast [h1]; rw [hk]; omega
      exact_mod_cast h2
    rw [this]; exact hf

theorem witnessLoop_of_prime {n : Nat} (hp : n.Prime) (h5 : 5 ≤ n) (t : Nat) (g : Source) :
    (witnessLoop n t g).1 = true := by
  induction t generalizing g with
  | zero => rfl
  | succ t ih =>
    have := draw_spec (lo := 2) (hi := (n : Int) - 1) (by omega) g
    simp only [witnessLoop, mrRound_of_prime hp h5 this.1 this.2.1]
    exact ih _

/-- A prime passes the test whatever is drawn (R167 (a)). -/
theorem isprimeOf_of_prime {n : Nat} (hp : n.Prime) (g : Source) : (isprimeOf n g).1 = true := by
  have h2 := hp.two_le
  unfold isprimeOf
  split
  · omega
  · split
    · rfl
    · split
      · rfl
      · rename_i hn2 hn3
        have hodd : n % 2 = 1 := by
          rcases hp.eq_two_or_odd with h | h
          · subst h; simp at hn2
          · exact h
        have h5 : 5 ≤ n := by
          by_contra hlt
          interval_cases n <;> simp_all
        rw [if_neg]
        · exact witnessLoop_of_prime hp h5 _ g
        · rw [isOdd_false_iff]; omega

/-- How many draws the witness loop takes, and that it takes all of them when it answers `true` (R166). -/
theorem witnessLoop_taken {n : Int} (hn : 3 < n) (t : Nat) (g : Source) :
    g.taken ≤ (witnessLoop n t g).2.taken ∧ (witnessLoop n t g).2.taken ≤ g.taken + t ∧
      ((witnessLoop n t g).1 = true → (witnessLoop n t g).2.taken = g.taken + t) ∧
      (1 ≤ t → g.taken + 1 ≤ (witnessLoop n t g).2.taken) := by
  induction t generalizing g with
  | zero => simp [witnessLoop]
  | succ t ih =>
    have hd := (draw_spec (lo := 2) (hi := n - 1) (by omega) g).2.2
    simp only [witnessLoop]
    cases mrRound n (draw 2 (n - 1) g).1 with
    | composite => simp [hd]
    | pass =>
      have := ih (draw 2 (n - 1) g).2
      simp only [hd] at this ⊢
      refine ⟨by omega, by omega, fun h => by have := this.2.2.1 h; omega, fun _ => by omega⟩

/-- A number above 3 that passes the test is odd (R165). -/
theorem odd_of_isprimeOf {n : Int} {g : Source} (h : (isprimeOf n g).1 = true) (h3 : 3 < n) : n % 2 = 1 := by
  by_contra hc
  have : isOdd n = false := by rw [isOdd_false_iff]; omega
  rw [isprimeOf, if_neg (by omega), if_neg (by omega), if_neg (by omega), if_pos this] at h
  cases h

end Sys2Proof.Machine
end

