-- ==== Sys2Proof/Laws/Curve.lean ====
section
/-! SUPPORT. What the curve primitives can answer: the operand check (spec R211), the group law (R212, R214), the scalar loop (R222) and the
enumeration (R237). -/

namespace Sys2Proof.Machine

/-- A point the group-law commands accept: canonical (R210) and on the curve. -/
def validPoint (c : Curve) : Point → Bool
  | .inf => true
  | .fin x y => inRange c x y && oncurve c (.fin x y)

theorem inRange_iff (c : Curve) (x y : Int) : inRange c x y = true ↔ 0 ≤ x ∧ x < c.p ∧ 0 ≤ y ∧ y < c.p := by
  simp [inRange]

theorem oncurve_fin_iff (c : Curve) (x y : Int) :
    oncurve c (.fin x y) = true ↔ y * y % c.p = (x * x * x + c.a * x + c.b) % c.p := by
  simp [oncurve]

/-- The check of R211 passes exactly the valid points. -/
theorem checkPoint_eq_none_iff (c : Curve) (P : Point) (n : BitVec 8) : checkPoint c P n = none ↔ validPoint c P = true := by
  cases P with
  | inf => simp [checkPoint, validPoint]
  | fin x y =>
    cases h1 : inRange c x y <;> cases h2 : oncurve c (.fin x y) <;> simp [checkPoint, validPoint, h1, h2]

/-- The coordinates of a valid point fit a register that holds the modulus. -/
theorem fits_coords {c : Curve} {w : Nat} (hp : fits w c.p = true) {P : Point} (h : validPoint c P = true) :
    ∀ v ∈ P.coords, fits w v = true := by
  cases P with
  | inf => simp [Point.coords]
  | fin x y =>
    simp only [validPoint, Bool.and_eq_true, inRange_iff] at h
    simp only [Point.coords, List.mem_cons, List.not_mem_nil, or_false, forall_eq_or_imp, forall_eq]
    exact ⟨fits_of_lt hp h.1.1 h.1.2.1, fits_of_lt hp h.1.2.2.1 h.1.2.2.2⟩

/-- Everything the last lines of R212 can answer: infinity by the fallback, or a valid finite point. -/
theorem addFinite_cases {c : Curve} (hp : 0 < c.p) (xP yP xQ yQ : Int) :
    addFinite c xP yP xQ yQ = (.inf, true) ∨
      ∃ x y, addFinite c xP yP xQ yQ = (.fin x y, false) ∧ validPoint c (.fin x y) = true := by
  unfold addFinite
  dsimp only
  split
  · exact .inl rfl
  · split
    · exact .inl rfl
    · rename_i h
      right
      refine ⟨_, _, rfl, ?_⟩
      simp only [validPoint, Bool.and_eq_true, inRange_iff]
      exact ⟨⟨imod_nonneg _ hp, imod_lt _ hp, imod_nonneg _ hp, imod_lt _ hp⟩, by simpa using h⟩

/-- The sum of valid points is a valid point (R214, closure). -/
theorem ecAdd_valid {c : Curve} (hp : 0 < c.p) {P Q : Point} (hP : validPoint c P = true) (hQ : validPoint c Q = true) :
    validPoint c (ecAdd c P Q).1 = true := by
  cases P with
  | inf => exact hQ
  | fin xP yP =>
    cases Q with
    | inf => exact hP
    | fin xQ yQ =>
      simp only [ecAdd]
      split
      · rfl
      · rcases addFinite_cases hp xP yP xQ yQ with h | ⟨x, y, h, hv⟩
        · rw [h]; rfl
        · rw [h]; exact hv

theorem smulTurn_valid {c : Curve} (hp : 0 < c.p) {G : Point} (hG : validPoint c G = true) (b : Int) {r : Point × Bool}
    (hr : validPoint c r.1 = true) : validPoint c (smulTurn c G b r).1 = true := by
  simp only [smulTurn]
  split
  · exact ecAdd_valid hp (ecAdd_valid hp hr hr) hG
  · exact ecAdd_valid hp hr hr

theorem smulLoop_valid {c : Curve} (hp : 0 < c.p) {G : Point} (hG : validPoint c G = true) (k : Int) (n : Nat)
    {r : Point × Bool} (hr : validPoint c r.1 = true) : validPoint c (smulLoop c G k n r).1 = true := by
  induction n generalizing r with
  | zero => exact hr
  | succ n ih => exact ih (smulTurn_valid hp hG _ hr)

/-- A multiple of a valid point is a valid point (R222). -/
theorem ecSmul_valid {c : Curve} (hp : 0 < c.p) (k : Int) {G : Point} (hG : validPoint c G = true) :
    validPoint c (ecSmul c k G).1 = true := by
  unfold ecSmul
  split
  · rfl
  · exact smulLoop_valid hp hG k _ hG

/-! ### enumeration -/

/-- Everything the linear search can answer (R237): the least root of the range, or that there is none. -/
theorem leastRoot_spec (p r : Int) (n : Nat) (y : Int) :
    (∃ z, leastRoot p r n y = some z ∧ y ≤ z ∧ z < y + n ∧ imod (z * z) p = r ∧ ∀ u, y ≤ u → u < z → imod (u * u) p ≠ r) ∨
      (leastRoot p r n y = none ∧ ∀ u, y ≤ u → u < y + n → imod (u * u) p ≠ r) := by
  induction n generalizing y with
  | zero => right; exact ⟨rfl, fun u h1 h2 => by simp at h2; omega⟩
  | succ n ih =>
    simp only [leastRoot]
    split
    · rename_i h
      left
      exact ⟨y, rfl, le_rfl, by push_cast; omega, h, fun u h1 h2 => by omega⟩
    · rename_i h
      have hy : ∀ {u}, y ≤ u → (u = y ∨ y + 1 ≤ u) := fun h => by omega
      rcases ih (y + 1) with ⟨z, h1, h2, h3, h4, h5⟩ | ⟨h1, h2⟩
      · left
        refine ⟨z, h1, by omega, by push_cast; omega, h4, fun u hu1 hu2 => ?_⟩
        rcases hy hu1 with rfl | hu
        · exact h
        · exact h5 u hu hu2
      · right
        refine ⟨h1, fun u hu1 hu2 => ?_⟩
        rcases hy hu1 with rfl | hu
        · exact h
        · exact h2 u hu (by push_cast at hu2; omega)

/-- Everything R237 appends for one `x` of `[0, p)`: at most two valid points with that `x`. -/
theorem pointsAt_spec {c : Curve} (hp : 1 < c.p) {x : Int} (h0 : 0 ≤ x) (h1 : x < c.p) :
    (pointsAt c x).length ≤ 2 ∧
      ∀ e ∈ pointsAt c x, e.1 = x ∧ validPoint c (.fin e.1 e.2) = true := by
  simp only [pointsAt]
  split
  · rename_i hr
    simp only [List.length_singleton, List.mem_singleton, forall_eq]
    refine ⟨by omega, trivial, ?_⟩
    simp only [validPoint, Bool.and_eq_true, inRange_iff, oncurve_fin_iff]
    exact ⟨⟨h0, h1, le_rfl, by omega⟩, by simpa using hr.symm⟩
  · rcases leastRoot_spec c.p (imod (x * x * x + c.a * x + c.b) c.p) (c.p - 1).toNat 1 with
      ⟨z, hz, hz1, hz2, hz3, -⟩ | ⟨hz, -⟩
    · rw [hz]
      have hzp : z < c.p := by omega
      simp only [List.length_cons, List.length_nil, List.mem_cons, List.not_mem_nil, or_false]
      refine ⟨by omega, ?_⟩
      rintro e (rfl | rfl)
      all_goals
        refine ⟨rfl, ?_⟩
        simp only [validPoint, Bool.and_eq_true, inRange_iff, oncurve_fin_iff]
        refine ⟨⟨h0, h1, by omega, by omega⟩, ?_⟩
      · exact hz3
      · refine Eq.trans ?_ hz3
        have : (c.p - z) * (c.p - z) = z * z + c.p * (c.p - 2 * z) := by ring
        rw [this, Int.add_mul_emod_self_left]
    · rw [hz]; simp

/-- The list of R237 holds at most `2 · p` points, all canonical and on the curve. -/
theorem ecPoints_spec {c : Curve} (hp : 1 < c.p) :
    ((ecPoints c).length : Int) ≤ 2 * c.p ∧ ∀ e ∈ ecPoints c, validPoint c (.fin e.1 e.2) = true := by
  have hx : ∀ x ∈ List.range c.p.toNat, (0 : Int) ≤ (x : Int) ∧ (x : Int) < c.p := by
    intro x hx; rw [List.mem_range] at hx; omega
  refine ⟨?_, ?_⟩
  · have key : ∀ l : List Nat, (∀ x ∈ l, (0 : Int) ≤ (x : Int) ∧ (x : Int) < c.p) →
        (l.flatMap fun (x : Nat) => pointsAt c (x : Int)).length ≤ 2 * l.length := by
      intro l hl
      induction l with
      | nil => simp
      | cons a l ih =>
        rw [List.forall_mem_cons] at hl
        have := (pointsAt_spec hp hl.1.1 hl.1.2).1
        have := ih hl.2
        simp only [List.flatMap_cons, List.length_append, List.length_cons]
        omega
    have := key _ hx
    rw [List.length_range] at this
    unfold ecPoints
    omega
  · intro e he
    rw [ecPoints, List.mem_flatMap] at he
    obtain ⟨x, hm, he⟩ := he
    exact ((pointsAt_spec hp (hx x hm).1 (hx x hm).2).2 e he).2

end Sys2Proof.Machine
end

