-- ==== Sys2Proof/Laws/Decode.lean ====
section
/-! SUPPORT. Command words field by field (spec R91): a word is its fields, a row selects a word field by field, and the fields of an encoded
command are the ones put in. -/

namespace Sys2Proof

/-- Two words are equal exactly when their eight fields are (R91). -/
theorem word_eq_iff_fields (a b : Word) :
    a = b ↔ a.extractLsb' 32 32 = b.extractLsb' 32 32 ∧ a.extractLsb' 24 8 = b.extractLsb' 24 8 ∧
      fieldRd a = fieldRd b ∧ fieldRs1 a = fieldRs1 b ∧ fieldRs2 a = fieldRs2 b ∧ fieldRs3 a = fieldRs3 b ∧
      a.extractLsb' 1 7 = b.extractLsb' 1 7 ∧ a.extractLsb' 0 1 = b.extractLsb' 0 1 := by
  constructor
  · rintro rfl; simp
  · rintro ⟨h1, h2, h3, h4, h5, h6, h7, h8⟩
    simp only [fieldRd, fieldRs1, fieldRs2, fieldRs3] at h3 h4 h5 h6
    have key : ∀ {st n : Nat}, a.extractLsb' st n = b.extractLsb' st n →
        ∀ i, st ≤ i → i < st + n → a.getLsbD i = b.getLsbD i := by
      intro st n h i hi hlt
      have := congrArg (fun v => v.getLsbD (i - st)) h
      simpa [BitVec.getLsbD_extractLsb', show i - st < n by omega, show st + (i - st) = i by omega] using this
    refine BitVec.eq_of_getLsbD_eq fun i hi => ?_
    rcases Nat.lt_or_ge i 1 with h | h
    · exact key h8 i (by omega) (by omega)
    rcases Nat.lt_or_ge i 8 with h | h
    · exact key h7 i (by omega) (by omega)
    rcases Nat.lt_or_ge i 12 with h | h
    · exact key h6 i (by omega) (by omega)
    rcases Nat.lt_or_ge i 16 with h | h
    · exact key h5 i (by omega) (by omega)
    rcases Nat.lt_or_ge i 20 with h | h
    · exact key h4 i (by omega) (by omega)
    rcases Nat.lt_or_ge i 24 with h | h
    · exact key h3 i (by omega) (by omega)
    rcases Nat.lt_or_ge i 32 with h | h
    · exact key h2 i (by omega) (by omega)
    · exact key h1 i (by omega) (by omega)

/-- A row selects a word exactly when it does so in every field. -/
theorem selects_iff_fields (r : OpRow) (w : Word) :
    r.selects w = true ↔
      w.extractLsb' 32 32 &&& r.mask.extractLsb' 32 32 = r.bits.extractLsb' 32 32 ∧
      w.extractLsb' 24 8 &&& r.mask.extractLsb' 24 8 = r.bits.extractLsb' 24 8 ∧
      fieldRd w &&& fieldRd r.mask = fieldRd r.bits ∧ fieldRs1 w &&& fieldRs1 r.mask = fieldRs1 r.bits ∧
      fieldRs2 w &&& fieldRs2 r.mask = fieldRs2 r.bits ∧ fieldRs3 w &&& fieldRs3 r.mask = fieldRs3 r.bits ∧
      w.extractLsb' 1 7 &&& r.mask.extractLsb' 1 7 = r.bits.extractLsb' 1 7 ∧
      w.extractLsb' 0 1 &&& r.mask.extractLsb' 0 1 = r.bits.extractLsb' 0 1 := by
  rw [OpRow.selects, beq_iff_eq, word_eq_iff_fields]
  simp only [fieldRd, fieldRs1, fieldRs2, fieldRs3, BitVec.extractLsb'_and]

section
variable (op : Op) (a b c d : BitVec 4)

@[simp] theorem cmdWord_zhi : (cmdWord op a b c d).extractLsb' 32 32 = 0 := by
  refine BitVec.eq_of_getLsbD_eq fun i hi => ?_
  interval_cases i <;> simp [cmdWord, placeAt]

@[simp] theorem cmdWord_op : (cmdWord op a b c d).extractLsb' 24 8 = op.code := by
  refine BitVec.eq_of_getLsbD_eq fun i hi => ?_
  interval_cases i <;> simp [cmdWord, placeAt]

@[simp] theorem cmdWord_rd : fieldRd (cmdWord op a b c d) = a := by
  refine BitVec.eq_of_getLsbD_eq fun i hi => ?_
  interval_cases i <;> simp [fieldRd, cmdWord, placeAt]

@[simp] theorem cmdWord_rs1 : fieldRs1 (cmdWord op a b c d) = b := by
  refine BitVec.eq_of_getLsbD_eq fun i hi => ?_
  interval_cases i <;> simp [fieldRs1, cmdWord, placeAt]

@[simp] theorem cmdWord_rs2 : fieldRs2 (cmdWord op a b c d) = c := by
  refine BitVec.eq_of_getLsbD_eq fun i hi => ?_
  interval_cases i <;> simp [fieldRs2, cmdWord, placeAt]

@[simp] theorem cmdWord_rs3 : fieldRs3 (cmdWord op a b c d) = d := by
  refine BitVec.eq_of_getLsbD_eq fun i hi => ?_
  interval_cases i <;> simp [fieldRs3, cmdWord, placeAt]

@[simp] theorem cmdWord_zlo : (cmdWord op a b c d).extractLsb' 1 7 = 0 := by
  refine BitVec.eq_of_getLsbD_eq fun i hi => ?_
  interval_cases i <;> simp [cmdWord, placeAt]

@[simp] theorem cmdWord_nb : (cmdWord op a b c d).extractLsb' 0 1 = op.nb := by
  refine BitVec.eq_of_getLsbD_eq fun i hi => ?_
  interval_cases i
  simp [cmdWord, placeAt]

end

@[simp] theorem xReg_xField (r : XReg) : xReg (xField r) = r := rfl

@[simp] theorem pReg_pField (r : PReg) : pReg (pField r) = r := by revert r; decide

theorem pField_masked (r : PReg) : pField r &&& 0xC = 0 := by revert r; decide

theorem xField_xReg (f : BitVec 4) : xField (xReg f) = f := rfl

theorem pField_pReg {f : BitVec 4} (h : f &&& 0xC = 0) : pField (pReg f) = f := by revert f; decide

end Sys2Proof
end

