-- ==== Sys2Proof/Laws/Memory.lean ====
section
/-! SUPPORT. `EBUF`: a read after a write, and that every operation keeps the canonical form, so that equal contents are equal data. -/

namespace Sys2Proof.Machine

theorem memoryWfFrom_cons {lo j : Nat} {e : Entry} {m : Memory} :
    memoryWfFrom lo ((j, e) :: m) = true ↔ lo ≤ j ∧ e ≠ unlistedEntry ∧ memoryWfFrom (j + 1) m = true := by
  simp [memoryWfFrom, and_assoc]

theorem memoryWfFrom_mono {lo lo' : Nat} (h : lo' ≤ lo) {m : Memory} (hm : memoryWfFrom lo m = true) :
    memoryWfFrom lo' m = true := by
  cases m with
  | nil => rfl
  | cons x m =>
    obtain ⟨j, e⟩ := x
    rw [memoryWfFrom_cons] at hm ⊢
    exact ⟨by omega, hm.2⟩

/-- Below the bound of the canonical form every entry is unlisted. -/
theorem Memory.read_of_lt {lo : Nat} {m : Memory} (hm : memoryWfFrom lo m = true) {i : Nat} (hi : i < lo) :
    Memory.read m i = unlistedEntry := by
  induction m generalizing lo with
  | nil => rfl
  | cons x m ih =>
    obtain ⟨j, e⟩ := x
    rw [memoryWfFrom_cons] at hm
    rw [Memory.read, if_neg (by omega)]
    exact ih hm.2.2 (by omega)

theorem Memory.read_write_from {lo : Nat} {m : Memory} (hm : memoryWfFrom lo m = true) (j : Nat) (e : Entry) (i : Nat) :
    Memory.read (Memory.write m j e) i = if i = j then e else Memory.read m i := by
  induction m generalizing lo with
  | nil =>
    simp only [Memory.write]
    by_cases h : i = j
    · subst h
      split
      · rename_i he; rw [he, if_pos rfl, Memory.read]
      · rw [if_pos rfl, Memory.read, if_pos rfl]
    · rw [if_neg h]
      split
      · rfl
      · simp only [Memory.read, if_neg (Ne.symm h)]
  | cons x m ih =>
    obtain ⟨k, f⟩ := x
    rw [memoryWfFrom_cons] at hm
    have hlow : ∀ i, i ≤ k → Memory.read m i = unlistedEntry := fun i hi => Memory.read_of_lt hm.2.2 (by omega)
    simp only [Memory.write]
    split
    · rename_i hjk
      split
      · rename_i he
        subst he
        split
        · rename_i hij
          subst hij
          rw [Memory.read, if_neg (by omega), hlow i (by omega)]
        · rfl
      · rw [Memory.read]
        split
        · rename_i h; rw [if_pos h.symm]
        · rename_i h; rw [if_neg (Ne.symm h)]
    · split
      · rename_i hjk
        subst hjk
        split
        · rename_i he
          subst he
          split
          · rename_i hij; subst hij; exact hlow i le_rfl
          · rw [Memory.read, if_neg (by omega)]
        · by_cases h : i = j
          · subst h; rw [if_pos rfl, Memory.read, if_pos rfl]
          · rw [if_neg h, Memory.read, if_neg (Ne.symm h), Memory.read, if_neg (Ne.symm h)]
      · rw [Memory.read, ih hm.2.2]
        simp only [Memory.read]
        split <;> split <;> simp_all

/-- A read after a write: the entry written, and every other entry as before. -/
theorem Memory.read_write {m : Memory} (hm : m.wf = true) (j : Nat) (e : Entry) (i : Nat) :
    Memory.read (Memory.write m j e) i = if i = j then e else Memory.read m i :=
  Memory.read_write_from hm j e i

theorem memoryWfFrom_write {lo : Nat} {m : Memory} (hm : memoryWfFrom lo m = true) {j : Nat} (hj : lo ≤ j) (e : Entry) :
    memoryWfFrom lo (Memory.write m j e) = true := by
  induction m generalizing lo with
  | nil =>
    simp only [Memory.write]
    split
    · rfl
    · rw [memoryWfFrom_cons]; exact ⟨hj, by assumption, rfl⟩
  | cons x m ih =>
    obtain ⟨k, f⟩ := x
    have hm' := hm
    rw [memoryWfFrom_cons] at hm
    simp only [Memory.write]
    split
    · split
      · exact hm'
      · rw [memoryWfFrom_cons, memoryWfFrom_cons]
        exact ⟨hj, by assumption, by omega, hm.2.1, hm.2.2⟩
    · split
      · rename_i hjk
        subst hjk
        split
        · exact memoryWfFrom_mono (by omega) hm.2.2
        · rw [memoryWfFrom_cons]; exact ⟨hj, by assumption, hm.2.2⟩
      · rw [memoryWfFrom_cons]
        exact ⟨hm.1, hm.2.1, ih hm.2.2 (by omega)⟩

/-- Every write keeps the canonical form. -/
theorem Memory.wf_write {m : Memory} (hm : m.wf = true) (j : Nat) (e : Entry) : (Memory.write m j e).wf = true :=
  memoryWfFrom_write hm (Nat.zero_le j) e

theorem Memory.wf_writeList {m : Memory} (hm : m.wf = true) (start : Nat) (l : List Entry) :
    (Memory.writeList m start l).wf = true := by
  induction l generalizing m start with
  | nil => exact hm
  | cons e l ih => exact ih (Memory.wf_write hm start e) (start + 1)

/-- What a run of writes from `start` leaves (R236): the list, and every other entry as before. -/
theorem Memory.read_writeList {m : Memory} (hm : m.wf = true) (start : Nat) (l : List Entry) (i : Nat) :
    Memory.read (Memory.writeList m start l) i =
      if start ≤ i then l.getD (i - start) (Memory.read m i) else Memory.read m i := by
  induction l generalizing m start with
  | nil => simp [Memory.writeList]
  | cons e l ih =>
    rw [Memory.writeList, ih (Memory.wf_write hm start e), Memory.read_write hm]
    by_cases h : i = start
    · subst h; simp
    · by_cases h' : start ≤ i
      · obtain ⟨d, rfl⟩ : ∃ d, i = start + 1 + d := ⟨i - (start + 1), by omega⟩
        rw [if_pos (by omega), if_pos h', if_neg h, Nat.add_sub_cancel_left,
          show start + 1 + d - start = d + 1 by omega, List.getD_cons_succ]
      · rw [if_neg (by omega), if_neg h', if_neg h]

theorem Memory.ext_from {lo : Nat} {m n : Memory} (hm : memoryWfFrom lo m = true) (hn : memoryWfFrom lo n = true)
    (h : ∀ i, Memory.read m i = Memory.read n i) : m = n := by
  induction m generalizing lo n with
  | nil =>
    cases n with
    | nil => rfl
    | cons y n =>
      obtain ⟨k, f⟩ := y
      rw [memoryWfFrom_cons] at hn
      have := h k
      simp only [Memory.read, if_true] at this
      exact absurd this.symm hn.2.1
  | cons x m ih =>
    obtain ⟨j, e⟩ := x
    rw [memoryWfFrom_cons] at hm
    cases n with
    | nil =>
      have := h j
      simp only [Memory.read, if_true] at this
      exact absurd this hm.2.1
    | cons y n =>
      obtain ⟨k, f⟩ := y
      rw [memoryWfFrom_cons] at hn
      have hj := h j
      have hk := h k
      simp only [Memory.read, if_true] at hj hk
      rcases lt_trichotomy j k with hlt | heq | hgt
      · rw [if_neg (by omega), Memory.read_of_lt hn.2.2 (by omega)] at hj
        exact absurd hj hm.2.1
      · subst heq
        simp only [if_true] at hj
        subst hj
        rw [ih hm.2.2 hn.2.2]
        intro i
        by_cases hi : j = i
        · subst hi; rw [Memory.read_of_lt hm.2.2 (by omega), Memory.read_of_lt hn.2.2 (by omega)]
        · have := h i; simpa only [Memory.read, if_neg hi] using this
      · rw [if_neg (by omega), Memory.read_of_lt hm.2.2 (by omega)] at hk
        exact absurd hk.symm hn.2.1

/-- Equal contents are equal data. -/
theorem Memory.ext {m n : Memory} (hm : m.wf = true) (hn : n.wf = true) (h : ∀ i, Memory.read m i = Memory.read n i) :
    m = n :=
  Memory.ext_from hm hn h

/-- Every listed entry satisfies `P` after a write, if it did before and the entry written does. -/
theorem Memory.forall_write {P : Nat × Entry → Prop} {m : Memory} (hm : ∀ x ∈ m, P x) {j : Nat} {e : Entry} (he : P (j, e)) :
    ∀ x ∈ Memory.write m j e, P x := by
  induction m with
  | nil =>
    simp only [Memory.write]
    split
    · exact fun x hx => absurd hx List.not_mem_nil
    · exact List.forall_mem_singleton.2 he
  | cons y m ih =>
    obtain ⟨k, f⟩ := y
    have hm' := List.forall_mem_cons.1 hm
    simp only [Memory.write]
    split
    · split
      · exact hm
      · exact List.forall_mem_cons.2 ⟨he, hm⟩
    · split
      · split
        · exact hm'.2
        · exact List.forall_mem_cons.2 ⟨he, hm'.2⟩
      · exact List.forall_mem_cons.2 ⟨hm'.1, ih hm'.2⟩

theorem Memory.forall_writeList {P : Nat × Entry → Prop} {m : Memory} (hm : ∀ x ∈ m, P x) (start : Nat) {l : List Entry}
    (hl : ∀ i (h : i < l.length), P (start + i, l[i])) : ∀ x ∈ Memory.writeList m start l, P x := by
  induction l generalizing m start with
  | nil => exact hm
  | cons e l ih =>
    refine ih (Memory.forall_write hm (hl 0 (by simp))) (start + 1) fun i h => ?_
    have := hl (i + 1) (by simpa using h)
    rw [Nat.add_assoc, Nat.add_comm 1 i]
    exact this

end Sys2Proof.Machine
end

