-- ==== Sys2Proof/Laws/PerInstr.lean ====
section
/-! SUPPORT. The family `EncodesOwnRow`, one lemma per command: its encoding selects its own row of the opcode map (spec R95, R103). -/

namespace Sys2Proof.Laws.EncodesOwnRow

/-- The word of the command selects the row of its mnemonic. -/
def Statement (i : Instr) : Prop := ∃ r ∈ opRows, r.op = i.op ∧ r.selects (encode i) = true

/-- A row selects an encoded command when its bits are the command's `OP` and `NB` and its mask leaves nothing of the register fields. -/
theorem of_row {i : Instr} (k : Fin 15) (o : Op) (hi : i.op = o) {a b c d : BitVec 4} (he : encode i = cmdWord o a b c d)
    (hrow : opRows[k].op = o ∧ o.code &&& opRows[k].mask.extractLsb' 24 8 = opRows[k].bits.extractLsb' 24 8 ∧
      o.nb &&& opRows[k].mask.extractLsb' 0 1 = opRows[k].bits.extractLsb' 0 1)
    (ha : a &&& fieldRd opRows[k].mask = 0) (hb : b &&& fieldRs1 opRows[k].mask = 0)
    (hc : c &&& fieldRs2 opRows[k].mask = 0) (hd : d &&& fieldRs3 opRows[k].mask = 0) : Statement i := by
  obtain ⟨ho, h1, h2⟩ := hrow
  have hz : ∀ r ∈ opRows, r.bits.extractLsb' 32 32 = 0 ∧ r.bits.extractLsb' 1 7 = 0 ∧ fieldRd r.bits = 0 ∧
      fieldRs1 r.bits = 0 ∧ fieldRs2 r.bits = 0 ∧ fieldRs3 r.bits = 0 := by decide
  have hk : opRows[k] ∈ opRows := List.getElem_mem _
  obtain ⟨z1, z2, z3, z4, z5, z6⟩ := hz _ hk
  refine ⟨opRows[k], hk, ho.trans hi.symm, ?_⟩
  rw [selects_iff_fields, he]
  simp only [cmdWord_zhi, cmdWord_op, cmdWord_rd, cmdWord_rs1, cmdWord_rs2, cmdWord_rs3, cmdWord_zlo, cmdWord_nb, h1, h2, ha,
    hb, hc, hd, z1, z2, z3, z4, z5, z6]
  simp

theorem modmul (rd : XReg) (rs1 : XReg) (rs2 : XReg) (rs3 : XReg) : Statement (.modmul rd rs1 rs2 rs3) :=
  of_row 0 .modmul rfl rfl (by decide) BitVec.and_zero BitVec.and_zero BitVec.and_zero BitVec.and_zero

theorem gcd (rd : XReg) (rs1 : XReg) (rs2 : XReg) : Statement (.gcd rd rs1 rs2) :=
  of_row 1 .gcd rfl rfl (by decide) BitVec.and_zero BitVec.and_zero BitVec.and_zero rfl

theorem modinv (rd : XReg) (rs1 : XReg) (rs2 : XReg) : Statement (.modinv rd rs1 rs2) :=
  of_row 2 .modinv rfl rfl (by decide) BitVec.and_zero BitVec.and_zero BitVec.and_zero rfl

theorem powmod (rd : XReg) (rs1 : XReg) (rs2 : XReg) (rs3 : XReg) : Statement (.powmod rd rs1 rs2 rs3) :=
  of_row 3 .powmod rfl rfl (by decide) BitVec.and_zero BitVec.and_zero BitVec.and_zero BitVec.and_zero

theorem isprime (rd : XReg) (rs1 : XReg) : Statement (.isprime rd rs1) :=
  of_row 4 .isprime rfl rfl (by decide) BitVec.and_zero BitVec.and_zero rfl rfl

theorem genprime (rd : XReg) (rs1 : XReg) : Statement (.genprime rd rs1) :=
  of_row 5 .genprime rfl rfl (by decide) BitVec.and_zero BitVec.and_zero rfl rfl

theorem sample (rd : XReg) (rs1 : XReg) (rs2 : XReg) : Statement (.sample rd rs1 rs2) :=
  of_row 6 .sample rfl rfl (by decide) BitVec.and_zero BitVec.and_zero BitVec.and_zero rfl

theorem findgen (rd : XReg) (rs1 : XReg) : Statement (.findgen rd rs1) :=
  of_row 7 .findgen rfl rfl (by decide) BitVec.and_zero BitVec.and_zero rfl rfl

theorem ecset (rs1 : XReg) (rs2 : XReg) (rs3 : XReg) : Statement (.ecset rs1 rs2 rs3) :=
  of_row 8 .ecset rfl rfl (by decide) rfl BitVec.and_zero BitVec.and_zero BitVec.and_zero

theorem ecsetnb (rs1 : XReg) (rs3 : XReg) : Statement (.ecsetnb rs1 rs3) :=
  of_row 9 .ecsetnb rfl rfl (by decide) rfl BitVec.and_zero rfl BitVec.and_zero

theorem econcrv (rd : XReg) (rs1 : PReg) : Statement (.econcrv rd rs1) :=
  of_row 10 .econcrv rfl rfl (by decide) BitVec.and_zero (pField_masked rs1) rfl rfl

theorem ecadd (rd : PReg) (rs1 : PReg) (rs2 : PReg) : Statement (.ecadd rd rs1 rs2) :=
  of_row 11 .ecadd rfl rfl (by decide) (pField_masked rd) (pField_masked rs1) (pField_masked rs2) rfl

theorem ecdbl (rd : PReg) (rs1 : PReg) : Statement (.ecdbl rd rs1) :=
  of_row 12 .ecdbl rfl rfl (by decide) (pField_masked rd) (pField_masked rs1) rfl rfl

theorem ecsmul (rd : PReg) (rs1 : XReg) (rs2 : PReg) : Statement (.ecsmul rd rs1 rs2) :=
  of_row 13 .ecsmul rfl rfl (by decide) (pField_masked rd) BitVec.and_zero (pField_masked rs2) rfl

theorem ecenum (rd : XReg) : Statement (.ecenum rd) :=
  of_row 14 .ecenum rfl rfl (by decide) BitVec.and_zero rfl rfl rfl

end Sys2Proof.Laws.EncodesOwnRow
end

