-- ==== Sys2Proof/Laws/Search.lean ====
section
/-! SUPPORT. What the two searches can answer: the prime search of GENPRIME (spec R172, R173) and the generator search of FINDGEN
(R186 to R188). -/

namespace Sys2Proof.Machine

/-! ### GENPRIME -/

/-- A fresh sample has exactly `tb` bits and is odd (R172, R309). -/
theorem candidate_spec {tb : Nat} (h : 1 ≤ tb) (g : Source) :
    2 ^ (tb - 1) ≤ (candidate tb g).1 ∧ (candidate tb g).1 < 2 ^ tb ∧ (candidate tb g).1 % 2 = 1 := by
  have hd := draw_spec (lo := 0) (hi := 2 ^ tb) (by positivity) g
  have hp : (0 : Int) ≤ 2 ^ (tb - 1) := by positivity
  have hlt : (2 : Int) ^ (tb - 1) < 2 ^ tb := pow_lt_pow_right₀ (by norm_num) (by omega)
  have h1 : (1 : Int) < 2 ^ tb := one_lt_pow₀ (by norm_num) (by omega)
  refine ⟨?_, ?_, ior_one_odd _⟩
  · exact (le_ior_right (draw 0 (2 ^ tb) g).1 hp).trans (le_ior_left 1 (ior_nonneg _ _))
  · exact ior_lt (ior_lt hd.2.1 hlt) h1

theorem refresh_spec {tb : Nat} (h : 1 ≤ tb) {c : Int} (hc : c % 2 = 1) (g : Source) :
    2 ^ (tb - 1) ≤ (refresh tb c g).1 ∧ (refresh tb c g).1 < 2 ^ tb ∧ (refresh tb c g).1 % 2 = 1 := by
  unfold refresh
  split
  · rename_i hb
    have := (bitlen_eq_iff h).1 hb
    exact ⟨this.1, this.2, hc⟩
  · exact candidate_spec h g

/-- Whatever the search returns has exactly `tb` bits, is odd, and is the number whose last test passed (R173). -/
theorem probeLoop_spec {tb : Nat} (h : 1 ≤ tb) (n : Nat) {c : Int} (hc : c % 2 = 1) (g : Source) {r : Int}
    (hr : (probeLoop tb n c g).1 = some r) :
    2 ^ (tb - 1) ≤ r ∧ r < 2 ^ tb ∧ r % 2 = 1 ∧
      ∃ g', (isprimeOf r g').1 = true ∧ (isprimeOf r g').2 = (probeLoop tb n c g).2 := by
  induction n generalizing c g with
  | zero => simp [probeLoop] at hr
  | succ n ih =>
    have hs := refresh_spec h hc g
    simp only [probeLoop] at hr ⊢
    split
    · rename_i hv
      rw [if_pos hv] at hr
      obtain rfl := Option.some.inj hr
      exact ⟨hs.1, hs.2.1, hs.2.2, _, hv, rfl⟩
    · rename_i hv
      rw [if_neg hv] at hr
      exact ih (by omega) _ hr

theorem searchPrime_spec {tb : Nat} (h : 1 ≤ tb) (n : Nat) (g : Source) {r : Int} (hr : (searchPrime tb n g).1 = some r) :
    2 ^ (tb - 1) ≤ r ∧ r < 2 ^ tb ∧ r % 2 = 1 ∧
      ∃ g', (isprimeOf r g').1 = true ∧ (isprimeOf r g').2 = (searchPrime tb n g).2 :=
  probeLoop_spec h n (candidate_spec h g).2.2 _ hr

/-- When the first sample is a prime, the search returns it at the first probe. -/
theorem searchPrime_of_prime {tb n : Nat} (h : 1 ≤ tb) (hn : 1 ≤ n) (g : Source)
    (hp : (candidate tb g).1.toNat.Prime) :
    searchPrime tb n g = (some (candidate tb g).1, (isprimeOf (candidate tb g).1 (candidate tb g).2).2) := by
  obtain ⟨n, rfl⟩ : ∃ k, n = k + 1 := ⟨n - 1, by omega⟩
  have hs := candidate_spec h g
  have hb : bitlen (candidate tb g).1 = tb := (bitlen_eq_iff h).2 ⟨hs.1, hs.2.1⟩
  have h0 : (0 : Int) ≤ (candidate tb g).1 := le_trans (by positivity) hs.1
  have hv := isprimeOf_of_prime hp (candidate tb g).2
  rw [Int.toNat_of_nonneg h0] at hv
  simp only [searchPrime, probeLoop, refresh, hb, if_true, hv]

/-! ### FINDGEN -/

theorem windowLoop_iff (g p : Int) (n : Nat) (v : Int) (seen : List Int) :
    windowLoop g p n v seen = true ↔
      (∀ i < n, ∀ j < i, imod (v * g ^ (i + 1)) p ≠ imod (v * g ^ (j + 1)) p) ∧
        (∀ i < n, imod (v * g ^ (i + 1)) p ∉ seen) := by
  induction n generalizing v seen with
  | zero => simp [windowLoop]
  | succ n ih =>
    have hpow : ∀ i : Nat, imod (imod (v * g) p * g ^ (i + 1)) p = imod (v * g ^ (i + 2)) p := by
      intro i
      have : v * g ^ (i + 2) = v * g * g ^ (i + 1) := by ring
      rw [this]
      exact (Int.mod_modEq (v * g) p).mul_right _
    simp only [windowLoop]
    split
    · rename_i hs
      simp only [Bool.false_eq_true, false_iff, not_and]
      intro _ h2
      exact h2 0 (by omega) (by simpa using hs)
    · rename_i hs
      rw [ih]
      simp only [hpow, List.mem_cons, not_or]
      constructor
      · rintro ⟨h1, h2⟩
        refine ⟨?_, ?_⟩
        · rintro (_ | i) hi (_ | j) hj
          · omega
          · omega
          · simpa using (h2 i (by omega)).1
          · exact h1 i (by omega) j (by omega)
        · rintro (_ | i) hi
          · simpa using hs
          · exact (h2 i (by omega)).2
      · rintro ⟨h1, h2⟩
        refine ⟨fun i hi j hj => h1 (i + 1) (by omega) (j + 1) (by omega), fun i hi => ⟨?_, h2 (i + 1) (by omega)⟩⟩
        simpa using h1 (i + 1) (by omega) 0 (by omega)

/-- The window test passes exactly when the first `w` powers are pairwise distinct (R187). -/
theorem windowOk_iff (g p : Int) (w : Nat) :
    windowOk g p w = true ↔ ∀ i j : Nat, 1 ≤ j → j < i → i ≤ w → imod (g ^ i) p ≠ imod (g ^ j) p := by
  rw [windowOk, windowLoop_iff]
  simp only [one_mul, List.not_mem_nil, not_false_eq_true, implies_true, and_true]
  constructor
  · intro h i j h1 h2 h3
    have := h (i - 1) (by omega) (j - 1) (by omega)
    rwa [Nat.sub_add_cancel (by omega), Nat.sub_add_cancel h1] at this
  · intro h i hi j hj
    exact h (i + 1) (j + 1) (by omega) (by omega) (by omega)

theorem advance_range {pp g : Int} (h : 2 < pp) (h0 : 2 ≤ g) : 2 ≤ advance pp g ∧ advance pp g < pp := by
  unfold advance; split <;> omega

/-- Whatever the search returns is in `[2, pp − 1]` and passes the window test (R188). -/
theorem tryLoop_spec {pp : Int} (h : 2 < pp) (w n : Nat) {g r : Int} (h0 : 2 ≤ g) (h1 : g < pp)
    (hr : tryLoop pp w n g = some r) : 2 ≤ r ∧ r < pp ∧ windowOk r pp w = true := by
  induction n generalizing g with
  | zero => simp [tryLoop] at hr
  | succ n ih =>
    simp only [tryLoop] at hr
    split at hr
    · rename_i hw
      obtain rfl := Option.some.inj hr
      exact ⟨h0, h1, hw⟩
    · have := advance_range h h0
      exact ih this.1 this.2 hr

end Sys2Proof.Machine
end

