-- ==== Sys2Proof/Laws/Window.lean ====
section
/-! SUPPORT. The register window: limbs of a wide register (spec R66), byte lanes (R67), and accesses beside what still waits at the port. -/

namespace Sys2Proof.Machine

/-- Writing a limb and reading any limb of the register (R66): the limb written, every other limb as before. -/
theorem limbOf_putLimb {w j k : Nat} (hj : 64 * j + 64 ≤ w) (hk : 64 * k + 64 ≤ w) (v : Int) (d : Word) :
    limbOf w (putLimb w v j d) k = if k = j then d else limbOf w v k := by
  refine BitVec.eq_of_getLsbD_eq fun i hi => ?_
  have hiw : 64 * k + i < w := by omega
  simp only [limbOf, putLimb, signedW, sextW, BitVec.ofInt_toInt, BitVec.getLsbD_extractLsb', hi, decide_true,
    Bool.true_and, BitVec.getLsbD_or, BitVec.getLsbD_and, BitVec.getLsbD_not, BitVec.getLsbD_shiftLeft, hiw,
    BitVec.getLsbD_setWidth, BitVec.getLsbD_allOnes]
  by_cases h : k = j
  · subst h
    simp [hi, show 64 * k + i - 64 * k = i by omega, show i < w by omega]
  · rw [if_neg h]
    rcases Nat.lt_or_gt_of_ne h with h' | h'
    · simp [hi, show 64 * k + i < 64 * j by omega]
    · have h1 : ¬ 64 * k + i < 64 * j := by omega
      have h2 : ¬ 64 * k + i - 64 * j < 64 := by omega
      have h3 : d.getLsbD (64 * k + i - 64 * j) = false := BitVec.getLsbD_of_ge _ _ (by omega)
      simp [hi, h1, h2, h3]

/-- A register holds a value that fits after any limb write (R22). -/
theorem fits_putLimb {w : Nat} (hw : 1 ≤ w) (v : Int) (j : Nat) (d : Word) : fits w (putLimb w v j d) = true := by
  rw [fits_iff]
  unfold putLimb signedW
  have h1 := BitVec.le_toInt ((sextW w v &&& ~~~((BitVec.allOnes 64).setWidth w <<< (64 * j))) ||| (d.setWidth w <<< (64 * j)))
  have h2 := BitVec.toInt_lt (x := (sextW w v &&& ~~~((BitVec.allOnes 64).setWidth w <<< (64 * j))) ||| (d.setWidth w <<< (64 * j)))
  have h3 : (2 : Int) ^ w = 2 * 2 ^ (w - 1) := by
    obtain ⟨k, rfl⟩ : ∃ k, w = k + 1 := ⟨w - 1, by omega⟩
    simp [pow_succ]; ring
  omega

/-- A register that holds a value its width can hold gives that value back (R12, R22). -/
theorem signedW_sextW {w : Nat} (hw : 1 ≤ w) {v : Int} (h : fits w v = true) : signedW (sextW w v) = v := by
  rw [fits_iff] at h
  obtain ⟨k, rfl⟩ : ∃ k, w = k + 1 := ⟨w - 1, by omega⟩
  simp only [Nat.add_sub_cancel] at h
  unfold signedW sextW
  rw [BitVec.toInt_ofInt, Int.bmod_eq_of_le]
  · have : ((2 ^ (k + 1) : Nat) : Int) / 2 = 2 ^ k := by push_cast; rw [pow_succ]; simp
    omega
  · have : (((2 ^ (k + 1) : Nat) : Int) + 1) / 2 = 2 ^ k := by push_cast; rw [pow_succ]; omega
    omega

/-- The byte lanes of a word make the word again (R67). -/
theorem ofByteLanes_byteLane (v : Word) :
    ofByteLanes (byteLane v 0) (byteLane v 1) (byteLane v 2) (byteLane v 3) (byteLane v 4) (byteLane v 5) (byteLane v 6)
      (byteLane v 7) = v := by
  refine BitVec.eq_of_getLsbD_eq fun i hi => ?_
  interval_cases i <;> simp [ofByteLanes, byteLane, placeAt]

/-- Limb `j` as a number: bits `64·j + 63 : 64·j` of the two's-complement form of the integer held (R66). -/
theorem limbOf_toNat {w j : Nat} (h : 64 * j + 64 ≤ w) (v : Int) : ((limbOf w v j).toNat : Int) = v / 2 ^ (64 * j) % 2 ^ 64 := by
  simp only [limbOf, sextW, BitVec.extractLsb'_toNat, BitVec.toNat_ofInt, Nat.shiftRight_eq_div_pow]
  push_cast
  rw [Int.toNat_of_nonneg (Int.emod_nonneg _ (by positivity))]
  obtain ⟨k, rfl⟩ : ∃ k, w = 64 * j + 64 + k := ⟨w - (64 * j + 64), by omega⟩
  have e : (2 : Int) ^ (64 * j + 64 + k) = 2 ^ (64 * j) * (2 ^ 64 * 2 ^ k) := by rw [← pow_add, ← pow_add]; congr 1; omega
  have h1 : v % (2 ^ (64 * j) * (2 ^ 64 * 2 ^ k)) =
      v + 2 ^ (64 * j) * (2 ^ 64 * -(2 ^ k * (v / (2 ^ (64 * j) * (2 ^ 64 * 2 ^ k))))) := by rw [Int.emod_def]; ring
  rw [e, h1, Int.add_mul_ediv_left _ _ (by positivity), show (18446744073709551616 : Int) = 2 ^ 64 from rfl,
    Int.add_mul_emod_self_left]

/-- A read does not see the port (R53, R73). -/
@[simp] theorem memRead_setPort (s : State) (l : List PortEvent) (off size : Nat) :
    memRead (s.setPort l) off size = memRead s off size := rfl

/-- Neither does a write where it lands, and it leaves the port alone (R53, R295). -/
theorem writeLoc_setPort (s : State) (l : List PortEvent) (v : Word) (loc : Loc) :
    writeLoc (s.setPort l) v loc = (writeLoc s v loc).map (·.setPort l) := by
  obtain ⟨x, p, ca, cb, cp, ir, busy, done, fault, ni, cv, fb, cause, sub, dIe, fIe, esel, ecnt, ebuf, env⟩ := s
  cases loc with
  | ctl r =>
    cases r with
    | cmd => cases busy <;> cases fault <;> rfl
    | esel =>
      cases busy
      · by_cases h : v.toNat < env.params.ebufDepth <;> simp [writeLoc, ctlWrite, State.setPort, h]
      · rfl
    | ptag i => cases busy <;> rfl
    | _ => rfl
  | limb r j => cases r <;> cases busy <;> rfl

/-- A write beside other port events: accepted or refused as without them, with the same effect (R53, R295). -/
theorem memWrite_setPort (s : State) (l : List PortEvent) (off size : Nat) (v : Word) :
    memWrite (s.setPort l) off size v = (memWrite s off size v).map (·.setPort l) := by
  simp only [memWrite]
  change (locate s.env.params off size).bind _ = _
  cases locate s.env.params off size with
  | none => rfl
  | some loc => exact writeLoc_setPort s l v loc

end Sys2Proof.Machine
end

