-- ==== Sys2Proof/Tests/Slice0.lean ====
section
/-! SUPPORT. The model's own tests. Expected values are those of 95_test_vectors.md (section in each comment) or of the worked examples of the
command's rule. After them, for every statement of Certificates/Slice0/Obligations.lean that has hypotheses, a witness that meets them. -/

namespace Sys2Proof.Tests
open Sys2Proof.Machine Sys2Proof.Claims
set_option Elab.async false

/-! ### helpers -/

/-- The parameters of the conventions of 95_test_vectors.md. -/
def std : Params :=
  { width := 64, maxPrimeProbes := 1000, maxGenTries := 1000, hasEnum := true, enumMaxP := 1000, nteBase := 0 }

/-- The reset state with these integer registers loaded and these answers of the source to come. -/
def start (xs : List (XReg × Int)) (answers : List Int := []) (p : Params := std) : State :=
  (xs.foldl (fun s r => s.setX r.1 r.2) (State.resetWith p)).setSource ⟨answers, 0⟩

/-- `s` with a curve in force and these point registers. -/
def onto (c : Curve) (pts : List (PReg × Point)) (s : State) : State :=
  (pts.foldl (fun s r => s.setP r.1 r.2) s).setCurve c

/-- The curve of the document's examples. -/
def c17 : Curve := ⟨2, 2, 17⟩

/-- The state after the machine has taken its next step on the command word `w`. -/
def after (s : State) (w : Nat) : Option State :=
  match step (s.withFetchWord 64 w) with
  | .next t => some t
  | .fault _ => none
  | .refused _ => none

/-- `STATUS` and `FINFO`. -/
def words (s : State) : Nat × Nat := ((statusWord s).toNat, (finfoWord s).toNat)

/-! ### well-formedness and decoding -/

theorem test_ecenum_absent_is_refused : wellFormed { std with hasEnum := false, enumMaxP := 0 } (.ecenum 6) = false := by decide
theorem test_ecenum_present_is_accepted : wellFormed std (.ecenum 6) = true := by decide

-- §2.15, one word for every command, its bits as R91 lays them out
theorem test_decode_modmul : decode 0x0000000001412300 = some (.modmul 4 1 2 3) := by decide +kernel
theorem test_decode_gcd : decode 0x0000000002312000 = some (.gcd 3 1 2) := by decide +kernel
theorem test_decode_modinv : decode 0x0000000003735000 = some (.modinv 7 3 5) := by decide +kernel
theorem test_decode_powmod : decode 0x0000000004A97400 = some (.powmod 10 9 7 4) := by decide +kernel
theorem test_decode_isprime : decode 0x0000000005320000 = some (.isprime 3 2) := by decide +kernel
theorem test_decode_genprime : decode 0x0000000006210000 = some (.genprime 2 1) := by decide +kernel
theorem test_decode_sample : decode 0x0000000007312000 = some (.sample 3 1 2) := by decide +kernel
theorem test_decode_findgen : decode 0x0000000008420000 = some (.findgen 4 2) := by decide +kernel
theorem test_decode_ecset : decode 0x0000000010012300 = some (.ecset 1 2 3) := by decide +kernel
theorem test_decode_ecsetnb : decode 0x0000000010010301 = some (.ecsetnb 1 3) := by decide +kernel
theorem test_decode_econcrv : decode 0x0000000011530000 = some (.econcrv 5 3) := by decide +kernel
theorem test_decode_ecadd : decode 0x0000000012201000 = some (.ecadd 2 0 1) := by decide +kernel
theorem test_decode_ecdbl : decode 0x0000000013300000 = some (.ecdbl 3 0) := by decide +kernel
theorem test_decode_ecsmul : decode 0x00000000142F3000 = some (.ecsmul 2 15 3) := by decide +kernel
theorem test_decode_ecenum : decode 0x0000000015600000 = some (.ecenum 6) := by decide +kernel
-- §2.15, the illegal words
theorem test_decode_illegal :
    [0x0000000002312100, 0x0000000005321000, 0x0000000010012301, 0x0000000010112300, 0x0000000011540000, 0x0000000012401000,
      0x0000000013340000, 0x0000000014240100, 0x0000000015610000, 0x0000000000000000, 0x0000000009000000, 0x000000000F123400,
      0x0000000016000000, 0x00000000FF000000, 0x0000000101412300, 0x8000000001412300, 0x0000000001412301, 0x0000000012201001,
      0x0000000001412302, 0x0000000001412380, 0xFFFFFFFFFFFFFFFF].all (fun w => (decode w).isNone) = true := by decide +kernel

/-! ### one step of each command -/

-- §2.1: -3 * 5 mod 7, and the exact product 2^126
theorem test_modmul_negative : (after (start [(1, -3), (2, 5), (3, 7)]) 0x1412300).map (·.getX 4) = some 6 := by decide +kernel
theorem test_modmul_widest :
    (after (start [(1, -2 ^ 63), (2, -2 ^ 63), (3, 2 ^ 63 - 1)]) 0x1412300).map (·.getX 4) = some 1 := by decide +kernel
-- §2.2: gcd(-12, 18), and the one E_RANGE
theorem test_gcd_negative : (after (start [(1, -12), (2, 18)]) 0x2312000).map (·.getX 3) = some 6 := by decide +kernel
theorem test_gcd_range :
    (after (start [(1, -2 ^ 63), (2, 0), (3, 99)]) 0x2312000).map (fun t => (t.getX 3, words t)) = some (99, 0x0606, 1) := by
  decide +kernel
-- §2.3
theorem test_modinv_inverse :
    (after (start [(1, 17), (2, 43512)]) 0x3312000).map (fun t => (t.getX 3, words t)) = some (38393, 0x0002, 0) := by
  decide +kernel
theorem test_modinv_none :
    (after (start [(1, 6), (2, 9), (3, 99)]) 0x3312000).map (fun t => (t.getX 3, words t)) = some (0, 0x000A, 0) := by
  decide +kernel
-- §2.4: the document's RSA row, and the order of the checks
theorem test_powmod_rsa : (after (start [(1, 65), (2, 17), (3, 43931)]) 0x4412300).map (·.getX 4) = some 23777 := by
  decide +kernel
theorem test_powmod_order : (after (start [(1, 2), (2, -1), (3, 0)]) 0x4412300).map words = some (0x0106, 1) := by decide +kernel
-- §2.6: a composite with two strong liars, both verdicts
theorem test_isprime_liars :
    (after (start [(1, 25)] [7, 18, 7, 18, 7]) 0x5210000).map (fun t => (t.getX 2, t.env.source.taken)) = some (1, 5) := by
  decide +kernel
theorem test_isprime_witness :
    (after (start [(1, 25), (2, 99)] [7, 2]) 0x5210000).map (fun t => (t.getX 2, t.env.source.taken)) = some (0, 2) := by
  decide +kernel
-- §2.7: overflow and resample; budget spent
theorem test_genprime_resample :
    (after (start [(1, 8)] [255, 2, 250, 2, 3, 2, 3, 2]) 0x6210000).map (fun t => (t.getX 2, t.env.source.answers)) =
      some (251, []) := by decide +kernel
theorem test_genprime_exhausted :
    (after (start [(1, 8), (2, 99)] [0, 2] { std with maxPrimeProbes := 1 }) 0x6210000).map (fun t => (t.getX 2, words t)) =
      some (99, 0x0406, 1) := by decide +kernel
-- §2.5
theorem test_sample_draw : (after (start [(1, 2), (2, 10)] [7]) 0x7312000).map (·.getX 3) = some 7 := by decide +kernel
theorem test_sample_empty_range : (after (start [(1, 5), (2, 5)]) 0x7312000).map words = some (0x0106, 5) := by decide +kernel
-- §2.8: wrap past pp - 1; a composite that slipped through
theorem test_findgen_wrap : (after (start [(1, 7)] [2, 3, 4, 5, 2, 6]) 0x8210000).map (·.getX 2) = some 3 := by decide +kernel
theorem test_findgen_exhausted :
    (after (start [(1, 25)] [7, 18, 7, 18, 7, 2] { std with maxGenTries := 30 }) 0x8210000).map words = some (0x0406, 2) := by
  decide +kernel
-- §2.9
theorem test_ecset_not_reduced :
    (after (start [(1, 100), (2, -40), (3, 17)] [2, 3, 5, 7, 11]) 0x10012300).map (fun t => (t.curve, words t)) =
      some (⟨100, -40, 17⟩, 0x0012, 0) := by decide +kernel
theorem test_ecset_keeps_old_curve :
    (after (onto c17 [] (start [(1, 1), (2, 1), (3, 15)] [4])) 0x10012300).map (fun t => (t.curve, words t)) =
      some (c17, 0x0216, 2) := by decide +kernel
theorem test_ecsetnb_reads_no_b :
    (after (start [(1, -1), (2, 55), (3, 17)] [2, 3, 5, 7, 11]) 0x10010301).map (fun t => (t.curve, words t)) =
      some (⟨-1, 0, 17⟩, 0x0012, 0) := by decide +kernel
-- §2.10
theorem test_econcrv_unreduced :
    (after (onto c17 [(1, .fin 22 1)] (start [])) 0x11410000).map (fun t => (t.getX 4, words t)) = some (1, 0x0012, 0) := by
  decide +kernel
theorem test_econcrv_no_curve : (after (start []) 0x11410000).map words = some (0x0706, 0) := by decide +kernel
-- §2.11: a chord, and the fallback over a composite modulus
theorem test_ecadd_chord :
    (after (onto c17 [(0, .fin 6 3), (1, .fin 5 1)] (start [])) 0x12201000).map (fun t => (t.getP 2, t.fb)) =
      some (.fin 10 6, false) := by decide +kernel
theorem test_ecadd_fallback :
    (after (onto ⟨2, 2, 25⟩ [(0, .fin 2 8), (1, .fin 7 3)] (start [])) 0x12201000).map (fun t => (t.getPReg 2, words t)) =
      some (⟨true, 0, 0⟩, 0x0032, 0) := by decide +kernel
-- §2.12
theorem test_ecdbl_tangent :
    (after (onto c17 [(0, .fin 5 1)] (start [])) 0x13300000).map (·.getP 3) = some (.fin 6 3) := by decide +kernel
theorem test_ecdbl_range :
    (after (onto c17 [(0, .fin 5 18)] (start [])) 0x13300000).map words = some (0x0316, 0x11) := by decide +kernel
-- §2.13: 2^62 + 3 times G, and the scalar checked before the point
theorem test_ecsmul_long :
    (after (onto c17 [(0, .fin 5 1)] (start [(4, 2 ^ 62 + 3)])) 0x14240000).map (·.getP 2) = some (.fin 0 11) := by
  decide +kernel
theorem test_ecsmul_order :
    (after (onto c17 [(0, .fin 5 2)] (start [(4, -1)])) 0x14240000).map words = some (0x0116, 7) := by decide +kernel
-- §2.14, and R239: a second enumeration keeps the entries above its own
theorem test_ecenum_list :
    (after (onto c17 [] (start [])) 0x15600000).map (fun t => (t.getX 6, t.ebuf.read 4, t.ebuf.read 17, t.ebuf.read 18)) =
      some (18, (5, 1), (16, 13), (0, 0)) := by decide +kernel
theorem test_ecenum_keeps_rest :
    (after (onto ⟨0, 0, 5⟩ [] { start [] with ebuf := [(4, (9, 9)), (5, (5, 16))], ecnt := 18 }) 0x15600000).map
      (fun t => (t.ecnt, t.ebuf.read 0, t.ebuf.read 4, t.ebuf.read 5)) = some (5, (0, 0), (4, 3), (5, 16)) := by decide +kernel

/-! ### the window -/

-- §2.16 B2 to B4: PARAM0
theorem test_param0 :
    (memRead (start []) 0x008 8, memRead (start [] [] { std with width := 128, hasEnum := false, enumMaxP := 0 }) 0x008 8) =
      (some 0x0000001041050040, some 0x0000001040050080) := by decide +kernel
-- B13: an upper limb keeps its ones
theorem test_limb_keeps_sign :
    (memWrite (start [(3, -1)] [] { std with width := 256 }) 0x13000 8 7).map (·.getX 3) = some (-2 ^ 64 + 7) := by decide +kernel
-- B14, B18: limbs and slots that do not exist
theorem test_refused_reads :
    (memRead (start [] [] { std with width := 256 }) 0x11020 8, memRead (start []) 0x23000 8, memRead (start []) 0x018 4,
      memRead (start []) 0x01C 8) = (none, none, none, none) := by decide +kernel
-- B28: locked while BUSY = 1
theorem test_locked :
    [0x11000, 0x080, 0x050, 0x010].all (fun off => (memWrite { start [] with busy := true } off 8 0).isNone) = true := by
  decide +kernel
-- B23, B26: STATUS write-1-to-clear
theorem test_status_clear :
    ((memWrite (faulted 1 1 (start [])) 0x018 8 4).map words, (memWrite (faulted 1 1 (start [])) 0x018 8 2).map words) =
      (some (0x0002, 0), some (0x0104, 1)) := by decide +kernel
-- B32: ESEL below EBUF_DEPTH
theorem test_esel_bound : ((memWrite (start []) 0x050 8 1999).isSome, (memWrite (start []) 0x050 8 2000).isSome) = (true, false) := by
  decide +kernel
-- R286: reset during a command
theorem test_reset_in_flight :
    (match step { (start [(1, 5)]).setPort [.reset] with busy := true, ir := 0x1412300 } with
      | .next t => decide (t = { State.resetWith std with env := t.env })
      | .fault _ => false
      | .refused _ => false) = true := by decide +kernel
-- R225: k times G is G added k times, k from 1 to 20
theorem test_multiples :
    (List.range 20).all (fun k => decide ((ecSmul c17 (k + 1) (.fin 5 1)).1 =
      (List.range k).foldl (fun R _ => (ecAdd c17 R (.fin 5 1)).1) (.fin 5 1))) = true := by decide +kernel

/-! ### witnesses of the statements' hypotheses -/

/-- The invariant, clause by clause, as a proposition Lean decides. -/
abbrev Parts (s : State) : Prop :=
  s.env.params.wf = true ∧ (∀ i, fits s.width (s.getX i) = true) ∧
  (∀ i, fits s.width (s.getPReg i).x = true ∧ fits s.width (s.getPReg i).y = true) ∧
  (fits s.width s.ca = true ∧ fits s.width s.cb = true ∧ fits s.width s.cp = true) ∧ s.ebuf.wf = true ∧
  (∀ je ∈ s.ebuf, je.1 < s.env.params.ebufDepth ∧ fits s.width je.2.1 = true ∧ fits s.width je.2.2 = true) ∧
  (s.busy = true → s.done = false ∧ s.fault = false) ∧ (s.cause ≠ 0 ↔ s.fault = true) ∧ (s.fault = false → s.sub = 0) ∧
  (s.fault = true → (s.cause, s.sub) ∈ faultPairs) ∧ (s.cv = true → 3 < s.cp ∧ s.cp % 2 = 1) ∧
  (s.esel.toNat < s.env.params.ebufDepth ∨ s.esel = 0) ∧ s.ecnt.toNat ≤ s.env.params.ebufDepth

theorem inv_of_parts {s : State} (h : Parts s) : s.Inv :=
  let ⟨a, b, c, d, e, f, g, i, j, k, l, m, n⟩ := h
  ⟨a, b, c, d, e, f, g, i, j, k, l, m, n⟩

theorem usable_fin {c : Curve} {x y : Int}
    (h : (0 ≤ x ∧ x < c.p ∧ 0 ≤ y ∧ y < c.p) ∧ y * y % c.p = (x * x * x + c.a * x + c.b) % c.p) : usable c (.fin x y) :=
  ⟨fun ⟨_, _, e, hn⟩ => by (cases e; exact hn h.1), fun ⟨_, _, e, hn⟩ => by (cases e; exact hn h.2)⟩

theorem usable_inf (c : Curve) : usable c .inf :=
  ⟨fun ⟨_, _, e, _⟩ => Point.noConfusion e, fun ⟨_, _, e, _⟩ => Point.noConfusion e⟩

theorem witness_DecodeInvertsEncode : wellFormed std (.ecenum 15) = true := by decide
theorem witness_EncodeInvertsDecode : decode 0x00000000142F3000 = some (.ecsmul 2 15 3) := by decide +kernel
theorem witness_DecodingFollowsTheMap :
    (∃ r ∈ opRows, (0x10010301 : Word) &&& r.mask = r.bits) ∧ ∀ r ∈ opRows, (0x10012301 : Word) &&& r.mask ≠ r.bits := by
  decide +kernel

/-- A state whose next step runs `w`. -/
def busyOn (w : Word) (p : Params := std) : State := (start [] [] p).withFetchWord 64 w.toNat

theorem witness_IllegalWordsFault :
    ((busyOn 0).env.port = [] ∧ ((busyOn 0).setPort [.engineTurn]).env.port = .engineTurn :: [] ∧ (busyOn 0).busy = true ∧
      (busyOn 0).ir = 0 ∧ illegalWord (busyOn 0).env.params 0) ∧
    illegalWord { std with hasEnum := false, enumMaxP := 0 } 0x15600000 := by
  refine ⟨⟨by decide +kernel, by decide +kernel, by decide +kernel, by decide +kernel, ?_⟩, ?_⟩ <;>
    simp only [illegalWord] <;> decide +kernel

theorem witness_StepRunsTheDecodedCommand :
    (let s := busyOn 0x1412300
     s.busy = true ∧ decode s.ir = some (.modmul 4 1 2 3) ∧ wellFormed s.env.params (.modmul 4 1 2 3) = true ∧ s.env.port = []) ∧
    (let s := (busyOn 0x15600000).setPort [.engineTurn, .reset]
     s.busy = true ∧ decode s.ir = some (.ecenum 6) ∧ wellFormed s.env.params (.ecenum 6) = true ∧
       s.env.port = .engineTurn :: [.reset]) := by decide +kernel

theorem witness_IdleEngineChangesNothing :
    ((start []).busy = false ∧ (start []).env.port = []) ∧ ((start []).setPort [.engineTurn]).busy = false ∧
      ((start []).setPort [.engineTurn]).env.port = .engineTurn :: [] := by decide +kernel

theorem witness_CommandIsTwoTransitions :
    let s := (start []).setPort [.write (0 + 0x010) 8 (encode (.gcd 3 1 2))]
    wellFormed s.env.params (.gcd 3 1 2) = true ∧ s.busy = false ∧ s.fault = false ∧
      s.env.port = [.write (s.env.params.nteBase + 0x010) 8 (encode (.gcd 3 1 2))] := by decide +kernel

theorem witness_StepKeepsTheStateInvariant : (start []).Inv ∧ step (start []) = .next (start []) :=
  ⟨inv_of_parts (by decide +kernel), rfl⟩

theorem witness_ResetMeetsTheStateInvariant : std.wf = true := by decide

theorem witness_ResetSetsEveryRegister : ((busyOn 0).setPort [.reset]).env.port = .reset :: [] := rfl

theorem witness_ModmulWritesTheResidue :
    (let s := start [(3, 0)]; s.Inv ∧ s.getX 3 ≤ 0) ∧ (let s := start [(3, 1)]; s.Inv ∧ 0 < s.getX 3) := by
  refine ⟨⟨inv_of_parts ?_, ?_⟩, inv_of_parts ?_, ?_⟩ <;> decide +kernel

theorem witness_GcdWritesTheDivisor :
    (let s := start [(2, -1)]; s.Inv ∧ s.getX 2 < 0) ∧
    (let s := start [(1, -2 ^ 63)]; s.Inv ∧ s.getX 1 = -2 ^ (s.width - 1) ∧ s.getX 2 = 0) ∧
    (let s := start [(1, -2 ^ 63 + 1)]; s.Inv ∧ 0 ≤ s.getX 2 ∧ ¬(s.getX 1 = -2 ^ (s.width - 1) ∧ s.getX 2 = 0)) := by
  refine ⟨⟨inv_of_parts ?_, ?_⟩, ⟨inv_of_parts ?_, ?_⟩, inv_of_parts ?_, ?_⟩ <;> decide +kernel

theorem witness_ModinvWritesTheInverse :
    (let s := start [(2, 0)]; s.Inv ∧ s.getX 2 ≤ 0) ∧
    (let s := start [(2, 1)]; s.Inv ∧ 0 < s.getX 2 ∧ Int.gcd (s.getX 1) (s.getX 2) = 1) ∧
    (let s := start [(2, 2)]; s.Inv ∧ 0 < s.getX 2 ∧ Int.gcd (s.getX 1) (s.getX 2) ≠ 1) := by
  refine ⟨⟨inv_of_parts ?_, ?_⟩, ⟨inv_of_parts ?_, ?_⟩, inv_of_parts ?_, ?_⟩ <;> decide +kernel

theorem witness_PowmodWritesThePower :
    (let s := start [(2, -1), (3, 0)]; s.Inv ∧ s.getX 3 ≤ 0) ∧
    (let s := start [(2, -1), (3, 1)]; s.Inv ∧ 0 < s.getX 3 ∧ s.getX 2 < 0) ∧
    (let s := start [(2, 0), (3, 1)]; s.Inv ∧ 0 < s.getX 3 ∧ 0 ≤ s.getX 2) := by
  refine ⟨⟨inv_of_parts ?_, ?_⟩, ⟨inv_of_parts ?_, ?_⟩, inv_of_parts ?_, ?_⟩ <;> decide +kernel

theorem witness_SampleWritesValueInRange :
    (let s := start [(1, -1), (2, 4)]; s.Inv ∧ (s.getX 1 < 0 ∨ s.getX 2 ≤ s.getX 1)) ∧
    (let s := start [(1, 5), (2, 5)]; s.Inv ∧ (s.getX 1 < 0 ∨ s.getX 2 ≤ s.getX 1)) ∧
    (let s := start [(1, 0), (2, 1)] [0]
     s.Inv ∧ 0 ≤ s.getX 1 ∧ s.getX 1 < s.getX 2 ∧ s.getX 1 ≤ 0 ∧ 0 < s.getX 2 ∧ s.env.source.answers = 0 :: []) := by
  refine ⟨⟨inv_of_parts ?_, ?_⟩, ⟨inv_of_parts ?_, ?_⟩, inv_of_parts ?_, ?_⟩ <;> decide +kernel

theorem witness_IsprimeWritesTheVerdict :
    (let s := start [(1, 1)]; s.Inv ∧ s.getX 1 < 2) ∧ (let s := start [(1, 3)]; s.Inv ∧ (s.getX 1 = 2 ∨ s.getX 1 = 3)) ∧
    (let s := start [(1, 4)]; s.Inv ∧ 4 ≤ s.getX 1 ∧ s.getX 1 % 2 = 0) ∧
    (let s := start [(1, 5)] [3]; s.Inv ∧ 5 ≤ s.getX 1 ∧ s.getX 1 % 2 = 1 ∧ s.env.source.answers[0]? = some 3 ∧ 2 ≤ (3 : Int) ∧
      3 ≤ s.getX 1 - 2) := by
  refine ⟨⟨inv_of_parts ?_, ?_⟩, ⟨inv_of_parts ?_, ?_⟩, ⟨inv_of_parts ?_, ?_⟩, inv_of_parts ?_, ?_⟩ <;> decide +kernel

theorem witness_IsprimeAcceptsEveryPrime :
    (let s := start [(1, 3)]; s.Inv ∧ Nat.Prime 3 ∧ s.getX 1 = (3 : Nat)) ∧
    (let s := start [(1, 5)]; s.Inv ∧ Nat.Prime 5 ∧ s.getX 1 = (5 : Nat)) :=
  ⟨⟨inv_of_parts (by decide +kernel), by norm_num, by decide +kernel⟩,
    inv_of_parts (by decide +kernel), by norm_num, by decide +kernel⟩

theorem witness_GenprimeRunsTheNestedLoops :
    (let s := start [(1, 7)]; s.Inv ∧ s.getX 1 < 8) ∧ (let s := start [(1, 12)]; s.Inv ∧ s.getX 1 % 8 ≠ 0) ∧
    (let s := start [(1, 64)]; s.Inv ∧ s.getX 1 > (s.width : Int) - 8) ∧
    (let s := start [(1, 8)] [3, 2, 2, 2, 2, 2]
     s.Inv ∧ 8 ≤ s.getX 1 ∧ s.getX 1 % 8 = 0 ∧ s.getX 1 ≤ (s.width : Int) - 8 ∧
       (outerLoop 8 1000 1001 0 s.env.source).1 = some 131) ∧
    (let s := start [(1, 8)] [0, 2] { std with maxPrimeProbes := 1 }
     s.Inv ∧ 8 ≤ s.getX 1 ∧ s.getX 1 % 8 = 0 ∧ s.getX 1 ≤ (s.width : Int) - 8 ∧ (outerLoop 8 1 2 0 s.env.source).1 = none) := by
  refine ⟨⟨inv_of_parts ?_, ?_⟩, ⟨inv_of_parts ?_, ?_⟩, ⟨inv_of_parts ?_, ?_⟩, ⟨inv_of_parts ?_, ?_⟩, inv_of_parts ?_, ?_⟩ <;>
    decide +kernel

theorem witness_GenprimeResultHasWantedBits :
    let s := start [(1, 8)] [3, 2, 2, 2, 2, 2]
    s.Inv ∧ s.fault = false ∧ ∃ t, exec (.genprime 2 1) s = .next t ∧ t.fault = false :=
  ⟨inv_of_parts (by decide +kernel), by decide +kernel, wroteX 2 131 (drawn 6 (start [(1, 8)] [3, 2, 2, 2, 2, 2])),
    by rfl, by decide +kernel⟩

theorem witness_GenprimeCompletesAtFirstPrime :
    let s := start [(1, 8)] [3]
    s.Inv ∧ s.getX 1 = (8 : Nat) ∧ 8 + 8 ≤ s.width ∧ s.env.source.answers = 3 :: [] ∧ (0 : Int) ≤ 3 ∧ (3 : Int) < 2 ^ 8 ∧
      131 = (3 : Int).toNat ||| 2 ^ (8 - 1) ||| 1 ∧ Nat.Prime 131 :=
  ⟨inv_of_parts (by decide +kernel), by decide +kernel, by decide +kernel, by decide +kernel, by decide, by decide,
    by decide, by norm_num⟩

theorem witness_FindgenFindsFirstCandidate :
    (let s := start [(1, 2)]; s.Inv ∧ s.getX 1 ≤ 2) ∧
    (let s := start [(1, 4)]; s.Inv ∧ 2 < s.getX 1 ∧ (isprimeOf (s.getX 1) s.env.source).1 = false) ∧
    (let s := start [(1, 3)] [2]
     s.Inv ∧ 2 < s.getX 1 ∧ (isprimeOf (s.getX 1) s.env.source).1 = true ∧
       (isprimeOf (s.getX 1) s.env.source).2.answers = 2 :: []) := by
  refine ⟨⟨inv_of_parts ?_, ?_⟩, ⟨inv_of_parts ?_, ?_⟩, inv_of_parts ?_, ?_⟩ <;> decide +kernel

/-- The inner clauses of the statement: a first candidate that passes, and a search of one try that fails. -/
theorem witness_FindgenFindsFirstCandidate_search :
    powersDistinct (candidateAt 3 2 0) 3 (windowOf 3) ∧ ∀ n, n < 1 → ¬powersDistinct (candidateAt 7 2 n) 7 (windowOf 7) := by
  constructor
  · intro i j h1 h2 h3
    have : windowOf 3 = 2 := by decide
    obtain ⟨rfl, rfl⟩ : i = 2 ∧ j = 1 := by omega
    decide
  · intro n hn h
    obtain rfl : n = 0 := by omega
    exact h 4 1 (by decide) (by decide) (by decide) (by decide)

theorem witness_FindgenFindsPrimitiveRoot :
    let s := start [(1, 3)] [] { std with maxGenTries := 1 }
    s.Inv ∧ Nat.Prime 3 ∧ s.getX 1 = (3 : Nat) ∧ 3 - 2 ≤ s.env.params.maxGenTries :=
  ⟨inv_of_parts (by decide +kernel), by norm_num, by decide +kernel, by decide +kernel⟩

theorem witness_EcsetSetsTheCurve :
    (let s := start [(3, 3)]; s.Inv ∧ s.getX 3 ≤ 3) ∧
    (let s := start [(3, 4)]; s.Inv ∧ 3 < s.getX 3 ∧ (isprimeOf (s.getX 3) s.env.source).1 = false) ∧
    (let s := start [(3, 5)] [2, 3, 2, 3, 2]; s.Inv ∧ 3 < s.getX 3 ∧ (isprimeOf (s.getX 3) s.env.source).1 = true) := by
  refine ⟨⟨inv_of_parts ?_, ?_⟩, ⟨inv_of_parts ?_, ?_⟩, inv_of_parts ?_, ?_⟩ <;> decide +kernel

/-- ECSETNB has the hypotheses of ECSET. -/
theorem witness_EcsetnbSetsTheCurve :
    (let s := start [(3, 3)]; s.Inv ∧ s.getX 3 ≤ 3) ∧
    (let s := start [(3, 4)]; s.Inv ∧ 3 < s.getX 3 ∧ (isprimeOf (s.getX 3) s.env.source).1 = false) ∧
    (let s := start [(3, 5)] [2, 3, 2, 3, 2]; s.Inv ∧ 3 < s.getX 3 ∧ (isprimeOf (s.getX 3) s.env.source).1 = true) :=
  witness_EcsetSetsTheCurve

theorem witness_PrimeModulusSetsTheCurve : let s := start [(3, 5)]; s.Inv ∧ Nat.Prime 5 ∧ s.getX 3 = (5 : Nat) :=
  ⟨inv_of_parts (by decide +kernel), by norm_num, by decide +kernel⟩

theorem witness_EconcrvWritesTheVerdict :
    (let s := start []; s.Inv ∧ s.cv = false) ∧ (let s := onto c17 [] (start []); s.Inv ∧ s.cv = true ∧ s.getP 1 = .inf) ∧
    (let s := onto c17 [(1, .fin 22 1)] (start [])
     s.Inv ∧ s.cv = true ∧ s.getP 1 = .fin 22 1 ∧ satisfies s.curve 22 1) ∧
    (let s := onto c17 [(1, .fin 0 0)] (start [])
     s.Inv ∧ s.cv = true ∧ s.getP 1 = .fin 0 0 ∧ ¬satisfies s.curve 0 0) := by
  unfold satisfies
  refine ⟨⟨inv_of_parts ?_, ?_⟩, ⟨inv_of_parts ?_, ?_⟩, ⟨inv_of_parts ?_, ?_⟩, inv_of_parts ?_, ?_⟩ <;> decide +kernel

theorem witness_AdditionFollowsTheGroupLaw :
    (1 < c17.p ∧ usable c17 .inf ∧ usable c17 (.fin 5 1) ∧ usable c17 (.fin 5 16)) ∧
    -- additive inverses; a chord and a tangent with an inverse; a tangent and a chord without
    (Point.fin 5 1 ≠ .fin 5 16 ∧ (1 + 16) % c17.p = 0) ∧ Int.gcd (2 * 1) c17.p = 1 ∧
    (usable ⟨-1, 0, 17⟩ (.fin 0 0) ∧ Int.gcd (2 * 0) 17 ≠ 1) ∧
    (usable ⟨2, 2, 25⟩ (.fin 2 8) ∧ usable ⟨2, 2, 25⟩ (.fin 7 3) ∧ Int.gcd (7 - 2) 25 ≠ 1) :=
  ⟨⟨by decide, usable_inf _, usable_fin (by decide), usable_fin (by decide)⟩, ⟨by decide, by decide⟩, by decide,
    ⟨usable_fin (by decide), by decide⟩, usable_fin (by decide), usable_fin (by decide), by decide⟩

theorem witness_FallbackOnlyAtDoublingZeroY :
    Nat.Prime 3 ∧ usable ⟨-1, 0, 3⟩ (.fin 0 0) ∧ usable ⟨-1, 0, 3⟩ (.fin 1 0) :=
  ⟨by norm_num, usable_fin (by decide), usable_fin (by decide)⟩

theorem witness_AdditionLaws : 3 < (⟨0, 0, 5⟩ : Curve).p ∧ (⟨0, 0, 5⟩ : Curve).p % 2 = 1 ∧ usable ⟨0, 0, 5⟩ (.fin 1 1) ∧
    usable ⟨0, 0, 5⟩ .inf ∧ (1 : Int) ≠ 0 :=
  ⟨by decide, by decide, usable_fin (by decide), usable_inf _, by decide⟩

/-- The states of §2.11 that each clause of the statement about ECADD asks for. -/
theorem witness_EcaddWritesTheSum :
    (let s := start []; s.Inv ∧ s.cv = false) ∧
    (let s := onto c17 [(0, .fin 17 1)] (start []); s.Inv ∧ s.cv = true ∧ outOfRange s.curve (s.getP 0)) ∧
    (let s := onto c17 [(0, .fin 5 2)] (start []); s.Inv ∧ s.cv = true ∧ ¬outOfRange s.curve (s.getP 0) ∧
      offCurve s.curve (s.getP 0)) ∧
    (let s := onto c17 [(0, .fin 5 1), (1, .fin 5 (-1))] (start []); s.Inv ∧ s.cv = true ∧ usable s.curve (s.getP 0) ∧
      outOfRange s.curve (s.getP 1)) ∧
    (let s := onto c17 [(0, .fin 5 1), (1, .fin 16 16)] (start []); s.Inv ∧ s.cv = true ∧ usable s.curve (s.getP 0) ∧
      ¬outOfRange s.curve (s.getP 1) ∧ offCurve s.curve (s.getP 1)) ∧
    (let s := onto c17 [(0, .fin 5 1)] (start []); s.Inv ∧ s.cv = true ∧ usable s.curve (s.getP 0) ∧
      usable s.curve (s.getP 1)) :=
  ⟨⟨inv_of_parts (by decide +kernel), by decide +kernel⟩,
    ⟨inv_of_parts (by decide +kernel), by decide +kernel, 17, 1, by decide +kernel, by decide +kernel⟩,
    ⟨inv_of_parts (by decide +kernel), by decide +kernel, fun ⟨_, _, e, h⟩ => by (cases e; revert h; decide +kernel),
      5, 2, by decide +kernel, by (simp only [satisfies]; decide +kernel)⟩,
    ⟨inv_of_parts (by decide +kernel), by decide +kernel, usable_fin (by decide +kernel), 5, -1, by decide +kernel, by decide +kernel⟩,
    ⟨inv_of_parts (by decide +kernel), by decide +kernel, usable_fin (by decide +kernel),
      fun ⟨_, _, e, h⟩ => by (cases e; revert h; decide +kernel), 16, 16, by decide +kernel, by (simp only [satisfies]; decide +kernel)⟩,
    inv_of_parts (by decide +kernel), by decide +kernel, usable_fin (by decide +kernel), usable_inf _⟩

/-- The hypotheses about ECDBL are those about ECADD's first operand. -/
theorem witness_EcdblWritesTheDouble :
    (let s := start []; s.Inv ∧ s.cv = false) ∧
    (let s := onto c17 [(0, .fin 17 1)] (start []); s.Inv ∧ s.cv = true ∧ outOfRange s.curve (s.getP 0)) ∧
    (let s := onto c17 [(0, .fin 5 2)] (start []); s.Inv ∧ s.cv = true ∧ ¬outOfRange s.curve (s.getP 0) ∧
      offCurve s.curve (s.getP 0)) ∧
    (let s := onto c17 [(0, .fin 5 1)] (start []); s.Inv ∧ s.cv = true ∧ usable s.curve (s.getP 0)) :=
  let ⟨a, b, c, _, _, i, cv, u, _⟩ := witness_EcaddWritesTheSum
  ⟨a, b, c, i, cv, u⟩

theorem witness_ScalarMultipleDoublesAndAdds : (1 : Int) ≤ 1 := le_rfl

theorem witness_EcsmulWritesTheMultiple :
    (let s := start []; s.Inv ∧ s.cv = false) ∧ (let s := onto c17 [] (start [(4, -1)]); s.Inv ∧ s.cv = true ∧ s.getX 4 < 0) ∧
    (let s := onto c17 [(0, .fin 17 1)] (start []); s.Inv ∧ s.cv = true ∧ 0 ≤ s.getX 4 ∧ outOfRange s.curve (s.getP 0)) ∧
    (let s := onto c17 [(0, .fin 5 2)] (start []); s.Inv ∧ s.cv = true ∧ 0 ≤ s.getX 4 ∧ ¬outOfRange s.curve (s.getP 0) ∧
      offCurve s.curve (s.getP 0)) ∧
    (let s := onto c17 [(0, .fin 5 1)] (start []); s.Inv ∧ s.cv = true ∧ 0 ≤ s.getX 4 ∧ usable s.curve (s.getP 0)) :=
  let ⟨a, ⟨i1, cv1, o1⟩, ⟨i2, cv2, n2, o2⟩, _, _, i3, cv3, u3, _⟩ := witness_EcaddWritesTheSum
  ⟨a, ⟨inv_of_parts (by decide +kernel), by decide +kernel, by decide +kernel⟩, ⟨i1, cv1, by decide +kernel, o1⟩,
    ⟨i2, cv2, by decide +kernel, n2, o2⟩, i3, cv3, by decide +kernel, u3⟩

theorem witness_EcenumFillsTheBuffer :
    (let s := start [] [] { std with hasEnum := false, enumMaxP := 0 }; s.Inv ∧ s.env.params.hasEnum = false) ∧
    (let s := start []; s.Inv ∧ s.env.params.hasEnum = true ∧ s.cv = false) ∧
    (let s := onto c17 [] (start [] [] { std with enumMaxP := 16 })
     s.Inv ∧ s.env.params.hasEnum = true ∧ s.cv = true ∧ (s.env.params.enumMaxP : Int) < s.cp) ∧
    (let s := onto c17 [] (start [] [] { std with enumMaxP := 17 })
     s.Inv ∧ s.env.params.hasEnum = true ∧ s.cv = true ∧ s.cp ≤ (s.env.params.enumMaxP : Int)) := by
  refine ⟨⟨inv_of_parts ?_, ?_⟩, ⟨inv_of_parts ?_, ?_⟩, ⟨inv_of_parts ?_, ?_⟩, inv_of_parts ?_, ?_⟩ <;> decide +kernel

/-- Modulo 25 (R237) with `a = 0, b = 0`: `x = 5` has right-hand side 0, `x = 1` the least root 1, `x = 2` none; and a prime modulus. -/
theorem witness_EnumerationIsTheCurve :
    (1 < (⟨0, 0, 25⟩ : Curve).p ∧ (5 * 5 * 5 + 0 * 5 + 0) % 25 = (0 : Int) ∧ isLeastRoot 25 ((1 * 1 * 1 + 0 * 1 + 0) % 25) 1 ∧
      (1 * 1 * 1 + 0 * 1 + 0) % 25 ≠ (0 : Int) ∧ (2 * 2 * 2 + 0 * 2 + 0) % 25 ≠ (0 : Int) ∧
      ∀ y : Int, 1 ≤ y → y < 25 → y * y % 25 ≠ (2 * 2 * 2 + 0 * 2 + 0) % 25) ∧
    Nat.Prime 3 ∧ (2 : Nat) < 3 ∧ 1 < (⟨0, 1, 3⟩ : Curve).p ∧ (⟨0, 1, 3⟩ : Curve).p = (3 : Nat) := by
  refine ⟨⟨by decide, by decide, ⟨by decide, by decide, by decide, fun z h1 h2 => by omega⟩, by decide, by decide, ?_⟩, by norm_num⟩
  intro y h1 h2
  interval_cases y <;> decide

theorem witness_FaultsArePrecise :
    let s := start [(3, 0)]
    s.fault = false ∧ exec (.modmul 4 1 2 3) s = .next (faulted 1 1 s) ∧ (faulted 1 1 s).fault = true :=
  ⟨by decide +kernel, by rfl, rfl⟩

theorem witness_CommandsWriteOnlyTheirResults :
    let s := start [(3, 7)]
    exec (.modmul 4 1 2 3) s = .next (wroteX 4 0 s) ∧ destX (.modmul 4 1 2 3) ≠ some 3 ∧ destP (.modmul 4 1 2 3) ≠ some 0 ∧
      (∀ rd rs1 rs2, Instr.modmul 4 1 2 3 ≠ .modinv rd rs1 rs2) ∧ (∀ rs1 rs2 rs3, Instr.modmul 4 1 2 3 ≠ .ecset rs1 rs2 rs3) ∧
      (∀ rs1 rs3, Instr.modmul 4 1 2 3 ≠ .ecsetnb rs1 rs3) ∧ destP (.modmul 4 1 2 3) = none ∧
      ∀ rd, Instr.modmul 4 1 2 3 ≠ .ecenum rd := by
  refine ⟨by rfl, ?_, ?_, ?_, ?_, ?_, ?_, ?_⟩ <;> simp [destX, destP]

theorem witness_DrawlessCommandsIgnoreTheSource :
    draws (.modmul 4 1 2 3) = false ∧ exec (.modmul 4 1 2 3) (start [(3, 7)]) = .next (wroteX 4 0 (start [(3, 7)])) :=
  ⟨rfl, by rfl⟩

theorem witness_ResultsAreNonNegative :
    (let s := start [(3, 7), (4, -5)]
     exec (.modmul 4 1 2 3) s = .next (wroteX 4 0 s) ∧ (wroteX 4 0 s).getX 4 ≠ s.getX 4 ∧
       destX (.modmul 4 1 2 3) = some 4 ∧ s.fault = false ∧ (wroteX 4 0 s).fault = false) ∧
    (let s := onto c17 [(0, .fin 5 1)] (start [])
     s.Inv ∧ exec (.ecdbl 2 0) s = .next (wroteP 2 (.fin 6 3, false) s) ∧ destP (.ecdbl 2 0) = some 2 ∧ s.fault = false ∧
       (wroteP 2 (.fin 6 3, false) s).fault = false) :=
  ⟨⟨by rfl, by decide +kernel, rfl, by decide +kernel, rfl⟩, inv_of_parts (by decide +kernel), by rfl, rfl, by decide +kernel, rfl⟩

theorem witness_RangeFaultOnlyFromGcd :
    let s := start [(1, -2 ^ 63)]
    s.Inv ∧ s.fault = false ∧ exec (.gcd 3 1 2) s = .next (faulted 6 1 s) ∧ (faulted 6 1 s).cause = 6 :=
  ⟨inv_of_parts (by decide +kernel), by decide +kernel, by rfl, rfl⟩

theorem witness_CommandsWriteOnlyCurvePoints :
    let s := onto c17 [(0, .fin 5 1)] (start [])
    s.Inv ∧ ∃ t, exec (.ecdbl 2 0) s = .next t ∧ t.getPReg 2 ≠ s.getPReg 2 :=
  ⟨inv_of_parts (by decide +kernel), wroteP 2 (.fin 6 3, false) (onto c17 [(0, .fin 5 1)] (start [])), by rfl, by decide +kernel⟩

theorem witness_CurveFlagClearedOnlyByReset :
    let s := onto c17 [] (start [])
    s.cv = true ∧ step s = .next s ∧ ∀ rest, s.env.port ≠ .reset :: rest :=
  ⟨by decide +kernel, by rfl, fun _ h => by cases h⟩

theorem witness_FaultIsSticky :
    let s := (faulted 1 1 (start [])).setPort [.write 0x018 8 2]
    s.Inv ∧ s.fault = true ∧ (∃ t, step s = .next t) ∧ (∀ rest, s.env.port ≠ .reset :: rest) ∧
      ∀ v rest, s.env.port = .write (s.env.params.nteBase + 0x018) 8 v :: rest → v.getLsbD 2 = false := by
  refine ⟨inv_of_parts (by decide +kernel), by decide +kernel, ⟨_, by rfl⟩, fun _ h => by (cases h), fun v _ h => ?_⟩
  obtain rfl : v = 2 := by
    injection h with h1 _
    injection h1 with _ _ h2
    exact h2.symm
  decide

theorem witness_InFlightReadsShowNoOperand :
    (busyOn 0x1412300).busy = true ∧ ((busyOn 0x1412300).setX 1 5).busy = true := by decide +kernel

theorem witness_CmdWriteIsAcceptedWhenIdle :
    ((start []).busy = false ∧ (start []).fault = false) ∧ (busyOn 0).busy = true ∧ (faulted 1 1 (start [])).fault = true := by
  decide +kernel

theorem witness_StatusWriteClearsTheFault :
    ((4 : Word).getLsbD 2 = true ∧ (faulted 1 1 (start [])).fault = true) ∧ (2 : Word).getLsbD 2 = false ∧
      (start []).fault = false := by decide +kernel

theorem witness_StatusReadsItsFields : (faulted 7 0 (start [])).Inv ∧ (start []).Inv ∧ (start []).fault = false :=
  ⟨inv_of_parts (by decide +kernel), inv_of_parts (by decide +kernel), by decide +kernel⟩

theorem witness_PtagReadAndWrite : (busyOn 0).busy = true ∧ (start []).busy = false := by decide +kernel

theorem witness_EselSelectsTheEntry :
    (let s := start []
     s.env.params.wf = true ∧ 0 < s.env.params.limbs ∧ s.busy = false ∧ (1999 : Word).toNat < s.env.params.ebufDepth ∧
       s.env.params.ebufDepth ≤ (2000 : Word).toNat) ∧ (busyOn 0).busy = true := by decide +kernel

theorem witness_ConstantsReadTheParameters : (start []).env.params.wf = true := by decide +kernel
theorem witness_ReadsAcceptedExactly : (start []).env.params.wf = true := by decide +kernel
theorem witness_WritesAcceptedExactly : (start []).env.params.wf = true := by decide +kernel

theorem witness_LimbWriteReadsBack :
    let s := start [] [] { std with width := 128 }
    s.env.params.wf = true ∧ s.busy = false ∧ 1 < s.env.params.limbs ∧ (memWrite s (0x1F000 + 8 * 1) 8 5).isSome = true ∧
      (memWrite s (0x36000 + 8 * 1) 8 5).isSome = true ∧ (memWrite s (0x37000 + 8 * 0) 8 5).isSome = true := by decide +kernel

theorem witness_LimbReadsTwosComplement :
    let s := start [(15, -2 ^ 127)] [] { std with width := 128 }
    s.Inv ∧ s.busy = false ∧ 1 < s.env.params.limbs ∧ s.env.params.hasEnum = true :=
  ⟨inv_of_parts (by decide +kernel), by decide +kernel, by decide +kernel, by decide +kernel⟩

theorem witness_RefusedAccessChangesNothing :
    (let s := (start []).setPort [.read (0 + 0x4FFF8) 8]; s.env.port = .read (s.env.params.nteBase + 0x4FFF8) 8 :: []) ∧
    (let s := (busyOn 0).setPort [.write (0 + 0x010) 8 7]
     s.env.port = .write (s.env.params.nteBase + 0x010) 8 7 :: [] ∧ memWrite s 0x010 8 7 = none) ∧
    (let s := (start []).setPort [.write (0 + 0x37000) 8 7]
     s.env.port = .write (s.env.params.nteBase + 0x37000) 8 7 :: [] ∧ (memWrite s 0x37000 8 7).isSome = true) := by decide +kernel

end Sys2Proof.Tests
end

section
/-! What a command can end in, said once: `CommandEnd` lists the ends, `exec_end` says that there is no other. Every statement about all
commands is a case analysis over it. -/

namespace Sys2Proof.Machine
open Sys2Proof.Claims

/-- The ends of the command `i` run from `s` (R93, R252). -/
inductive CommandEnd (s : State) (i : Instr) : State → Prop
  /-- A fault of R247; the draws taken are not given back. -/
  | faults (c : Cause) (n : BitVec 8) (g : Source) (hpair : (causeCode c, n) ∈ faultPairs) :
      CommandEnd s i (takeFault c n (s.setSource g))
  /-- An integer result, after any number of draws. -/
  | writesInt (rd : XReg) (v : Int) (g : Source) (hd : destX i = some rd) (hv : fits s.width v = true) :
      CommandEnd s i (complete ((s.setX rd v).setSource g))
  /-- MODINV: an integer result and `NI` (R141). -/
  | inverts (rd rs1 rs2 : XReg) (v : Int) (b : Bool) (hi : i = .modinv rd rs1 rs2) (hv : fits s.width v = true) :
      CommandEnd s i (complete { s.setX rd v with ni := b })
  /-- ECSET and ECSETNB: an odd modulus above 3 (R196, R198). -/
  | setsCurve (c : Curve) (g : Source)
      (hi : (∃ rs1 rs2 rs3, i = .ecset rs1 rs2 rs3) ∨ ∃ rs1 rs3, i = .ecsetnb rs1 rs3)
      (hfits : fits s.width c.a = true ∧ fits s.width c.b = true ∧ fits s.width c.p = true)
      (hodd : 3 < c.p ∧ c.p % 2 = 1) :
      CommandEnd s i (complete ((s.setSource g).setCurve c))
  /-- The group-law commands: a point and `FB`; the point is valid on the curve in force when its modulus is positive (R214). -/
  | writesPoint (pd : PReg) (r : Point × Bool) (hd : destP i = some pd) (hcv : s.cv = true)
      (hfits : ∀ v ∈ r.1.coords, fits s.width v = true) (hvalid : 0 < s.cp → validPoint s.curve r.1 = true) :
      CommandEnd s i (complete { s.setP pd r.1 with fb := r.2 })
  /-- ECENUM: the list, its length in `x[rd]` and `ECNT` (R236). -/
  | enumerates (rd : XReg) (hi : i = .ecenum rd) (hcv : s.cv = true) (hmax : s.cp ≤ (s.env.params.enumMaxP : Int))
      (hfits : fits s.width ((ecPoints s.curve).length : Int) = true) :
      CommandEnd s i (complete { s.setX rd ((ecPoints s.curve).length : Int) with
        ebuf := Memory.writeList s.ebuf 0 (ecPoints s.curve), ecnt := BitVec.ofNat 64 (ecPoints s.curve).length })

namespace CommandEnd
variable {s t : State} {i : Instr}

theorem of_raise_after {c : Cause} {n : BitVec 8} {g : Source} (hpair : (causeCode c, n) ∈ faultPairs)
    (h : raise c n (s.setSource g) = .next t) : CommandEnd s i t := by
  cases h
  exact .faults c n g hpair

theorem of_raise {c : Cause} {n : BitVec 8} (hpair : (causeCode c, n) ∈ faultPairs) (h : raise c n s = .next t) :
    CommandEnd s i t :=
  of_raise_after (g := s.env.source) hpair h

/-- The fit check of R23 either lets the writes happen or faults. -/
theorem of_commit_after {vs : List Int} {u : State} {g : Source} (h : commit (s.setSource g) vs u = .next t)
    (hok : (∀ v ∈ vs, fits s.width v = true) → CommandEnd s i (complete u)) : CommandEnd s i t := by
  rcases commit_cases (s.setSource g) vs u with ⟨hfit, hc⟩ | ⟨-, hc⟩ <;> rw [hc] at h <;> cases h
  · exact hok hfit
  · exact .faults .range 1 g (by decide)

theorem of_commit {vs : List Int} {u : State} (h : commit s vs u = .next t)
    (hok : (∀ v ∈ vs, fits s.width v = true) → CommandEnd s i (complete u)) : CommandEnd s i t :=
  of_commit_after (g := s.env.source) h hok

theorem of_commitX_after {rd : XReg} {v : Int} {g : Source} (hd : destX i = some rd)
    (h : commitX (s.setSource g) rd v = .next t) : CommandEnd s i t :=
  of_commit_after h fun hfit => .writesInt rd v g hd (hfit v List.mem_cons_self)

theorem of_commitX {rd : XReg} {v : Int} (hd : destX i = some rd) (h : commitX s rd v = .next t) : CommandEnd s i t :=
  of_commitX_after (g := s.env.source) hd h

/-- The preamble of R199: a fault without a curve, else what the command does on the curve in force. -/
theorem of_withCurve {k : Curve → Out} (h : withCurve s k = .next t)
    (hk : s.cv = true → k s.curve = .next t → CommandEnd s i t) : CommandEnd s i t := by
  unfold withCurve at h
  split at h
  · next hcv => exact hk hcv h
  · exact of_raise (by decide) h

/-- The faults of `check_point` are `E_POINT(n)` and `E_POINT(0x10 + n)` (R211), for operand 1 or 2. -/
theorem checkPoint_pair {c : Curve} {P : Point} {n sub : BitVec 8} (hn : n = 1 ∨ n = 2) (h : checkPoint c P n = some sub) :
    (causeCode .point, sub) ∈ faultPairs := by
  have hsub : sub = 0x10 + n ∨ sub = n := by
    unfold checkPoint at h
    split at h
    · cases h
    · split at h
      · exact .inl (Option.some.inj h).symm
      · split at h
        · exact .inr (Option.some.inj h).symm
        · cases h
  rcases hn with rfl | rfl <;> rcases hsub with rfl | rfl <;> decide

theorem of_commitP {pd : PReg} {r : Point × Bool} (hd : destP i = some pd) (hcv : s.cv = true)
    (hvalid : 0 < s.cp → validPoint s.curve r.1 = true) (h : commitP s pd r = .next t) : CommandEnd s i t :=
  of_commit h fun hfits => .writesPoint pd r hd hcv hfits hvalid

/-- `construct` (R196): the two faults, else the curve, whose modulus passed the primality test. -/
theorem of_construct {c : Curve} (hi : (∃ rs1 rs2 rs3, i = .ecset rs1 rs2 rs3) ∨ ∃ rs1 rs3, i = .ecsetnb rs1 rs3)
    (h : construct c s = .next t) : CommandEnd s i t := by
  unfold construct at h
  split at h
  · exact of_raise (by decide) h
  · next hp =>
    dsimp only at h
    split at h
    · exact of_raise_after (by decide) h
    · next hv =>
      refine of_commit_after h fun hfit => .setsCurve c _ hi ?_ ?_
      · simpa using hfit
      · exact ⟨by omega, odd_of_isprimeOf (by simpa using hv) (by omega)⟩

/-! ### the commands, one by one -/

theorem modmul {rd rs1 rs2 rs3 : XReg} (h : execModmul rd rs1 rs2 rs3 s = .next t) :
    CommandEnd s (.modmul rd rs1 rs2 rs3) t := by
  unfold execModmul at h
  dsimp only at h
  split at h
  · exact of_raise (by decide) h
  · exact of_commitX rfl h

theorem gcd {rd rs1 rs2 : XReg} (h : execGcd rd rs1 rs2 s = .next t) : CommandEnd s (.gcd rd rs1 rs2) t := by
  unfold execGcd at h
  dsimp only at h
  split at h
  · exact of_raise (by decide) h
  · exact of_commitX rfl h

theorem modinv {rd rs1 rs2 : XReg} (h : execModinv rd rs1 rs2 s = .next t) : CommandEnd s (.modinv rd rs1 rs2) t := by
  unfold execModinv at h
  dsimp only at h
  split at h
  · exact of_raise (by decide) h
  · split at h
    · exact of_commit h fun hfit => .inverts rd rs1 rs2 _ _ rfl (hfit _ List.mem_cons_self)
    · exact of_commit h fun hfit => .inverts rd rs1 rs2 _ _ rfl (hfit _ List.mem_cons_self)

theorem powmod {rd rs1 rs2 rs3 : XReg} (h : execPowmod rd rs1 rs2 rs3 s = .next t) :
    CommandEnd s (.powmod rd rs1 rs2 rs3) t := by
  unfold execPowmod at h
  dsimp only at h
  split at h
  · exact of_raise (by decide) h
  · split at h
    · exact of_raise (by decide) h
    · exact of_commitX rfl h

theorem isprime {rd rs1 : XReg} (h : execIsprime rd rs1 s = .next t) : CommandEnd s (.isprime rd rs1) t :=
  of_commitX_after rfl h

theorem genprime {rd rs1 : XReg} (h : execGenprime rd rs1 s = .next t) : CommandEnd s (.genprime rd rs1) t := by
  unfold execGenprime at h
  dsimp only at h
  split at h
  · exact of_raise (by decide) h
  · split at h
    · exact of_raise_after (by decide) h
    · exact of_commitX_after rfl h

theorem sample {rd rs1 rs2 : XReg} (h : execSample rd rs1 rs2 s = .next t) : CommandEnd s (.sample rd rs1 rs2) t := by
  unfold execSample at h
  dsimp only at h
  split at h
  · exact of_raise (by decide) h
  · exact of_commitX_after rfl h

theorem findgen {rd rs1 : XReg} (h : execFindgen rd rs1 s = .next t) : CommandEnd s (.findgen rd rs1) t := by
  unfold execFindgen at h
  dsimp only at h
  split at h
  · exact of_raise (by decide) h
  · split at h
    · exact of_raise_after (by decide) h
    · split at h
      · exact of_raise_after (by decide) h
      · exact of_commitX_after rfl h

theorem ecset {rs1 rs2 rs3 : XReg} (h : execEcset rs1 rs2 rs3 s = .next t) : CommandEnd s (.ecset rs1 rs2 rs3) t :=
  of_construct (.inl ⟨rs1, rs2, rs3, rfl⟩) h

theorem ecsetnb {rs1 rs3 : XReg} (h : execEcsetnb rs1 rs3 s = .next t) : CommandEnd s (.ecsetnb rs1 rs3) t :=
  of_construct (.inr ⟨rs1, rs3, rfl⟩) h

theorem econcrv {rd : XReg} {ps1 : PReg} (h : execEconcrv rd ps1 s = .next t) : CommandEnd s (.econcrv rd ps1) t :=
  of_withCurve h fun _ h => of_commitX rfl h

theorem ecadd {pd ps1 ps2 : PReg} (h : execEcadd pd ps1 ps2 s = .next t) : CommandEnd s (.ecadd pd ps1 ps2) t := by
  refine of_withCurve h fun hcv h => ?_
  dsimp only at h
  split at h
  · next hP => exact of_raise (checkPoint_pair (.inl rfl) hP) h
  · next hP =>
    split at h
    · next hQ => exact of_raise (checkPoint_pair (.inr rfl) hQ) h
    · next hQ =>
      rw [checkPoint_eq_none_iff] at hP hQ
      exact of_commitP rfl hcv (fun hp => ecAdd_valid hp hP hQ) h

theorem ecdbl {pd ps1 : PReg} (h : execEcdbl pd ps1 s = .next t) : CommandEnd s (.ecdbl pd ps1) t := by
  refine of_withCurve h fun hcv h => ?_
  dsimp only at h
  split at h
  · next hP => exact of_raise (checkPoint_pair (.inl rfl) hP) h
  · next hP =>
    rw [checkPoint_eq_none_iff] at hP
    exact of_commitP rfl hcv (fun hp => ecAdd_valid hp hP hP) h

theorem ecsmul {pd : PReg} {rs1 : XReg} {ps2 : PReg} (h : execEcsmul pd rs1 ps2 s = .next t) :
    CommandEnd s (.ecsmul pd rs1 ps2) t := by
  refine of_withCurve h fun hcv h => ?_
  dsimp only at h
  split at h
  · exact of_raise (by decide) h
  · split at h
    · next hG => exact of_raise (checkPoint_pair (.inr rfl) hG) h
    · next hG =>
      rw [checkPoint_eq_none_iff] at hG
      exact of_commitP rfl hcv (fun hp => ecSmul_valid hp _ hG) h

theorem ecenum {rd : XReg} (h : execEcenum rd s = .next t) : CommandEnd s (.ecenum rd) t := by
  unfold execEcenum at h
  split at h
  · exact of_raise (by decide) h
  · refine of_withCurve h fun hcv h => ?_
    dsimp only at h
    split at h
    · exact of_raise (by decide) h
    · next hmax =>
      exact of_commit h fun hfit => .enumerates rd rfl hcv (not_lt.1 hmax) (hfit _ List.mem_cons_self)

end CommandEnd

/-- Whatever a command ends in is one of its ends. -/
theorem exec_end {i : Instr} {s t : State} (h : exec i s = .next t) : CommandEnd s i t := by
  cases i with
  | modmul rd rs1 rs2 rs3 => exact .modmul h
  | gcd rd rs1 rs2 => exact .gcd h
  | modinv rd rs1 rs2 => exact .modinv h
  | powmod rd rs1 rs2 rs3 => exact .powmod h
  | isprime rd rs1 => exact .isprime h
  | genprime rd rs1 => exact .genprime h
  | sample rd rs1 rs2 => exact .sample h
  | findgen rd rs1 => exact .findgen h
  | ecset rs1 rs2 rs3 => exact .ecset h
  | ecsetnb rs1 rs3 => exact .ecsetnb h
  | econcrv rd ps1 => exact .econcrv h
  | ecadd pd ps1 ps2 => exact .ecadd h
  | ecdbl pd ps1 => exact .ecdbl h
  | ecsmul pd rs1 ps2 => exact .ecsmul h
  | ecenum rd => exact .ecenum h

end Sys2Proof.Machine
end

section
/-! What one step can do, said once: the writes a host can make (`HostWrite`), and the transitions of R295 (`Stepped`). -/

namespace Sys2Proof.Machine

/-- The states an accepted host write of `v` leaves (R64, R65). -/
inductive HostWrite (s : State) (v : Word) : State → Prop
  /-- `CMD`: a command is accepted (R92). -/
  | command (hb : s.busy = false) (hf : s.fault = false) : HostWrite s v { s with ir := v, busy := true, done := false }
  /-- `STATUS` (R254). -/
  | status : HostWrite s v (writeStatus v s)
  /-- `IE` (R43). -/
  | ie : HostWrite s v (writeIe v s)
  /-- `ESEL` (R47). -/
  | esel (hb : s.busy = false) (hv : v.toNat < s.env.params.ebufDepth) : HostWrite s v { s with esel := v }
  /-- `PTAG[i]` (R26). -/
  | tag (i : PReg) (hb : s.busy = false) : HostWrite s v (s.setPReg i { s.getPReg i with inf := v.getLsbD 0 })
  /-- One limb of `x[i]` (R66). -/
  | xLimb (i : XReg) (j : Nat) (hb : s.busy = false) : HostWrite s v (s.setX i (putLimb s.width (s.getX i) j v))
  /-- One limb of `PX[i]` (R66). -/
  | pxLimb (i : PReg) (j : Nat) (hb : s.busy = false) :
      HostWrite s v (s.setPReg i { s.getPReg i with x := putLimb s.width (s.getPReg i).x j v })
  /-- One limb of `PY[i]` (R66). -/
  | pyLimb (i : PReg) (j : Nat) (hb : s.busy = false) :
      HostWrite s v (s.setPReg i { s.getPReg i with y := putLimb s.width (s.getPReg i).y j v })

theorem ctlWrite_hostWrite {s t : State} {v : Word} {r : CtlReg} (h : ctlWrite s v r = some t) : HostWrite s v t := by
  cases r with
  | cmd =>
    obtain ⟨hb, hf, rfl⟩ := accept_eq_some s h
    exact .command hb hf
  | status => cases h; exact .status
  | ie => cases h; exact .ie
  | esel =>
    simp only [ctlWrite, Option.ite_none_left_eq_some, Bool.not_eq_true] at h
    obtain ⟨hb, h⟩ := h
    split at h
    · next hv => cases h; exact .esel hb hv
    · cases h
  | ptag i =>
    simp only [ctlWrite, Option.ite_none_left_eq_some, Bool.not_eq_true] at h
    obtain ⟨hb, h⟩ := h
    cases h
    exact .tag i hb
  | _ => cases h

theorem wideWrite_hostWrite {s t : State} {j : Nat} {v : Word} {r : WideReg} (h : wideWrite s j v r = some t) :
    HostWrite s v t := by
  simp only [wideWrite, Option.ite_none_left_eq_some, Bool.not_eq_true] at h
  obtain ⟨hb, h⟩ := h
  cases r with
  | x i => cases h; exact .xLimb i j hb
  | px i => cases h; exact .pxLimb i j hb
  | py i => cases h; exact .pyLimb i j hb
  | _ => cases h

/-- An accepted write is one of the host's writes. -/
theorem memWrite_hostWrite {s t : State} {off size : Nat} {v : Word} (h : memWrite s off size v = some t) : HostWrite s v t := by
  obtain ⟨loc, -, h⟩ := Option.bind_eq_some_iff.1 h
  cases loc with
  | ctl r => exact ctlWrite_hostWrite h
  | limb r j => exact wideWrite_hostWrite h

/-- A write to `STATUS` that clears the fault (R254). -/
theorem writeStatus_of_clear {v : Word} {s : State} (hv : v.getLsbD 2 = true) (hf : s.fault = true) :
    writeStatus v s = { s with done := s.done && !v.getLsbD 1, fault := false, cause := 0, sub := 0 } := by
  simp only [writeStatus, hv, hf]
  rfl

/-- A write to `STATUS` that leaves the fault as it is (R254). -/
theorem writeStatus_of_keep {v : Word} {s : State} (h : v.getLsbD 2 = false ∨ s.fault = false) :
    writeStatus v s = { s with done := s.done && !v.getLsbD 1 } := by
  have hclear : (v.getLsbD 2 && s.fault) = false := by simpa only [Bool.and_eq_false_iff] using h
  simp only [writeStatus, hclear, Bool.not_false, Bool.and_true, Bool.false_eq_true, if_false]

theorem writeStatus_cases (v : Word) (s : State) :
    writeStatus v s = { s with done := s.done && !v.getLsbD 1 } ∨
      writeStatus v s = { s with done := s.done && !v.getLsbD 1, fault := false, cause := 0, sub := 0 } := by
  by_cases h : v.getLsbD 2 = true ∧ s.fault = true
  · exact .inr (writeStatus_of_clear h.1 h.2)
  · exact .inl (writeStatus_of_keep (by simpa only [Classical.not_and_iff_not_or_not, Bool.not_eq_true] using h))

/-- What one step from `s` can end in (R295), `l` being what then waits at the port. -/
inductive Stepped (s : State) : State → Prop
  /-- The engine's own step. -/
  | engine (l : List PortEvent) {t : State} (h : engineStep (s.setPort l) = .next t) : Stepped s t
  /-- An access that changes nothing but the response. -/
  | answered (l : List PortEvent) (r : Option Response) : Stepped s ((s.setPort l).respond r)
  /-- An accepted write. -/
  | written (l : List PortEvent) (v : Word) {u : State} (r : Option Response) (h : HostWrite (s.setPort l) v u) :
      Stepped s (u.respond r)
  /-- The reset input. -/
  | reset (l : List PortEvent) (hport : s.env.port = .reset :: l) : Stepped s (resetLine (s.setPort l))

/-- A read changes nothing but the response (R73). -/
theorem hostRead_eq_respond (s : State) (addr size : Nat) : ∃ r, hostRead s addr size = s.respond r := by
  unfold hostRead
  split
  · exact ⟨_, rfl⟩
  · split <;> exact ⟨_, rfl⟩

/-- A write changes nothing but the response, or is accepted (R63). -/
theorem hostWrite_cases (s : State) (addr size : Nat) (v : Word) :
    (∃ r, hostWrite s addr size v = s.respond r) ∨
      ∃ u r, HostWrite s v u ∧ hostWrite s addr size v = u.respond r := by
  unfold hostWrite
  split
  · exact .inl ⟨_, rfl⟩
  · split
    · exact .inl ⟨_, rfl⟩
    · next u hu => exact .inr ⟨u, _, memWrite_hostWrite hu, rfl⟩

theorem step_stepped {s t : State} (h : step s = .next t) : Stepped s t := by
  unfold step transition at h
  split at h
  · exact .engine s.env.port h
  · next e l hport =>
    cases e with
    | read addr size =>
      obtain ⟨r, hr⟩ := hostRead_eq_respond (s.setPort l) addr size
      cases h
      rw [hr]
      exact .answered l r
    | write addr size v =>
      cases h
      rcases hostWrite_cases (s.setPort l) addr size v with ⟨r, hr⟩ | ⟨u, r, hu, hr⟩
      · rw [hr]; exact .answered l r
      · rw [hr]; exact .written l v r hu
    | reset => cases h; exact .reset l hport
    | engineTurn => exact .engine l h

/-- The engine's step (R296): nothing while idle, `E_ILLEGAL(0)` for an illegal word, else the decoded command. -/
theorem engineStep_cases {s t : State} (h : engineStep s = .next t) :
    t = s ∨ t = takeFault .illegal 0 s ∨ ∃ i, exec i s = .next t := by
  unfold engineStep at h
  split at h
  · split at h
    · exact .inr (.inl (Host.Outcome.next.inj h).symm)
    · next i _ => exact .inr (.inr ⟨i, h⟩)
  · exact .inl (Host.Outcome.next.inj h).symm

end Sys2Proof.Machine
end

section
/-! The invariant of the state: one lemma per operation on the state, then one per kind of transition. -/

namespace Sys2Proof.Machine

/-- The bounds R7 puts on the parameters, as numbers. -/
theorem Params.bounds_of_wf {p : Params} (h : p.wf = true) :
    64 ≤ p.width ∧ p.width ≤ 32768 ∧ p.maxPrimeProbes < 2 ^ 64 ∧ p.maxGenTries < 2 ^ 64 ∧ p.enumMaxP < 2 ^ 32 := by
  simp only [Params.wf, Bool.and_eq_true, decide_eq_true_eq] at h
  obtain ⟨⟨⟨⟨-, hlo, hhi⟩, -, hprobes⟩, -, htries⟩, henum⟩ := h
  refine ⟨hlo, hhi, hprobes, htries, ?_⟩
  split at henum <;> simp only [decide_eq_true_eq] at henum <;> omega

/-- `EBUF` has entries only when ECENUM exists (R49). -/
theorem Params.hasEnum_of_depth_pos {p : Params} (h : p.wf = true) (hd : 0 < p.ebufDepth) : p.hasEnum = true := by
  cases hn : p.hasEnum with
  | true => rfl
  | false =>
    have hzero : p.enumMaxP = 0 := by
      simp only [Params.wf, hn, Bool.false_eq_true, if_false, Bool.and_eq_true, decide_eq_true_eq] at h
      exact h.2
    simp [Params.ebufDepth, hzero] at hd

namespace State.Inv
variable {s : State} (h : s.Inv)
include h

theorem width_pos : 1 ≤ s.width := by
  have := Params.bounds_of_wf h.params
  simp only [State.width]
  omega

/-- The invariant reads no input but the parameters. -/
theorem withEnv {e : Env} (he : e.params = s.env.params) : State.Inv { s with env := e } := by
  obtain ⟨p, source, port, response⟩ := e
  obtain rfl : p = s.env.params := he
  exact { h with }

theorem setSource (g : Source) : (s.setSource g).Inv := h.withEnv rfl
theorem setPort (l : List PortEvent) : (s.setPort l).Inv := h.withEnv rfl
theorem respond (r : Option Response) : (s.respond r).Inv := h.withEnv rfl

theorem setX {i : XReg} {v : Int} (hv : fits s.width v = true) : (s.setX i v).Inv :=
  { h with
    xFits := fun j => by
      rw [State.getX_setX]
      split
      · exact hv
      · exact h.xFits j }

theorem setPReg {i : PReg} {r : PointReg} (hr : fits s.width r.x = true ∧ fits s.width r.y = true) :
    (s.setPReg i r).Inv :=
  { h with
    pFits := fun j => by
      rw [State.getPReg_setPReg]
      split
      · exact hr
      · exact h.pFits j }

theorem setP {i : PReg} {P : Point} (hP : ∀ v ∈ P.coords, fits s.width v = true) : (s.setP i P).Inv := by
  refine h.setPReg ?_
  cases P with
  | inf => exact ⟨fits_zero _, fits_zero _⟩
  | fin x y => exact ⟨hP x (by simp [Point.coords]), hP y (by simp [Point.coords])⟩

theorem setCurve {c : Curve} (hfits : fits s.width c.a = true ∧ fits s.width c.b = true ∧ fits s.width c.p = true)
    (hodd : 3 < c.p ∧ c.p % 2 = 1) : (s.setCurve c).Inv :=
  { h with
    curveFits := hfits
    curveValid := fun _ => hodd }

theorem complete : (complete s).Inv := { h with busyFlags := fun hb => by cases hb }

theorem takeFault {c : Cause} {n : BitVec 8} (hpair : (causeCode c, n) ∈ faultPairs) : (takeFault c n s).Inv :=
  { h with
    busyFlags := fun hb => by cases hb
    causeIffFault := by cases c <;> simp [causeCode]
    finfoZero := fun hf => by cases hf
    faultPair := fun _ => hpair }

theorem setNi (b : Bool) : State.Inv { s with ni := b } := { h with }
theorem setFb (b : Bool) : State.Inv { s with fb := b } := { h with }

theorem writeStatus (v : Word) : (writeStatus v s).Inv := by
  have hbusy : s.busy = true → (s.done && !v.getLsbD 1) = false ∧ s.fault = false := fun hb => by
    obtain ⟨hd, hf⟩ := h.busyFlags hb
    simp [hd, hf]
  rcases writeStatus_cases v s with hw | hw <;> rw [hw]
  · exact { h with busyFlags := hbusy }
  · exact { h with
      busyFlags := fun hb => ⟨(hbusy hb).1, rfl⟩
      causeIffFault := by simp
      finfoZero := fun _ => rfl
      faultPair := fun hf => by cases hf }

/-- ECENUM's writes: at most `2 · p` points, so at most `EBUF_DEPTH`, their coordinates below the modulus (R236, R237). -/
theorem enumerate (hcv : s.cv = true) (hmax : s.cp ≤ (s.env.params.enumMaxP : Int)) :
    State.Inv { s with ebuf := Memory.writeList s.ebuf 0 (ecPoints s.curve),
                       ecnt := BitVec.ofNat 64 (ecPoints s.curve).length } := by
  have hp : 3 < s.cp := (h.curveValid hcv).1
  obtain ⟨hlen, hvalid⟩ := ecPoints_spec (c := s.curve) (show 1 < s.cp by omega)
  have hdepth : (ecPoints s.curve).length ≤ s.env.params.ebufDepth := by
    have : ((ecPoints s.curve).length : Int) ≤ 2 * s.cp := hlen
    unfold Params.ebufDepth
    omega
  have hcoords : ∀ e ∈ ecPoints s.curve, fits s.width e.1 = true ∧ fits s.width e.2 = true := fun e he => by
    have := fits_coords (c := s.curve) h.curveFits.2.2 (hvalid e he)
    simpa [Point.coords] using this
  exact { h with
    ebufWf := Memory.wf_writeList h.ebufWf 0 _
    ebufFits := Memory.forall_writeList h.ebufFits 0 fun i hi =>
      ⟨by simp only [Nat.zero_add]; omega, hcoords _ (List.getElem_mem hi)⟩
    ecntBound := by
      simp only [BitVec.toNat_ofNat]
      exact (Nat.mod_le _ _).trans hdepth }

theorem commandEnd {i : Instr} {t : State} (ht : CommandEnd s i t) : t.Inv := by
  cases ht with
  | faults c n g hpair => exact (h.setSource g).takeFault hpair
  | writesInt rd v g _ hv => exact ((h.setX hv).setSource g).complete
  | inverts rd rs1 rs2 v b _ hv => exact ((h.setX hv).setNi b).complete
  | setsCurve c g _ hfits hodd => exact ((h.setSource g).setCurve hfits hodd).complete
  | writesPoint pd r _ _ hfits _ => exact ((h.setP hfits).setFb r.2).complete
  | enumerates rd _ hcv hmax hfits => exact ((h.setX hfits).enumerate hcv hmax).complete

theorem engineStep {t : State} (ht : engineStep s = .next t) : t.Inv := by
  rcases engineStep_cases ht with rfl | rfl | ⟨i, hi⟩
  · exact h
  · exact h.takeFault (by decide)
  · exact h.commandEnd (exec_end hi)

theorem hostWrite {v : Word} {t : State} (ht : HostWrite s v t) : t.Inv := by
  cases ht with
  | command hb hf => exact { h with busyFlags := fun _ => ⟨rfl, hf⟩ }
  | status => exact h.writeStatus v
  | ie => exact { h with }
  | esel hb hv => exact { h with eselBound := .inl hv }
  | tag i hb => exact h.setPReg (h.pFits i)
  | xLimb i j hb => exact h.setX (fits_putLimb h.width_pos _ j v)
  | pxLimb i j hb => exact h.setPReg ⟨fits_putLimb h.width_pos _ j v, (h.pFits i).2⟩
  | pyLimb i j hb => exact h.setPReg ⟨(h.pFits i).1, fits_putLimb h.width_pos _ j v⟩

end State.Inv

@[simp] theorem State.getX_resetWith (p : Params) (i : XReg) : (State.resetWith p).getX i = 0 := by
  simp [State.getX, State.resetWith]

@[simp] theorem State.getPReg_resetWith (p : Params) (i : PReg) : (State.resetWith p).getPReg i = ⟨true, 0, 0⟩ := by
  simp [State.getPReg, State.resetWith]

/-- The reset state meets the invariant under all parameters of R7. -/
theorem State.resetWith_inv {p : Params} (hp : p.wf = true) : (State.resetWith p).Inv where
  params := hp
  xFits i := by rw [State.getX_resetWith]; exact fits_zero _
  pFits i := by rw [State.getPReg_resetWith]; exact ⟨fits_zero _, fits_zero _⟩
  curveFits := ⟨fits_zero _, fits_zero _, fits_zero _⟩
  ebufWf := rfl
  ebufFits := fun _ hje => absurd hje List.not_mem_nil
  busyFlags := fun hb => by cases hb
  causeIffFault := by simp [State.resetWith]
  finfoZero := fun _ => rfl
  faultPair := fun hf => by cases hf
  curveValid := fun hcv => by cases hcv
  eselBound := .inr rfl
  ecntBound := Nat.zero_le _

theorem State.Inv.step {s t : State} (h : s.Inv) (ht : step s = .next t) : t.Inv := by
  cases step_stepped ht with
  | engine l ht => exact (h.setPort l).engineStep ht
  | answered l r => exact (h.setPort l).respond r
  | written l v r hu => exact ((h.setPort l).hostWrite hu).respond r
  | reset l _ => exact (State.resetWith_inv h.params).withEnv rfl

/-- Settles O11, over the transitions of R295: each is made of operations that keep the invariant. -/
theorem stepKeepsTheStateInvariant : Obligations.StepKeepsTheStateInvariant :=
  fun _ _ h ht => h.step ht

/-- Settles O12. -/
theorem resetMeetsTheStateInvariant : Obligations.ResetMeetsTheStateInvariant :=
  ⟨fun _ hp => State.resetWith_inv hp, by decide⟩

end Sys2Proof.Machine
end

section
/-! What every command and every step leaves unchanged, and what the points written are: case analyses over the ends of a command. -/

namespace Sys2Proof.Machine
open Sys2Proof.Claims

/-- The points of R211's check, in the words of the statements. -/
theorem usable_iff_validPoint (c : Curve) (P : Point) : usable c P ↔ validPoint c P = true := by
  cases P with
  | inf => simp [usable, outOfRange, offCurve, validPoint]
  | fin x y => simp [usable, outOfRange, offCurve, satisfies, validPoint, inRange_iff, oncurve_fin_iff]

theorem State.getX_setX_of_ne (s : State) {i j : XReg} (v : Int) (h : i ≠ j) : (s.setX i v).getX j = s.getX j := by
  rw [State.getX_setX, if_neg h]

theorem State.getPReg_setP_of_ne (s : State) {i j : PReg} (P : Point) (h : i ≠ j) :
    (s.setP i P).getPReg j = s.getPReg j := by
  rw [State.setP, State.getPReg_setPReg, if_neg h]

theorem State.getPReg_setP_self (s : State) (i : PReg) (P : Point) : (s.setP i P).getPReg i = P.toReg := by
  rw [State.setP, State.getPReg_setPReg, if_pos rfl]

namespace CommandEnd
variable {s t : State} {i : Instr} (ht : CommandEnd s i t)
include ht

theorem getX_of_not_dest {r : XReg} (h : destX i ≠ some r) : t.getX r = s.getX r := by
  have hne : ∀ {rd}, destX i = some rd → rd ≠ r := fun hd e => h (e ▸ hd)
  cases ht with
  | faults => rfl
  | writesInt rd v g hd _ => exact s.getX_setX_of_ne v (hne hd)
  | inverts rd rs1 rs2 v b hi _ => exact s.getX_setX_of_ne v (hne (by rw [hi]; rfl))
  | setsCurve => rfl
  | writesPoint => rfl
  | enumerates rd hi => exact s.getX_setX_of_ne _ (hne (by rw [hi]; rfl))

theorem getPReg_of_not_dest {r : PReg} (h : destP i ≠ some r) : t.getPReg r = s.getPReg r := by
  cases ht with
  | writesPoint pd P hd => exact s.getPReg_setP_of_ne P.1 fun e => h (e ▸ hd)
  | _ => rfl

theorem ir_eq : t.ir = s.ir := by cases ht <;> rfl
theorem doneIe_eq : t.doneIe = s.doneIe := by cases ht <;> rfl
theorem faultIe_eq : t.faultIe = s.faultIe := by cases ht <;> rfl
theorem esel_eq : t.esel = s.esel := by cases ht <;> rfl
theorem params_eq : t.env.params = s.env.params := by cases ht <;> rfl
theorem port_eq : t.env.port = s.env.port := by cases ht <;> rfl
theorem response_eq : t.env.response = s.env.response := by cases ht <;> rfl

theorem ni_eq (h : ∀ rd rs1 rs2, i ≠ .modinv rd rs1 rs2) : t.ni = s.ni := by
  cases ht with
  | inverts rd rs1 rs2 v b hi _ => exact absurd hi (h rd rs1 rs2)
  | _ => rfl

theorem curve_eq (h : ∀ rs1 rs2 rs3, i ≠ .ecset rs1 rs2 rs3) (hnb : ∀ rs1 rs3, i ≠ .ecsetnb rs1 rs3) :
    t.ca = s.ca ∧ t.cb = s.cb ∧ t.cp = s.cp ∧ t.cv = s.cv := by
  cases ht with
  | setsCurve c g hi _ _ =>
    rcases hi with ⟨rs1, rs2, rs3, hi⟩ | ⟨rs1, rs3, hi⟩
    · exact absurd hi (h rs1 rs2 rs3)
    · exact absurd hi (hnb rs1 rs3)
  | _ => exact ⟨rfl, rfl, rfl, rfl⟩

theorem fb_eq (h : destP i = none) : t.fb = s.fb := by
  cases ht with
  | writesPoint pd r hd => rw [h] at hd; cases hd
  | _ => rfl

theorem ecnt_eq_and_ebuf_eq (h : ∀ rd, i ≠ .ecenum rd) : t.ecnt = s.ecnt ∧ t.ebuf = s.ebuf := by
  cases ht with
  | enumerates rd hi => exact absurd hi (h rd)
  | _ => exact ⟨rfl, rfl⟩

/-- No command takes a curve out of force (R32). -/
theorem cv_of_cv (h : s.cv = true) : t.cv = true := by
  cases ht with
  | setsCurve => rfl
  | _ => exact h

/-- The point a command writes is `Inf` with zero coordinates or valid on the curve in force, which the command leaves (R28, R210). -/
theorem point_written (hs : s.Inv) {r : PReg} (hne : t.getPReg r ≠ s.getPReg r) :
    t.getPReg r = ⟨true, 0, 0⟩ ∨ ((t.getPReg r).inf = false ∧ usable t.curve (t.getP r)) := by
  cases ht with
  | writesPoint pd R hd hcv hfits hvalid =>
    have hp : 0 < s.cp := by
      have := (hs.curveValid hcv).1
      omega
    obtain rfl : pd = r := by
      by_contra hpd
      exact hne (s.getPReg_setP_of_ne R.1 hpd)
    have hreg : (complete { s.setP pd R.1 with fb := R.2 }).getPReg pd = R.1.toReg := s.getPReg_setP_self pd R.1
    rw [State.getP, hreg, Point.value_toReg, usable_iff_validPoint]
    obtain ⟨P, fb⟩ := R
    cases P with
    | inf => exact .inl rfl
    | fin x y => exact .inr ⟨rfl, hvalid hp⟩
  | _ => exact absurd rfl hne

end CommandEnd

/-- No host write touches `CV` (R37, R73). -/
theorem HostWrite.cv_eq {s t : State} {v : Word} (h : HostWrite s v t) : t.cv = s.cv := by cases h <;> rfl

/-- Settles O41. -/
theorem commandsWriteOnlyTheirResults : Obligations.CommandsWriteOnlyTheirResults := by
  intro s t i h
  have ht := exec_end h
  refine ⟨fun _ => ht.getX_of_not_dest, fun _ => ht.getPReg_of_not_dest, ht.ir_eq, ht.doneIe_eq, ht.faultIe_eq, ht.esel_eq,
    ht.params_eq, ht.port_eq, ht.response_eq, ht.ni_eq, ht.curve_eq, ht.fb_eq, fun hi => ?_⟩
  obtain ⟨hcnt, hbuf⟩ := ht.ecnt_eq_and_ebuf_eq hi
  exact ⟨hcnt, fun j => by rw [hbuf]⟩

/-- Settles O45. -/
theorem commandsWriteOnlyCurvePoints : Obligations.CommandsWriteOnlyCurvePoints :=
  fun _ _ _ _ hs h hne => (exec_end h).point_written hs hne

/-- Settles O46, over the transitions of R295: only reset writes `CV` otherwise than to 1. -/
theorem curveFlagClearedOnlyByReset : Obligations.CurveFlagClearedOnlyByReset := by
  intro s t hcv h hport
  cases step_stepped h with
  | engine l h =>
    rcases engineStep_cases h with rfl | rfl | ⟨i, hi⟩
    · exact hcv
    · exact hcv
    · exact (exec_end hi).cv_of_cv hcv
  | answered l r => exact hcv
  | written l v r hu => exact hu.cv_eq.trans hcv
  | reset l hl => exact absurd hl (hport l)

end Sys2Proof.Machine
end

section
/-! Where an access of the window lands (spec R64, R65), and the words assembled from the fields (R26, R41 to R44), bit by bit. -/

namespace Sys2Proof.Machine

/-! ### fields of a word -/

theorem getLsbD_placeAt {n : Nat} (f : BitVec n) (lo k : Nat) :
    (placeAt f lo).getLsbD k = (decide (k < 64) && decide (lo ≤ k) && f.getLsbD (k - lo)) := by
  simp only [placeAt, BitVec.getLsbD_shiftLeft, BitVec.getLsbD_setWidth]
  by_cases hk : k < 64
  · by_cases hlo : lo ≤ k
    · simp [hk, hlo, show k - lo < 64 by omega]
    · simp [hlo, Nat.lt_of_not_le hlo]
  · simp [hk]

/-- A field read at its own place. -/
theorem extractLsb'_placeAt_self {n : Nat} (f : BitVec n) (lo : Nat) (h : lo + n ≤ 64) :
    (placeAt f lo).extractLsb' lo n = f := by
  refine BitVec.eq_of_getLsbD_eq fun i hi => ?_
  rw [BitVec.getLsbD_extractLsb', getLsbD_placeAt]
  simp [hi, show lo + i < 64 by omega]

/-- A field read where another one stands. -/
theorem extractLsb'_placeAt_disjoint {n : Nat} (f : BitVec n) (lo start len : Nat)
    (h : lo + n ≤ start ∨ start + len ≤ lo) : (placeAt f lo).extractLsb' start len = 0 := by
  refine BitVec.eq_of_getLsbD_eq fun i hi => ?_
  rw [BitVec.getLsbD_extractLsb', getLsbD_placeAt]
  rcases h with h | h
  · simp [BitVec.getLsbD_of_ge f (start + i - lo) (by omega)]
  · simp [show ¬ lo ≤ start + i by omega]

/-! ### where an access lands -/

theorem locate_ctl {p : Params} {off : Nat} {r : CtlReg} (h : ctlAt off = some r) : locate p off 8 = some (.ctl r) := by
  unfold ctlAt at h
  split at h <;> cases h <;> rfl

/-- A control register is read at any time (R64, R68). -/
theorem memRead_ctl {s : State} {off : Nat} {r : CtlReg} (h : ctlAt off = some r) :
    memRead s off 8 = some (ctlRead s r) := by
  rw [memRead, locate_ctl h]
  rfl

theorem memWrite_ctl {s : State} {off : Nat} {v : Word} {r : CtlReg} (h : ctlAt off = some r) :
    memWrite s off 8 v = ctlWrite s v r := by
  rw [memWrite, locate_ctl h]
  rfl

theorem ctlAt_ptag (i : PReg) : ctlAt (0x080 + 8 * i.val) = some (.ptag i) := by
  revert i
  decide

theorem lt_of_wideAt {slot : Nat} {r : WideReg} (h : wideAt slot = some r) : slot < 64 := by
  unfold wideAt at h
  split at h
  · omega
  · split at h
    any_goals omega
    cases h

theorem locate_limb {p : Params} (hp : p.wf = true) {off slot j : Nat} {r : WideReg} (hr : wideAt slot = some r)
    (hj : j < p.limbs) (hoff : off = 0x10000 + slot * 0x1000 + 8 * j) : locate p off 8 = some (.limb r j) := by
  have hslot := lt_of_wideAt hr
  have hlimbs : p.limbs ≤ 512 := by
    have := Params.bounds_of_wf hp
    unfold Params.limbs
    omega
  have hdiv : (off - 0x10000) / 0x1000 = slot := by omega
  have hmod : (off - 0x10000) % 0x1000 / 8 = j := by omega
  unfold locate windowBytes
  rw [if_neg (by omega), if_neg (by omega), if_pos (by omega), hdiv, hr, hmod]
  exact if_pos hj

/-- A limb is read while the engine is idle (R65, R66, R68). -/
theorem memRead_limb {s : State} (hp : s.env.params.wf = true) (hb : s.busy = false) {off slot j : Nat} {r : WideReg} {v : Int}
    (hr : wideAt slot = some r) (hj : j < s.env.params.limbs) (hoff : off = 0x10000 + slot * 0x1000 + 8 * j)
    (hv : wideValue s r = some v) : memRead s off 8 = some (limbOf s.width v j) := by
  rw [memRead, locate_limb hp hr hj hoff]
  simp [readLoc, hb, hv]

/-! ### STATUS and FINFO -/

/-- The fields of `STATUS` at their bits, and zeros between and above them (R41). -/
theorem statusWord_fields (s : State) :
    (statusWord s).getLsbD 0 = s.busy ∧ (statusWord s).getLsbD 1 = s.done ∧ (statusWord s).getLsbD 2 = s.fault ∧
      (statusWord s).getLsbD 3 = s.ni ∧ (statusWord s).getLsbD 4 = s.cv ∧ (statusWord s).getLsbD 5 = s.fb ∧
      (statusWord s).extractLsb' 6 2 = 0 ∧ (statusWord s).extractLsb' 8 8 = s.cause ∧
      (statusWord s).extractLsb' 16 48 = 0 := by
  unfold statusWord
  simp only [BitVec.getLsbD_or, BitVec.extractLsb'_or]
  refine ⟨by simp, by simp, by simp, by simp, by simp, by simp, ?_, ?_, ?_⟩
  · simp (disch := omega) only [extractLsb'_placeAt_disjoint]
    rfl
  · simp (disch := omega) only [extractLsb'_placeAt_self, extractLsb'_placeAt_disjoint]
    simp
  · simp (disch := omega) only [extractLsb'_placeAt_disjoint]
    rfl

/-- The causes of R247 are 1 to 7. -/
theorem cause_le_of_mem_faultPairs {c n : BitVec 8} (h : (c, n) ∈ faultPairs) : c.toNat ≤ 7 := by
  have hall : ∀ q ∈ faultPairs, q.1.toNat ≤ 7 := by simp [faultPairs]
  exact hall _ h

theorem State.Inv.cause_le {s : State} (h : s.Inv) : s.cause.toNat ≤ 7 := by
  cases hf : s.fault with
  | true => exact cause_le_of_mem_faultPairs (h.faultPair hf)
  | false =>
    have hc : s.cause = 0 := by
      by_contra hc
      simp [h.causeIffFault.1 hc] at hf
    simp [hc]

/-- Settles O51. -/
theorem statusReadsItsFields : Obligations.StatusReadsItsFields := by
  intro s h
  refine ⟨⟨statusWord s, memRead_ctl (r := .status) rfl, ?_⟩, ⟨finfoWord s, memRead_ctl (r := .finfo) rfl, ?_, ?_, fun hf => ?_⟩,
    memRead_ctl (r := .cmd) rfl, memRead_ctl (r := .ecnt) rfl⟩
  · obtain ⟨hbusy, hdone, hfault, hni, hcv, hfb, hgap, hcause, htop⟩ := statusWord_fields s
    refine ⟨hbusy, hdone, hfault, hni, hcv, hfb, hgap, hcause, htop, ?_, ?_, ?_⟩
    · rw [hcause]; exact h.cause_le
    · rw [hbusy, hdone, hfault]; exact h.busyFlags
    · rw [hcause, hfault]; exact h.causeIffFault
  · exact extractLsb'_placeAt_self _ 0 (by omega)
  · exact extractLsb'_placeAt_disjoint _ 0 8 56 (by omega)
  · rw [finfoWord, h.finfoZero hf]
    rfl

/-- Settles O52. -/
theorem ptagReadAndWrite : Obligations.PtagReadAndWrite := by
  intro s i v
  refine ⟨⟨_, memRead_ctl (ctlAt_ptag i), ?_, ?_⟩, fun hb => ?_, fun hb => ?_⟩
  · simp [ctlRead, ptagWord]
  · exact extractLsb'_placeAt_disjoint _ 0 1 63 (by omega)
  · rw [memWrite_ctl (ctlAt_ptag i), ctlWrite, if_pos hb]
  · rw [memWrite_ctl (ctlAt_ptag i), ctlWrite, if_neg (by simp [hb])]
    rfl

/-- `IE` reads back the two bits it keeps (R43). -/
theorem ieWord_writeIe (v : Word) (s : State) : ieWord (writeIe v s) = v &&& 3 := by
  refine BitVec.eq_of_getLsbD_eq fun k hk => ?_
  simp only [ieWord, BitVec.getLsbD_or, getLsbD_placeAt, BitVec.getLsbD_and, writeIe_doneIe, writeIe_faultIe]
  match k with
  | 0 => simp
  | 1 => simp
  | k + 2 =>
    have htop : (3 : Word).getLsbD (k + 2) = false := by
      rw [show (3 : Word) = (3#2).setWidth 64 from rfl, BitVec.getLsbD_setWidth, BitVec.getLsbD_of_ge _ _ (by omega),
        Bool.and_false]
    simp only [htop, Bool.and_false]
    simp

/-- Settles O53. -/
theorem ieGatesTheInterruptLine : Obligations.IeGatesTheInterruptLine := by
  intro s v
  refine ⟨writeIe v s, memWrite_ctl (r := .ie) rfl, rfl, ?_, ?_⟩
  · rw [← ieWord_writeIe v s]
    exact memRead_ctl (r := .ie) rfl
  · simp only [State.irq, Bool.or_eq_true, Bool.and_eq_true, writeIe_done, writeIe_fault, writeIe_doneIe, writeIe_faultIe]

/-- Settles O54. -/
theorem eselSelectsTheEntry : Obligations.EselSelectsTheEntry := by
  intro s v j hp hj
  refine ⟨memRead_ctl (r := .esel) rfl, fun h => ?_, fun hb hv => ⟨?_, ?_, ?_⟩⟩
  · rw [memWrite_ctl (r := .esel) rfl, ctlWrite]
    rcases h with hb | hv
    · rw [if_pos hb]
    · rw [if_neg (Nat.not_lt.2 hv), ite_self]
  · rw [memWrite_ctl (r := .esel) rfl, ctlWrite, if_neg (by simp [hb]), if_pos hv]
  · have henum := Params.hasEnum_of_depth_pos hp (Nat.zero_lt_of_lt hv)
    exact memRead_limb (s := { s with esel := v }) (off := 0x40000 + 8 * j) (slot := 48) (r := .ex) hp hb rfl hj (by omega)
      (if_pos henum)
  · have henum := Params.hasEnum_of_depth_pos hp (Nat.zero_lt_of_lt hv)
    exact memRead_limb (s := { s with esel := v }) (off := 0x41000 + 8 * j) (slot := 49) (r := .ey) hp hb rfl hj (by omega)
      (if_pos henum)

/-- The fields of `PARAM0` at their bits, and zeros between and above them (R44). -/
theorem param0Word_fields (p : Params) :
    (param0Word p).extractLsb' 0 16 = BitVec.ofNat 16 p.width ∧ (param0Word p).extractLsb' 16 8 = 5 ∧
      (param0Word p).getLsbD 24 = p.hasEnum ∧ (param0Word p).extractLsb' 25 3 = 0 ∧
      (param0Word p).extractLsb' 28 4 = 4 ∧ (param0Word p).extractLsb' 32 8 = 16 ∧ (param0Word p).extractLsb' 40 24 = 0 := by
  unfold param0Word
  simp only [BitVec.getLsbD_or, BitVec.extractLsb'_or]
  refine ⟨?_, ?_, ?_, ?_, ?_, ?_, ?_⟩
  case refine_3 => simp
  all_goals
    simp (disch := omega) only [extractLsb'_placeAt_self, extractLsb'_placeAt_disjoint]
    simp [Config.witnessCount, Config.pRegs, Config.xRegs]

/-- Settles O55. -/
theorem constantsReadTheParameters : Obligations.ConstantsReadTheParameters := by
  intro s hp
  obtain ⟨-, hwidth, hprobes, htries, henum⟩ := Params.bounds_of_wf hp
  refine ⟨memRead_ctl (r := .id) rfl, ⟨_, memRead_ctl (r := .param0) rfl, ?_⟩, memRead_ctl (r := .param1) rfl,
    ⟨_, memRead_ctl (r := .param2) rfl, ?_⟩, ⟨_, memRead_ctl (r := .param3) rfl, ?_⟩,
    ⟨_, memRead_ctl (r := .param4) rfl, ?_⟩, ?_⟩
  · obtain ⟨hw, hrest⟩ := param0Word_fields s.env.params
    refine ⟨?_, hrest⟩
    rw [ctlRead, hw, BitVec.toNat_ofNat]
    exact Nat.mod_eq_of_lt (by omega)
  · exact (BitVec.toNat_ofNat _ 64).trans (Nat.mod_eq_of_lt hprobes)
  · exact (BitVec.toNat_ofNat _ 64).trans (Nat.mod_eq_of_lt htries)
  · exact (BitVec.toNat_ofNat _ 64).trans (Nat.mod_eq_of_lt (by omega))
  · have hconst : ∀ off ∈ [0x000, 0x008, 0x030, 0x038, 0x040, 0x048],
        ∃ r ∈ [CtlReg.id, .param0, .param1, .param2, .param3, .param4], ctlAt off = some r := by decide
    have hrefused : ∀ v, ∀ r ∈ [CtlReg.id, .param0, .param1, .param2, .param3, .param4], ctlWrite s v r = none := by
      simp [ctlWrite]
    intro off hoff v
    obtain ⟨r, hr, hoff⟩ := hconst off hoff
    rw [memWrite_ctl hoff, hrefused v r hr]

/-! ### reset -/

theorem step_of_reset {s : State} {l : List PortEvent} (h : s.env.port = .reset :: l) :
    step s = .next (resetLine (s.setPort l)) := by
  unfold step transition
  rw [h]
  rfl

/-- A constant is read from the parameters alone, which reset leaves. -/
theorem memRead_of_params {s t : State} {off : Nat} {r : CtlReg} (h : ctlAt off = some r)
    (hr : ctlRead t r = ctlRead s r) : memRead t off 8 = memRead s off 8 := by
  rw [memRead_ctl h, memRead_ctl h, hr]

/-- After reset the status words read zero (R54). -/
theorem resetLine_words (s : State) :
    statusWord (resetLine s) = 0 ∧ finfoWord (resetLine s) = 0 ∧ ieWord (resetLine s) = 0 := by
  simp [statusWord, finfoWord, ieWord, placeAt, resetLine, State.resetWith]

/-- Settles O13. -/
theorem resetSetsEveryRegister : Obligations.ResetSetsEveryRegister := by
  intro s l hport
  obtain ⟨hstatus, hfinfo, hie⟩ := resetLine_words (s.setPort l)
  refine ⟨_, step_of_reset hport, State.getX_resetWith s.env.params, State.getPReg_resetWith s.env.params, rfl, rfl, rfl,
    rfl, rfl, rfl, rfl, rfl, rfl, rfl, rfl, rfl, rfl, rfl, rfl, rfl, fun _ => rfl, hstatus, hfinfo, hie, rfl, memRead_ctl (r := .id) rfl,
    memRead_of_params (r := .param0) rfl rfl, memRead_ctl (r := .param1) rfl, memRead_of_params (r := .param2) rfl rfl,
    memRead_of_params (r := .param3) rfl rfl, memRead_of_params (r := .param4) rfl rfl, rfl⟩

end Sys2Proof.Machine
end

section
/-! Reads and limb writes of the window (spec R62 to R71): which offsets land on a register, which registers can be read, and what a limb write
leaves in the register written. -/

namespace Sys2Proof.Machine

/-! ### where an access can land -/

theorem exists_ctlAt_iff (off : Nat) :
    (∃ r, ctlAt off = some r) ↔ off ∈ [0x000, 0x008, 0x010, 0x018, 0x020, 0x028, 0x030, 0x038, 0x040, 0x048, 0x050, 0x058,
      0x080, 0x088, 0x090, 0x098] := by
  constructor
  · rintro ⟨r, h⟩
    unfold ctlAt at h
    split at h
    case h_17 => cases h
    all_goals decide
  · rw [← Option.isSome_iff_exists]
    revert off
    decide

/-- The converse of `locate_ctl` and `locate_limb`: an access that lands has 8 bytes and the offset of a control register or of an
existing limb (R62, R64, R65, R70, R71). -/
theorem locate_cases {p : Params} {off size : Nat} {loc : Loc} (h : locate p off size = some loc) :
    size = 8 ∧ ((∃ r, ctlAt off = some r ∧ loc = .ctl r) ∨
      ∃ slot r j, wideAt slot = some r ∧ j < p.limbs ∧ off = 0x10000 + slot * 0x1000 + 8 * j ∧ loc = .limb r j) := by
  unfold locate at h
  split at h
  · cases h
  · next hshape =>
    refine ⟨by omega, ?_⟩
    split at h
    · obtain ⟨r, hr, rfl⟩ := Option.map_eq_some_iff.1 h
      exact .inl ⟨r, hr, rfl⟩
    · split at h
      · split at h
        · cases h
        · next r hr =>
          obtain ⟨hj, hloc⟩ := Option.ite_none_right_eq_some.1 h
          cases hloc
          exact .inr ⟨_, r, _, hr, hj, by omega, rfl⟩
      · cases h

/-! ### what can be read -/

/-- The slots of R65 that read a register: `x0` to `x15`, the curve, the point coordinates, and, with ECENUM, `EX` and `EY`. -/
theorem exists_readable_wideAt_iff (s : State) (slot : Nat) :
    (∃ r, wideAt slot = some r ∧ (wideValue s r).isSome = true) ↔
      slot ≤ 18 ∨ (32 ≤ slot ∧ slot ≤ 39) ∨ (s.env.params.hasEnum = true ∧ (slot = 48 ∨ slot = 49)) := by
  by_cases hx : slot < 16
  · exact iff_of_true ⟨.x ⟨slot, hx⟩, dif_pos hx, rfl⟩ (by omega)
  · by_cases hslot : slot < 64
    · interval_cases slot <;> simp [wideAt, wideValue]
    · exact iff_of_false (fun ⟨r, hr, _⟩ => hslot (lt_of_wideAt hr)) (by omega)

/-- A limb is read while the engine is idle, if its register is one that can be read (R65, R68). -/
theorem readLoc_limb_isSome_iff (s : State) (r : WideReg) (j : Nat) :
    (readLoc s (.limb r j)).isSome = true ↔ s.busy = false ∧ (wideValue s r).isSome = true := by
  cases hb : s.busy <;> simp [readLoc, hb]

/-- An accepted read is one of a control register, or of a limb while idle (R62, R64, R65, R68). -/
theorem memRead_isSome_iff {s : State} (hp : s.env.params.wf = true) (off size : Nat) :
    (memRead s off size).isSome = true ↔ size = 8 ∧ ((∃ r, ctlAt off = some r) ∨
      (s.busy = false ∧ ∃ slot j, j < s.env.params.limbs ∧ off = 0x10000 + slot * 0x1000 + 8 * j ∧
        ∃ r, wideAt slot = some r ∧ (wideValue s r).isSome = true)) := by
  constructor
  · intro h
    obtain ⟨d, hd⟩ := Option.isSome_iff_exists.1 h
    obtain ⟨loc, hloc, hd⟩ := Option.bind_eq_some_iff.1 hd
    obtain ⟨hsize, ⟨r, hr, -⟩ | ⟨slot, r, j, hr, hj, hoff, rfl⟩⟩ := locate_cases hloc
    · exact ⟨hsize, .inl ⟨r, hr⟩⟩
    · obtain ⟨hb, hv⟩ := (readLoc_limb_isSome_iff s r j).1 (Option.isSome_of_eq_some hd)
      exact ⟨hsize, .inr ⟨hb, slot, j, hj, hoff, r, hr, hv⟩⟩
  · rintro ⟨rfl, ⟨r, hr⟩ | ⟨hb, slot, j, hj, hoff, r, hr, hv⟩⟩
    · rw [memRead_ctl hr]
      rfl
    · rw [memRead, locate_limb hp hr hj hoff]
      exact (readLoc_limb_isSome_iff s r j).2 ⟨hb, hv⟩

/-- Settles O56. -/
theorem readsAcceptedExactly : Obligations.ReadsAcceptedExactly := by
  intro s off size hp
  simp only [memRead_isSome_iff hp, exists_ctlAt_iff, exists_readable_wideAt_iff]

/-! ### the limbs of a register -/

/-- A limb that exists lies inside the register (R7, R66). -/
theorem Params.limb_le_width {p : Params} {j : Nat} (hj : j < p.limbs) : 64 * j + 64 ≤ p.width := by
  unfold Params.limbs at hj
  omega

theorem wideAt_x (i : XReg) : wideAt i.val = some (.x i) := dif_pos i.isLt

theorem wideAt_px (i : PReg) : wideAt (32 + 2 * i.val) = some (.px i) := by
  revert i
  decide

theorem wideAt_py (i : PReg) : wideAt (33 + 2 * i.val) = some (.py i) := by
  revert i
  decide

/-- An access to a limb that exists writes that limb (R65, R66). -/
theorem memWrite_limb {s : State} (hp : s.env.params.wf = true) {off slot j : Nat} {r : WideReg} {d : Word}
    (hr : wideAt slot = some r) (hj : j < s.env.params.limbs) (hoff : off = 0x10000 + slot * 0x1000 + 8 * j) :
    memWrite s off 8 d = wideWrite s j d r := by
  rw [memWrite, locate_limb hp hr hj hoff]
  rfl

/-- What an accepted limb write leaves: the register with that limb put in, the parameters and `BUSY` as before (R66). -/
theorem wideValue_of_wideWrite {s t : State} {j : Nat} {d : Word} {r : WideReg} (h : wideWrite s j d r = some t) :
    t.env = s.env ∧ t.busy = s.busy ∧
      ∃ v, wideValue s r = some v ∧ wideValue t r = some (putLimb s.width v j d) := by
  simp only [wideWrite, Option.ite_none_left_eq_some] at h
  obtain ⟨-, h⟩ := h
  cases r with
  | x i =>
    cases h
    exact ⟨rfl, rfl, _, rfl, by rw [wideValue, State.getX_setX_self]⟩
  | px i =>
    cases h
    exact ⟨rfl, rfl, _, rfl, by rw [wideValue, State.getPReg_setPReg, if_pos rfl]⟩
  | py i =>
    cases h
    exact ⟨rfl, rfl, _, rfl, by rw [wideValue, State.getPReg_setPReg, if_pos rfl]⟩
  | _ => cases h

/-- R66 at any slot: the limb written reads back, every other limb of the register reads as before. -/
theorem memRead_of_memWrite_limb {s t : State} (hp : s.env.params.wf = true) (hb : s.busy = false) {off slot j k : Nat}
    {r : WideReg} {d : Word} (hr : wideAt slot = some r) (hoff : off = 0x10000 + slot * 0x1000)
    (hj : j < s.env.params.limbs) (hk : k < s.env.params.limbs) (h : memWrite s (off + 8 * j) 8 d = some t) :
    memRead t (off + 8 * k) 8 = if k = j then some d else memRead s (off + 8 * k) 8 := by
  subst hoff
  rw [memWrite_limb hp hr hj rfl] at h
  obtain ⟨henv, hbusy, v, hs, ht⟩ := wideValue_of_wideWrite h
  have hwidth : t.width = s.width := congrArg (·.params.width) henv
  have hreadS := memRead_limb hp hb hr hk rfl hs
  have hreadT := memRead_limb (henv ▸ hp) (hbusy.trans hb) hr (henv ▸ hk) rfl ht
  rw [hreadT, hreadS, hwidth, limbOf_putLimb (Params.limb_le_width hj) (Params.limb_le_width hk), apply_ite some]

/-- Settles O58. -/
theorem limbWriteReadsBack : Obligations.LimbWriteReadsBack := by
  rintro s t off j k d hp hb (⟨i, hoff⟩ | ⟨i, hoff⟩ | ⟨i, hoff⟩) hj hk h
  · exact memRead_of_memWrite_limb hp hb (wideAt_x i) hoff hj hk h
  · exact memRead_of_memWrite_limb hp hb (wideAt_px i) (by omega) hj hk h
  · exact memRead_of_memWrite_limb hp hb (wideAt_py i) (by omega) hj hk h

/-- R66 at any slot: while idle a readable register shows its two's complement. -/
theorem slotShows_of_wideValue {s : State} (hp : s.env.params.wf = true) (hb : s.busy = false) {off slot : Nat} {r : WideReg}
    {v : Int} (hr : wideAt slot = some r) (hoff : off = 0x10000 + slot * 0x1000) (hv : wideValue s r = some v) :
    Claims.slotShows s off v := fun j hj =>
  ⟨limbOf s.width v j, memRead_limb hp hb hr hj (by omega) hv, limbOf_toNat (Params.limb_le_width hj) v⟩

/-- Settles O59. -/
theorem limbReadsTwosComplement : Obligations.LimbReadsTwosComplement := by
  intro s hs hb
  have shows {off slot r v} := @slotShows_of_wideValue s hs.params hb off slot r v
  refine ⟨fun i => shows (wideAt_x i) rfl rfl, shows (slot := 16) rfl rfl rfl, shows (slot := 17) rfl rfl rfl,
    shows (slot := 18) rfl rfl rfl, fun i => ⟨shows (wideAt_px i) (by omega) rfl, shows (wideAt_py i) (by omega) rfl⟩,
    fun henum => ⟨?_, ?_⟩⟩
  · exact shows (slot := 48) (r := .ex) rfl rfl (if_pos henum)
  · exact shows (slot := 49) (r := .ey) rfl rfl (if_pos henum)

end Sys2Proof.Machine
end

section
/-! The formats of the command words (spec R94): which register fields a command uses, and how. A word selects a row exactly when its fields
fit the format of the row's command. -/

namespace Sys2Proof

/-! ### formats -/

/-- What a register field of a command holds, the letters of R94: zero, an integer register or a point register. -/
inductive FieldKind where
  | zero | x | p

/-- The bits of a field of the kind that must be zero (R91, R95). -/
def FieldKind.mask : FieldKind → BitVec 4
  | .zero => 0xF
  | .x => 0
  | .p => 0xC

/-- Whether a field is legal for its kind (R91, R94). -/
def FieldKind.fits : FieldKind → BitVec 4 → Prop
  | .zero, f => f = 0
  | .x, _ => True
  | .p, f => f.toNat ≤ 3

theorem FieldKind.and_mask_eq_zero_iff (k : FieldKind) (f : BitVec 4) : f &&& k.mask = 0 ↔ k.fits f := by
  cases k with
  | zero => exact Eq.congr_left BitVec.and_allOnes
  | x => exact iff_of_true BitVec.and_zero trivial
  | p => exact (by decide : ∀ f : BitVec 4, f &&& 0xC = 0 ↔ f.toNat ≤ 3) f

/-- The format of a command (R94): the kinds of `RD`, `RS1`, `RS2` and `RS3`. -/
structure Format where
  rd : FieldKind
  rs1 : FieldKind
  rs2 : FieldKind
  rs3 : FieldKind

/-- The format of every command, as the table of R95 gives it. -/
def Op.format : Op → Format
  | .modmul | .powmod => ⟨.x, .x, .x, .x⟩
  | .gcd | .modinv | .sample => ⟨.x, .x, .x, .zero⟩
  | .isprime | .genprime | .findgen => ⟨.x, .x, .zero, .zero⟩
  | .ecset => ⟨.zero, .x, .x, .x⟩
  | .ecsetnb => ⟨.zero, .x, .zero, .x⟩
  | .econcrv => ⟨.x, .p, .zero, .zero⟩
  | .ecadd => ⟨.p, .p, .p, .zero⟩
  | .ecdbl => ⟨.p, .p, .zero, .zero⟩
  | .ecsmul => ⟨.p, .x, .p, .zero⟩
  | .ecenum => ⟨.x, .zero, .zero, .zero⟩

/-- The register fields of a word fit a format. -/
def Format.fits (m : Format) (w : Word) : Prop :=
  m.rd.fits (fieldRd w) ∧ m.rs1.fits (fieldRs1 w) ∧ m.rs2.fits (fieldRs2 w) ∧ m.rs3.fits (fieldRs3 w)

/-- `OP` and `NB` of a word are those of a command. -/
def Op.names (o : Op) (w : Word) : Prop := w.extractLsb' 24 8 = o.code ∧ w.extractLsb' 0 1 = o.nb

/-- `ZHI` and `ZLO` of a word are zero (R91). -/
def zerosClear (w : Word) : Prop := w.extractLsb' 32 32 = 0 ∧ w.extractLsb' 1 7 = 0

/-! ### the rows of the map -/

/-- What the `match` and `mask` of every row hold (R95). -/
theorem opRows_fields {r : OpRow} (hr : r ∈ opRows) :
    (r.mask.extractLsb' 32 32 = BitVec.allOnes 32 ∧ r.mask.extractLsb' 24 8 = BitVec.allOnes 8 ∧
      r.mask.extractLsb' 1 7 = BitVec.allOnes 7 ∧ r.mask.extractLsb' 0 1 = BitVec.allOnes 1) ∧
    (r.bits.extractLsb' 32 32 = 0 ∧ r.bits.extractLsb' 24 8 = r.op.code ∧ r.bits.extractLsb' 1 7 = 0 ∧
      r.bits.extractLsb' 0 1 = r.op.nb) ∧
    (fieldRd r.mask = r.op.format.rd.mask ∧ fieldRs1 r.mask = r.op.format.rs1.mask ∧
      fieldRs2 r.mask = r.op.format.rs2.mask ∧ fieldRs3 r.mask = r.op.format.rs3.mask) ∧
    fieldRd r.bits = 0 ∧ fieldRs1 r.bits = 0 ∧ fieldRs2 r.bits = 0 ∧ fieldRs3 r.bits = 0 := by
  revert r
  decide

/-- A row selects a word exactly when the word is one of its command, laid out in its format (R91, R94, R95). -/
theorem selects_iff_format {r : OpRow} (hr : r ∈ opRows) (w : Word) :
    r.selects w = true ↔ r.op.names w ∧ zerosClear w ∧ r.op.format.fits w := by
  obtain ⟨⟨m1, m2, m3, m4⟩, ⟨b1, b2, b3, b4⟩, ⟨k1, k2, k3, k4⟩, f1, f2, f3, f4⟩ := opRows_fields hr
  rw [selects_iff_fields, m1, m2, m3, m4, b1, b2, b3, b4, k1, k2, k3, k4, f1, f2, f3, f4]
  simp only [BitVec.and_allOnes, FieldKind.and_mask_eq_zero_iff, Op.names, zerosClear, Format.fits]
  tauto

theorem selects_iff (r : OpRow) (w : Word) : r.selects w = true ↔ w &&& r.mask = r.bits := beq_iff_eq

/-- Two rows that agree on what both masks hold are one row (R95). -/
theorem opRows_disjoint : ∀ r ∈ opRows, ∀ r' ∈ opRows, r.bits &&& r'.mask = r'.bits &&& r.mask → r = r' := by
  decide

/-- At most one row selects a word (R103). -/
theorem row_unique {w : Word} {r r' : OpRow} (hr : r ∈ opRows) (hr' : r' ∈ opRows) (h : w &&& r.mask = r.bits)
    (h' : w &&& r'.mask = r'.bits) : r = r' := by
  refine opRows_disjoint r hr r' hr' ?_
  rw [← h, ← h', BitVec.and_assoc, BitVec.and_assoc, BitVec.and_comm r.mask]

/-- Every legal pair of `OP` and `NB` has its row (R95, R100). -/
theorem exists_row_of_legal_op (op : BitVec 8) (nb : BitVec 1)
    (hop : (1 ≤ op.toNat ∧ op.toNat ≤ 8) ∨ (0x10 ≤ op.toNat ∧ op.toNat ≤ 0x15)) (hnb : nb = 1 → op = 0x10) :
    ∃ r ∈ opRows, op = r.op.code ∧ nb = r.op.nb := by
  revert op nb
  decide

end Sys2Proof
end

section
/-! Decoding and encoding (spec R91, R95, R103): what `decode` answers, and that `encode` and `decode` are each other's inverse. -/

namespace Sys2Proof

/-! ### decoding -/

/-- A word decodes to the command of the row that selects it, its register numbers from its fields (R103). -/
theorem decode_eq_some_iff (w : Word) (i : Instr) :
    decode w = some i ↔ ∃ r ∈ opRows, r.selects w = true ∧ buildInstr r.op w = i := by
  rw [decode, selectRow, Option.map_eq_some_iff]
  have found {r : OpRow} (h : opRows.find? (·.selects w) = some r) : r ∈ opRows ∧ r.selects w = true :=
    ⟨List.mem_of_find?_eq_some h, List.find?_some (p := fun r : OpRow => r.selects w) h⟩
  constructor
  · rintro ⟨r, hfind, hi⟩
    exact ⟨r, (found hfind).1, (found hfind).2, hi⟩
  · rintro ⟨r, hr, hsel, hi⟩
    obtain ⟨r', hfind⟩ := Option.isSome_iff_exists.1 (List.find?_isSome (p := fun r : OpRow => r.selects w).2 ⟨r, hr, hsel⟩)
    obtain ⟨hr', hsel'⟩ := found hfind
    rw [selects_iff] at hsel hsel'
    exact ⟨r, row_unique hr' hr hsel' hsel ▸ hfind, hi⟩

/-- A word is illegal whatever the parameters when no row selects it (R100, R103). -/
theorem decode_eq_none_iff (w : Word) : decode w = none ↔ ∀ r ∈ opRows, ¬ r.selects w = true := by
  rw [decode, Option.map_eq_none_iff, selectRow, List.find?_eq_none]

/-- A register field is four bits of the word's number (R91). -/
theorem toNat_extractLsb'_four (w : Word) (lo : Nat) : (w.extractLsb' lo 4).toNat = w.toNat / 2 ^ lo % 16 := by
  rw [BitVec.extractLsb'_toNat, Nat.shiftRight_eq_div_pow]

@[simp] theorem buildInstr_op (o : Op) (w : Word) : (buildInstr o w).op = o := by cases o <;> rfl

/-! ### encoding -/

/-- The fields of an encoded command are its operands (R91, R94). -/
theorem buildInstr_encode (i : Instr) : buildInstr i.op (encode i) = i := by
  cases i <;> simp [Instr.op, encode, buildInstr]

/-- The word of every command selects its own row (R95). -/
theorem encode_selects_own_row (i : Instr) : Laws.EncodesOwnRow.Statement i := by
  cases i with
  | modmul rd rs1 rs2 rs3 => exact Laws.EncodesOwnRow.modmul rd rs1 rs2 rs3
  | gcd rd rs1 rs2 => exact Laws.EncodesOwnRow.gcd rd rs1 rs2
  | modinv rd rs1 rs2 => exact Laws.EncodesOwnRow.modinv rd rs1 rs2
  | powmod rd rs1 rs2 rs3 => exact Laws.EncodesOwnRow.powmod rd rs1 rs2 rs3
  | isprime rd rs1 => exact Laws.EncodesOwnRow.isprime rd rs1
  | genprime rd rs1 => exact Laws.EncodesOwnRow.genprime rd rs1
  | sample rd rs1 rs2 => exact Laws.EncodesOwnRow.sample rd rs1 rs2
  | findgen rd rs1 => exact Laws.EncodesOwnRow.findgen rd rs1
  | ecset rs1 rs2 rs3 => exact Laws.EncodesOwnRow.ecset rs1 rs2 rs3
  | ecsetnb rs1 rs3 => exact Laws.EncodesOwnRow.ecsetnb rs1 rs3
  | econcrv rd ps1 => exact Laws.EncodesOwnRow.econcrv rd ps1
  | ecadd pd ps1 ps2 => exact Laws.EncodesOwnRow.ecadd pd ps1 ps2
  | ecdbl pd ps1 => exact Laws.EncodesOwnRow.ecdbl pd ps1
  | ecsmul pd rs1 ps2 => exact Laws.EncodesOwnRow.ecsmul pd rs1 ps2
  | ecenum rd => exact Laws.EncodesOwnRow.ecenum rd

/-- The encoded command decodes: its own row selects its word, and the fields give its operands back. -/
theorem decode_encode (i : Instr) : decode (encode i) = some i := by
  obtain ⟨r, hr, hop, hsel⟩ := encode_selects_own_row i
  exact (decode_eq_some_iff _ _).2 ⟨r, hr, hsel, hop ▸ buildInstr_encode i⟩

theorem pField_pReg_of_le {f : BitVec 4} (h : f.toNat ≤ 3) : pField (pReg f) = f :=
  pField_pReg ((FieldKind.p.and_mask_eq_zero_iff f).2 h)

/-- A word laid out in a command's format is the encoding of that command with the word's operands: the fields the command drops are
zero (R91, R94). -/
theorem encode_buildInstr {o : Op} {w : Word} (hname : o.names w) (hzero : zerosClear w) (hfit : o.format.fits w) :
    encode (buildInstr o w) = w := by
  obtain ⟨hop, hnb⟩ := hname
  obtain ⟨hzhi, hzlo⟩ := hzero
  obtain ⟨hrd, hrs1, hrs2, hrs3⟩ := hfit
  rw [word_eq_iff_fields, hzhi, hop, hzlo, hnb]
  cases o <;> simp only [Op.format, FieldKind.fits] at hrd hrs1 hrs2 hrs3 <;>
    simp [buildInstr, encode, xField_xReg, pField_pReg_of_le, hrd, hrs1, hrs2, hrs3]

/-- Settles O1: what `decode_encode` says needs no parameters. -/
theorem decodeInvertsEncode : Obligations.DecodeInvertsEncode := fun _ i _ => decode_encode i

/-- Settles O2: the row that selects the word fixes every bit that its command drops. -/
theorem encodeInvertsDecode : Obligations.EncodeInvertsDecode := by
  intro w i h
  obtain ⟨r, hr, hsel, rfl⟩ := (decode_eq_some_iff w i).1 h
  obtain ⟨hname, hzero, hfit⟩ := (selects_iff_format hr w).1 hsel
  exact encode_buildInstr hname hzero hfit

/-- Settles O3, from the uniqueness of the row and the two answers of `decode`. -/
theorem decodingFollowsTheMap : Obligations.DecodingFollowsTheMap := by
  intro w
  refine ⟨fun r hr r' hr' => row_unique hr hr', fun r hr h => ?_, fun h => ?_, toNat_extractLsb'_four w 20,
    toNat_extractLsb'_four w 16, toNat_extractLsb'_four w 12, toNat_extractLsb'_four w 8⟩
  · exact (decode_eq_some_iff w _).2 ⟨r, hr, (selects_iff r w).2 h, rfl⟩
  · exact (decode_eq_none_iff w).2 fun r hr hsel => h r hr ((selects_iff r w).1 hsel)

/-- A word that a command's encoding gives decodes to that command. -/
theorem decode_of_encode_eq {w : Word} {i : Instr} (h : encode i = w) : decode w = some i := h ▸ decode_encode i

/-- Settles O5: the legal words are encodings, and no row selects the others. -/
theorem specWordsDecode : Obligations.SpecWordsDecode := by
  refine ⟨decode_of_encode_eq ?_, decode_of_encode_eq ?_, decode_of_encode_eq ?_, decode_of_encode_eq ?_,
    decode_of_encode_eq ?_, decode_of_encode_eq ?_, decode_of_encode_eq ?_, decode_of_encode_eq ?_,
    decode_of_encode_eq ?_, (decode_eq_none_iff _).2 ?_, (decode_eq_none_iff _).2 ?_, (decode_eq_none_iff _).2 ?_⟩
  all_goals decide

end Sys2Proof
end

section
/-! Illegal words (spec R100, R102, R250): the listed conditions are the failures of the format, and the step of an illegal word. -/

namespace Sys2Proof.Machine
open Sys2Proof.Claims

/-! ### the list of R100 -/

/-- R102: the commands an implementation lacks. -/
theorem wellFormed_eq_false_iff (p : Params) (i : Instr) : wellFormed p i = false ↔ i.op = .ecenum ∧ p.hasEnum = false := by
  cases i <;> simp [wellFormed, Instr.op]

/-- Some row has the `OP` and `NB` of a word that R100 does not list. -/
theorem exists_row_of_not_illegalWord {p : Params} {w : Word} (h : ¬ illegalWord p w) : ∃ r ∈ opRows, r.op.names w := by
  unfold illegalWord at h
  obtain ⟨-, h⟩ := not_or.1 h
  obtain ⟨-, h⟩ := not_or.1 h
  obtain ⟨hop, h⟩ := not_or.1 h
  obtain ⟨hnb, -⟩ := not_or.1 h
  exact exists_row_of_legal_op _ _ (not_not.1 hop) fun h1 => not_not.1 fun h2 => hnb ⟨h1, h2⟩

/-- For a word with the `OP` and `NB` of a command, the other conditions of R100 say that the word is not laid out in the command's format, or
that the implementation lacks the command. -/
theorem illegalWord_iff_of_names {o : Op} {w : Word} (hname : o.names w) (p : Params) :
    illegalWord p w ↔ ¬ (zerosClear w ∧ o.format.fits w) ∨ (o = .ecenum ∧ p.hasEnum = false) := by
  obtain ⟨hop, hnb⟩ := hname
  simp only [illegalWord, zerosClear, Format.fits, fieldRd, fieldRs1, fieldRs2, fieldRs3, hop, hnb]
  cases o <;> simp [Op.code, Op.nb, Op.format, FieldKind.fits, -BitVec.extractLsb'_toNat, imp_iff_not_or, or_comm, or_left_comm,
    or_assoc]

/-- The words R100 lists are those that decode to no command of the implementation. -/
theorem illegalWord_iff (p : Params) (w : Word) : illegalWord p w ↔ ∀ i, decode w = some i → wellFormed p i = false := by
  constructor
  · intro hill i hi
    obtain ⟨r, hr, hsel, rfl⟩ := (decode_eq_some_iff w i).1 hi
    obtain ⟨hname, hzero, hfit⟩ := (selects_iff_format hr w).1 hsel
    rw [wellFormed_eq_false_iff, buildInstr_op]
    exact ((illegalWord_iff_of_names hname p).1 hill).resolve_left (not_not.2 ⟨hzero, hfit⟩)
  · intro h
    by_contra hlegal
    obtain ⟨r, hr, hname⟩ := exists_row_of_not_illegalWord hlegal
    rw [illegalWord_iff_of_names hname, not_or, not_not] at hlegal
    obtain ⟨⟨hzero, hfit⟩, hexists⟩ := hlegal
    have hsel := (selects_iff_format hr w).2 ⟨hname, hzero, hfit⟩
    have hwf := h _ ((decode_eq_some_iff w _).2 ⟨r, hr, hsel, rfl⟩)
    rw [wellFormed_eq_false_iff, buildInstr_op] at hwf
    exact hexists hwf

/-! ### the step -/

/-- With nothing waiting at the port the step is the engine's (R296). -/
theorem step_of_port_nil {s : State} (h : s.env.port = []) : step s = engineStep s := by
  unfold step transition
  rw [h]

/-- An `engineTurn` puts the engine's step at its place of the total order (R75). -/
theorem step_of_engineTurn {s : State} {l : List PortEvent} (h : s.env.port = .engineTurn :: l) :
    step s = engineStep (s.setPort l) := by
  unfold step transition
  rw [h]
  rfl

/-- The engine's step on a word that does not decode (R250). -/
theorem engineStep_of_decode_none {s : State} (hb : s.busy = true) (h : decode s.ir = none) :
    engineStep s = .next (takeFault .illegal 0 s) := by
  unfold engineStep
  rw [if_pos hb, h]
  rfl

/-- The engine's step on a word that decodes (R296). -/
theorem engineStep_of_decode_some {s : State} {i : Instr} (hb : s.busy = true) (h : decode s.ir = some i) :
    engineStep s = exec i s := by
  unfold engineStep
  rw [if_pos hb, h]

/-- A command the implementation lacks is illegal before anything else (R102, R258). -/
theorem exec_of_not_wellFormed {s : State} {i : Instr} (h : wellFormed s.env.params i = false) :
    exec i s = .next (takeFault .illegal 0 s) := by
  obtain ⟨hop, henum⟩ := (wellFormed_eq_false_iff _ i).1 h
  cases i with
  | ecenum rd => exact if_pos henum
  | _ => cases hop

/-- The engine's step on an illegal word, absent or not in the map (R100, R250). -/
theorem engineStep_of_illegalWord {s : State} (hb : s.busy = true) (h : illegalWord s.env.params s.ir) :
    engineStep s = .next (faulted 5 0 s) := by
  cases hd : decode s.ir with
  | none => exact engineStep_of_decode_none hb hd
  | some i =>
    rw [engineStep_of_decode_some hb hd]
    exact exec_of_not_wellFormed ((illegalWord_iff _ _).1 h i hd)

/-- Settles O4: `illegalWord_iff` for the list, `engineStep_of_illegalWord` for both forms of the step. -/
theorem illegalWordsFault : Obligations.IllegalWordsFault := by
  intro p w
  refine ⟨illegalWord_iff p w, ?_⟩
  rintro s rfl hb rfl h
  refine ⟨fun hport => ?_, fun rest hport => ?_⟩
  · rw [step_of_port_nil hport, engineStep_of_illegalWord hb h]
  · rw [step_of_engineTurn hport]
    exact engineStep_of_illegalWord (s := s.setPort rest) hb h

end Sys2Proof.Machine
end

section
/-! Every command ends (spec R93, R303 (a)): no command stops the machine or is refused, and each of its ends clears `BUSY` and sets `DONE`. -/

namespace Sys2Proof.Machine

/-- The answer is a next state. -/
def HasNext (o : Out) : Prop := ∃ t, o = .next t

namespace HasNext
variable {s : State}

theorem raise (c : Cause) (n : BitVec 8) (s : State) : HasNext (raise c n s) := ⟨_, rfl⟩

theorem ite {c : Prop} [Decidable c] {a b : Out} (ha : HasNext a) (hb : HasNext b) : HasNext (if c then a else b) := by
  split
  · exact ha
  · exact hb

theorem commit (s : State) (vs : List Int) (t : State) : HasNext (commit s vs t) := ite ⟨_, rfl⟩ (raise _ _ _)

theorem commitX (s : State) (rd : XReg) (v : Int) : HasNext (commitX s rd v) := commit _ _ _

theorem commitP (s : State) (pd : PReg) (r : Point × Bool) : HasNext (commitP s pd r) := commit _ _ _

theorem withCurve {k : Curve → Out} (h : ∀ c, HasNext (k c)) : HasNext (withCurve s k) := ite (h _) (raise _ _ _)

theorem construct (c : Curve) (s : State) : HasNext (construct c s) :=
  ite (raise _ _ _) (ite (raise _ _ _) (commit _ _ _))

/-! ### the commands that branch on what they compute -/

theorem modinv (rd rs1 rs2 : XReg) (s : State) : HasNext (execModinv rd rs1 rs2 s) := by
  unfold execModinv
  refine ite (raise _ _ _) ?_
  split
  · exact commit _ _ _
  · exact commit _ _ _

theorem genprime (rd rs1 : XReg) (s : State) : HasNext (execGenprime rd rs1 s) := by
  unfold execGenprime
  refine ite (raise _ _ _) ?_
  dsimp only
  split
  · exact raise _ _ _
  · exact commitX _ _ _

theorem findgen (rd rs1 : XReg) (s : State) : HasNext (execFindgen rd rs1 s) := by
  unfold execFindgen
  refine ite (raise _ _ _) (ite (raise _ _ _) ?_)
  dsimp only
  split
  · exact raise _ _ _
  · exact commitX _ _ _

theorem ecadd (pd ps1 ps2 : PReg) (s : State) : HasNext (execEcadd pd ps1 ps2 s) := by
  refine withCurve fun c => ?_
  dsimp only
  split
  · exact raise _ _ _
  · split
    · exact raise _ _ _
    · exact commitP _ _ _

theorem ecdbl (pd ps1 : PReg) (s : State) : HasNext (execEcdbl pd ps1 s) := by
  refine withCurve fun c => ?_
  dsimp only
  split
  · exact raise _ _ _
  · exact commitP _ _ _

theorem ecsmul (pd : PReg) (rs1 : XReg) (ps2 : PReg) (s : State) : HasNext (execEcsmul pd rs1 ps2 s) := by
  refine withCurve fun c => ?_
  dsimp only
  refine ite (raise _ _ _) ?_
  split
  · exact raise _ _ _
  · exact commitP _ _ _

end HasNext

/-- Every command has a next state (R309). -/
theorem exec_hasNext (i : Instr) (s : State) : HasNext (exec i s) := by
  cases i with
  | modmul rd rs1 rs2 rs3 => exact .ite (.raise _ _ _) (.commitX _ _ _)
  | gcd rd rs1 rs2 => exact .ite (.raise _ _ _) (.commitX _ _ _)
  | modinv rd rs1 rs2 => exact .modinv rd rs1 rs2 s
  | powmod rd rs1 rs2 rs3 => exact .ite (.raise _ _ _) (.ite (.raise _ _ _) (.commitX _ _ _))
  | isprime rd rs1 => exact .commitX _ _ _
  | genprime rd rs1 => exact .genprime rd rs1 s
  | sample rd rs1 rs2 => exact .ite (.raise _ _ _) (.commitX _ _ _)
  | findgen rd rs1 => exact .findgen rd rs1 s
  | ecset rs1 rs2 rs3 => exact .construct _ s
  | ecsetnb rs1 rs3 => exact .construct _ s
  | econcrv rd ps1 => exact .withCurve fun _ => .commitX _ _ _
  | ecadd pd ps1 ps2 => exact .ecadd pd ps1 ps2 s
  | ecdbl pd ps1 => exact .ecdbl pd ps1 s
  | ecsmul pd rs1 ps2 => exact .ecsmul pd rs1 ps2 s
  | ecenum rd => exact .ite (.raise _ _ _) (.withCurve fun _ => .ite (.raise _ _ _) (.commit _ _ _))

theorem CommandEnd.busy_eq {s t : State} {i : Instr} (h : CommandEnd s i t) : t.busy = false := by cases h <;> rfl

theorem CommandEnd.done_eq {s t : State} {i : Instr} (h : CommandEnd s i t) : t.done = true := by cases h <;> rfl

/-- Settles O9: a command has a next state, and it is one of the ends of `CommandEnd`. -/
theorem everyCommandEnds : Obligations.EveryCommandEnds := by
  intro i s
  obtain ⟨t, ht⟩ := exec_hasNext i s
  exact ⟨t, ht, (exec_end ht).busy_eq, (exec_end ht).done_eq⟩

end Sys2Proof.Machine
end

section
/-! The host's write to `CMD` (spec R92). -/

namespace Sys2Proof.Machine

theorem accept_of_idle {s : State} (hb : s.busy = false) (hf : s.fault = false) (w : Word) :
    accept w s = some { s with ir := w, busy := true, done := false } := by
  simp [accept, hb, hf]

theorem accept_of_busy_or_fault {s : State} (h : s.busy = true ∨ s.fault = true) (w : Word) : accept w s = none :=
  if_pos (Bool.or_eq_true_iff.2 h)

/-- Settles O49: the offset `0x010` is `CMD`, whose write is `accept`. -/
theorem cmdWriteIsAcceptedWhenIdle : Obligations.CmdWriteIsAcceptedWhenIdle := by
  intro s w
  rw [memWrite_ctl (r := .cmd) rfl]
  exact ⟨fun hb hf => accept_of_idle hb hf w, fun h => accept_of_busy_or_fault h w⟩

end Sys2Proof.Machine
end

section
/-! The command words of the statements (spec R91): the sum of the fields at their places is the word that encoding lays out. -/

namespace Sys2Proof
open Sys2Proof.Claims

/-- The number of a command word with fields in their ranges: nothing is lost to the word's width (R91). -/
theorem toNat_commandWord {op rd rs1 rs2 rs3 nb : Nat} (hop : op < 2 ^ 8) (hrd : rd < 2 ^ 4) (hrs1 : rs1 < 2 ^ 4)
    (hrs2 : rs2 < 2 ^ 4) (hrs3 : rs3 < 2 ^ 4) (hnb : nb < 2 ^ 1) :
    (commandWord op rd rs1 rs2 rs3 nb).toNat =
      op * 2 ^ 24 + rd * 2 ^ 20 + rs1 * 2 ^ 16 + rs2 * 2 ^ 12 + rs3 * 2 ^ 8 + nb := by
  rw [commandWord, BitVec.toNat_ofNat, Nat.mod_eq_of_lt (by omega)]

/-- A field of a word is digits of the word's number (R91). -/
theorem extractLsb'_eq_iff (w : Word) (lo : Nat) {n : Nat} (f : BitVec n) :
    w.extractLsb' lo n = f ↔ w.toNat / 2 ^ lo % 2 ^ n = f.toNat := by
  rw [BitVec.toNat_eq, BitVec.extractLsb'_toNat, Nat.shiftRight_eq_div_pow]

/-- The fields do not overlap (R91): their sum is the word with each field at its place. -/
theorem commandWord_eq_cmdWord (o : Op) (rd rs1 rs2 rs3 : BitVec 4) :
    commandWord o.code.toNat rd.toNat rs1.toNat rs2.toNat rs3.toNat o.nb.toNat = cmdWord o rd rs1 rs2 rs3 := by
  have hop := o.code.isLt
  have hrd := rd.isLt
  have hrs1 := rs1.isLt
  have hrs2 := rs2.isLt
  have hrs3 := rs3.isLt
  have hnb := o.nb.isLt
  have hsum := toNat_commandWord hop hrd hrs1 hrs2 hrs3 hnb
  rw [word_eq_iff_fields, cmdWord_zhi, cmdWord_op, cmdWord_rd, cmdWord_rs1, cmdWord_rs2, cmdWord_rs3, cmdWord_zlo, cmdWord_nb]
  simp only [fieldRd, fieldRs1, fieldRs2, fieldRs3, extractLsb'_eq_iff, hsum, BitVec.ofNat_eq_ofNat, BitVec.toNat_zero]
  omega

/-- The word of a command's fields decodes to the command (R95, R103). -/
theorem decode_commandWord {i : Instr} (o : Op) (rd rs1 rs2 rs3 : BitVec 4) (h : encode i = cmdWord o rd rs1 rs2 rs3) :
    decode (commandWord o.code.toNat rd.toNat rs1.toNat rs2.toNat rs3.toNat o.nb.toNat) = some i :=
  decode_of_encode_eq (h.trans (commandWord_eq_cmdWord o rd rs1 rs2 rs3).symm)

end Sys2Proof
end

section
/-! MODMUL (spec R125): its one fault, and the residue, which fits since the modulus does. -/

namespace Sys2Proof.Machine
open Sys2Proof.Claims

/-! ### the two ends of a command, in the words of the statements -/

/-- Fault entry changes the five fields of R252. -/
theorem raise_eq_faulted (c : Cause) (n : BitVec 8) (s : State) : raise c n s = .next (faulted (causeCode c) n s) := rfl

/-- A command that ends by writing an integer that fits leaves exactly that write (R93). -/
theorem commitX_eq_wroteX {s : State} {rd : XReg} {v : Int} (h : fits s.width v = true) :
    commitX s rd v = .next (wroteX rd v s) := commitX_of_fits s h

/-- A residue fits in a register where its modulus fits (R23). -/
theorem fits_emod {w : Nat} {m : Int} (hm : fits w m = true) (hpos : 0 < m) (v : Int) : fits w (v % m) = true :=
  fits_of_lt hm (imod_nonneg v hpos) (imod_lt v hpos)

/-! ### the command -/

section
variable {s : State} {rs3 : XReg} (rd rs1 rs2 : XReg)

theorem execModmul_of_nonpos (hm : s.getX rs3 ≤ 0) : execModmul rd rs1 rs2 rs3 s = raise .param 1 s := if_pos hm

theorem execModmul_of_pos (hm : 0 < s.getX rs3) :
    execModmul rd rs1 rs2 rs3 s = commitX s rd (s.getX rs1 * s.getX rs2 % s.getX rs3) := if_neg hm.not_ge

end

/-- Settles O14: the encoding by `decode_commandWord`, then the two cases of the modulus; the residue fits because `x[rs3]` does. -/
theorem modmulWritesTheResidue : Obligations.ModmulWritesTheResidue := by
  intro s rd rs1 rs2 rs3 hs
  refine ⟨decode_commandWord .modmul (xField rd) (xField rs1) (xField rs2) (xField rs3) rfl, fun hm => ?_, fun hm => ?_⟩
  · exact (execModmul_of_nonpos rd rs1 rs2 hm).trans (raise_eq_faulted .param 1 s)
  · exact (execModmul_of_pos rd rs1 rs2 hm).trans (commitX_eq_wroteX (fits_emod (hs.xFits rs3) hm _))

end Sys2Proof.Machine
end

section
/-! GCD (spec R136, R137): its two faults, and the divisor, which fits but for one pair of operands. -/

namespace Sys2Proof.Machine
open Sys2Proof.Claims

/-- The fit check of R23 fails: nothing is written, and the fault is `E_RANGE(1)` (R251). -/
theorem commitX_of_not_fits {s : State} (rd : XReg) {v : Int} (h : ¬ fits s.width v = true) :
    commitX s rd v = raise .range 1 s :=
  if_neg fun hall => h (List.all_eq_true.1 hall v List.mem_cons_self)

/-! ### the size of the divisor -/

/-- The lowest value of a register is the only one whose absolute value does not fit (R22). -/
theorem fits_natAbs_iff {w : Nat} {a : Int} (ha : fits w a = true) : fits w (a.natAbs : Int) = true ↔ a ≠ -2 ^ (w - 1) := by
  rw [fits_iff] at ha ⊢
  omega

/-- A divisor of a positive integer is no larger than it, so it fits too. -/
theorem fits_gcd_of_pos {w : Nat} {b : Int} (a : Int) (hb : fits w b = true) (hpos : 0 < b) :
    fits w (Int.gcd a b : Int) = true := by
  have hle : (Int.gcd a b : Int) ≤ b := Int.le_of_dvd hpos (Int.gcd_dvd_right a b)
  rw [fits_iff] at hb ⊢
  omega

/-- R137: the divisor fits except for one pair, the lowest value and 0. -/
theorem fits_gcd_iff {w : Nat} {a b : Int} (ha : fits w a = true) (hb : fits w b = true) (h0 : 0 ≤ b) :
    fits w (Int.gcd a b : Int) = true ↔ ¬ (a = -2 ^ (w - 1) ∧ b = 0) := by
  rcases h0.eq_or_lt with rfl | hpos
  · rw [Int.gcd_zero_right, fits_natAbs_iff ha]
    simp
  · simp [fits_gcd_of_pos a hb hpos, hpos.ne']

/-! ### the command -/

section
variable {s : State} {rs2 : XReg} (rd rs1 : XReg)

theorem execGcd_of_neg (hb : s.getX rs2 < 0) : execGcd rd rs1 rs2 s = raise .param 3 s := if_pos hb

theorem execGcd_of_nonneg (hb : 0 ≤ s.getX rs2) :
    execGcd rd rs1 rs2 s = commitX s rd (Int.gcd (s.getX rs1) (s.getX rs2)) := by
  rw [← gcdOf_eq_gcd _ hb]
  exact if_neg hb.not_gt

end

/-- Settles O15: below 0 the parameter fault; else the divisor, whose fit is `fits_gcd_iff`. -/
theorem gcdWritesTheDivisor : Obligations.GcdWritesTheDivisor := by
  intro s rd rs1 rs2 hs
  have hfits := fits_gcd_iff (hs.xFits rs1) (hs.xFits rs2)
  refine ⟨decode_commandWord .gcd (xField rd) (xField rs1) (xField rs2) 0 rfl, fun hb => ?_, fun ha hb => ?_, fun hb hpair => ?_⟩
  · exact (execGcd_of_neg rd rs1 hb).trans (raise_eq_faulted .param 3 s)
  · have hnot : ¬ fits s.width (Int.gcd (s.getX rs1) (s.getX rs2) : Int) = true := fun h => (hfits hb.ge).1 h ⟨ha, hb⟩
    calc execGcd rd rs1 rs2 s
      _ = commitX s rd (Int.gcd (s.getX rs1) (s.getX rs2)) := execGcd_of_nonneg rd rs1 hb.ge
      _ = raise .range 1 s := commitX_of_not_fits rd hnot
      _ = .next (faulted 6 1 s) := raise_eq_faulted .range 1 s
  · exact (execGcd_of_nonneg rd rs1 hb).trans (commitX_eq_wroteX ((hfits hb).2 hpair))

end Sys2Proof.Machine
end

section
/-! MODINV (spec R139 to R141): its one fault, and the two ends without fault, which set `NI`. -/

namespace Sys2Proof.Machine
open Sys2Proof.Claims

/-- MODINV's end without fault writes its result and `NI` (R93, R141). -/
theorem commit_setX_ni {s : State} (rd : XReg) {v : Int} (b : Bool) (h : fits s.width v = true) :
    commit s [v] { s.setX rd v with ni := b } = .next { wroteX rd v s with ni := b } :=
  commit_of_fits s fun _ hu => List.mem_singleton.1 hu ▸ h

section
variable {s : State} {rs1 rs2 : XReg} (rd : XReg)

theorem execModinv_of_nonpos (rs1 : XReg) (hm : s.getX rs2 ≤ 0) : execModinv rd rs1 rs2 s = raise .param 1 s := if_pos hm

theorem execModinv_of_inverse {v : Int} (hm : 0 < s.getX rs2) (hv : invOf (s.getX rs1) (s.getX rs2) = some v) :
    execModinv rd rs1 rs2 s = commit s [v] { s.setX rd v with ni := false } := by
  unfold execModinv
  dsimp only
  rw [if_neg hm.not_ge, hv]

theorem execModinv_of_no_inverse (hm : 0 < s.getX rs2) (hnone : invOf (s.getX rs1) (s.getX rs2) = none) :
    execModinv rd rs1 rs2 s = commit s [0] { s.setX rd 0 with ni := true } := by
  unfold execModinv
  dsimp only
  rw [if_neg hm.not_ge, hnone]

end

/-- Settles O16: the inverse is that of `invOf_of_gcd_eq_one`, which fits because `x[rs2]` does; without one, `invOf_of_gcd_ne_one`. -/
theorem modinvWritesTheInverse : Obligations.ModinvWritesTheInverse := by
  intro s rd rs1 rs2 hs
  refine ⟨decode_commandWord .modinv (xField rd) (xField rs1) (xField rs2) 0 rfl, fun hm => ?_, fun hm hone => ?_, fun hm hne => ?_⟩
  · exact (execModinv_of_nonpos rd rs1 hm).trans (raise_eq_faulted .param 1 s)
  · obtain ⟨v, hv, h0, hlt, hmul⟩ := invOf_of_gcd_eq_one hm hone
    have hfit : fits s.width v = true := fits_of_lt (hs.xFits rs2) h0 hlt
    exact ⟨v, h0, hlt, hmul, (execModinv_of_inverse rd hm hv).trans (commit_setX_ni rd false hfit)⟩
  · have hnone := invOf_of_gcd_ne_one hm hne
    exact (execModinv_of_no_inverse rd hm hnone).trans (commit_setX_ni rd true (fits_zero s.width))

end Sys2Proof.Machine
end

section
/-! POWMOD (spec R151, R152): its two faults, the modulus before the exponent, and the power reduced, which fits since the modulus does. -/

namespace Sys2Proof.Machine
open Sys2Proof.Claims

section
variable {s : State} {rs2 rs3 : XReg} (rd rs1 : XReg)

theorem execPowmod_of_nonpos (rs2 : XReg) (hm : s.getX rs3 ≤ 0) : execPowmod rd rs1 rs2 rs3 s = raise .param 1 s := if_pos hm

theorem execPowmod_of_pos_of_neg (hm : 0 < s.getX rs3) (he : s.getX rs2 < 0) :
    execPowmod rd rs1 rs2 rs3 s = raise .param 2 s :=
  (if_neg hm.not_ge).trans (if_pos he)

/-- Past both checks the result is the exact power reduced: square-and-multiply computes it (`powmod_eq`). -/
theorem execPowmod_of_pos_of_nonneg (hm : 0 < s.getX rs3) (he : 0 ≤ s.getX rs2) :
    execPowmod rd rs1 rs2 rs3 s = commitX s rd (s.getX rs1 ^ (s.getX rs2).toNat % s.getX rs3) := by
  calc execPowmod rd rs1 rs2 rs3 s
    _ = commitX s rd (powmod (s.getX rs1) (s.getX rs2) (s.getX rs3)) := (if_neg hm.not_ge).trans (if_neg he.not_gt)
    _ = commitX s rd (s.getX rs1 ^ (s.getX rs2).toNat % s.getX rs3) := congrArg _ (powmod_eq _ _ he)

end

/-- Settles O17: the encoding by `decode_commandWord`, then the three cases of modulus and exponent; the residue fits because `x[rs3]` does. -/
theorem powmodWritesThePower : Obligations.PowmodWritesThePower := by
  intro s rd rs1 rs2 rs3 hs
  refine ⟨decode_commandWord .powmod (xField rd) (xField rs1) (xField rs2) (xField rs3) rfl, fun hm => ?_, fun hm he => ?_,
    fun hm he => ?_⟩
  · exact (execPowmod_of_nonpos rd rs1 rs2 hm).trans (raise_eq_faulted .param 1 s)
  · exact (execPowmod_of_pos_of_neg rd rs1 hm he).trans (raise_eq_faulted .param 2 s)
  · exact (execPowmod_of_pos_of_nonneg rd rs1 hm he).trans (commitX_eq_wroteX (fits_emod (hs.xFits rs3) hm _))

end Sys2Proof.Machine
end

section
/-! The source after a number of draws (spec R160), and SAMPLE (R162): one draw, whose value is below `x[rs2]` and so fits. -/

namespace Sys2Proof.Machine
open Sys2Proof.Claims

/-! ### the source after a number of draws -/

/-- The source once it has answered `k` more draws. -/
def Source.afterDraws (k : Nat) (g : Source) : Source := { answers := g.answers.drop k, taken := g.taken + k }

/-- `drawn` of the statements is the state with that source. -/
theorem drawn_eq_setSource (k : Nat) (s : State) : drawn k s = s.setSource (s.env.source.afterDraws k) := rfl

theorem Source.afterDraws_zero (g : Source) : g.afterDraws 0 = g := rfl

theorem Source.afterDraws_afterDraws (j k : Nat) (g : Source) : (g.afterDraws j).afterDraws k = g.afterDraws (j + k) := by
  simp only [afterDraws, List.drop_drop, Nat.add_assoc]

theorem draw_source {lo hi : Int} (h : lo < hi) (g : Source) : (draw lo hi g).2 = g.afterDraws 1 := by
  rw [(draw_spec h g).2.2, Source.afterDraws, List.drop_one]

/-- The next listed answer, when it lies in the range, is the value drawn (R160). -/
theorem draw_value_of_answer {lo hi v : Int} {g : Source} (hv : g.answers[0]? = some v) (h0 : lo ≤ v) (h1 : v < hi) :
    (draw lo hi g).1 = v := by
  obtain ⟨_ | ⟨w, ws⟩, n⟩ := g
  case nil => cases hv
  case cons =>
    obtain rfl : w = v := Option.some.inj hv
    rw [draw_answer h0 h1]

/-! ### the command -/

section
variable {s : State} {rs1 rs2 : XReg} (rd : XReg)

theorem execSample_of_empty_range (h : s.getX rs1 < 0 ∨ s.getX rs2 ≤ s.getX rs1) :
    execSample rd rs1 rs2 s = raise .param 5 s := if_pos h

theorem execSample_of_range (h0 : 0 ≤ s.getX rs1) (hlt : s.getX rs1 < s.getX rs2) :
    execSample rd rs1 rs2 s = commitX (drawn 1 s) rd (draw (s.getX rs1) (s.getX rs2) s.env.source).1 := by
  rw [drawn_eq_setSource, ← draw_source hlt]
  exact if_neg (by omega)

end

/-- Settles O18: `draw_spec` bounds the value drawn, which fits because `x[rs2]` does; `draw_value_of_answer` says which value a listed
answer gives. -/
theorem sampleWritesValueInRange : Obligations.SampleWritesValueInRange := by
  intro s rd rs1 rs2 hs
  refine ⟨decode_commandWord .sample (xField rd) (xField rs1) (xField rs2) 0 rfl, fun h => ?_, fun h0 hlt => ?_⟩
  · exact (execSample_of_empty_range rd h).trans (raise_eq_faulted .param 5 s)
  · obtain ⟨hlo, hhi, -⟩ := draw_spec hlt s.env.source
    have hfit : fits (drawn 1 s).width (draw (s.getX rs1) (s.getX rs2) s.env.source).1 = true :=
      fits_of_lt (hs.xFits rs2) (h0.trans hlo) hhi
    have hexec := (execSample_of_range rd h0 hlt).trans (commitX_eq_wroteX hfit)
    refine ⟨⟨_, hlo, hhi, hexec⟩, fun v rest hv0 hv1 hans => ?_⟩
    rw [draw_value_of_answer (v := v) (by rw [hans]; rfl) hv0 hv1] at hexec
    exact hexec

end Sys2Proof.Machine
end

section
/-! The round of the Miller-Rabin test (spec R164): the loops of `mrRound` decide `roundPasses`. -/

namespace Sys2Proof.Machine
open Sys2Proof.Claims

/-- `splitTwos` finds the decomposition into a power of two and an odd number, whatever odd number it is: so there is only one. -/
theorem splitTwos_two_pow_mul {k : Int} (hk : k % 2 = 1) (q : Nat) {fuel : Nat} (hfuel : q ≤ fuel) (q₀ : Nat) :
    splitTwos fuel q₀ (2 ^ q * k) = (q₀ + q, k) := by
  induction q generalizing fuel q₀ with
  | zero =>
    cases fuel with
    | zero => simp [splitTwos]
    | succ fuel => simp [splitTwos, (isOdd_iff k).2 hk]
  | succ q ih =>
    obtain ⟨fuel, rfl⟩ : ∃ f, fuel = f + 1 := ⟨fuel - 1, by omega⟩
    have hdouble : (2 : Int) ^ (q + 1) * k = 2 * (2 ^ q * k) := by ring
    have heven : isOdd (2 * (2 ^ q * k)) = false := (isOdd_false_iff _).2 (Int.mul_emod_right 2 _)
    have hhalf : idiv (2 * (2 ^ q * k)) 2 = 2 ^ q * k := Int.mul_ediv_cancel_left _ two_ne_zero
    rw [hdouble, splitTwos, heven, hhalf, if_neg Bool.false_ne_true, ih (by omega)]
    congr 1
    omega

/-- Squaring modulo `n` first changes nothing of the higher powers modulo `n`. -/
theorem imod_sq_pow_emod (y n : Int) (j : Nat) : imod (y * y) n ^ 2 ^ j % n = y ^ 2 ^ (j + 1) % n := by
  rw [pow_succ', pow_mul, pow_two]
  exact (Int.mod_modEq (y * y) n).pow _

/-- The squarings end in `pass` exactly when one of them meets `n − 1`: once a square is 1, so are all that follow. -/
theorem mrSquarings_eq_pass_iff {n : Int} (hn : 2 < n) (r : Nat) (y : Int) :
    mrSquarings n r y = .pass ↔ ∃ j < r, y ^ 2 ^ (j + 1) % n = n - 1 := by
  induction r generalizing y with
  | zero => simp [mrSquarings]
  | succ r ih =>
    have hfirst : y ^ 2 ^ (0 + 1) % n = imod (y * y) n := by rw [zero_add, pow_one, pow_two]
    rw [Nat.exists_lt_succ_left, hfirst]
    simp only [mrSquarings]
    split
    case isTrue hz => simp [hz]
    case isFalse hz =>
      simp only [hz, false_or, ← imod_sq_pow_emod y n]
      split
      case isTrue hone =>
        have hstay : ∀ j : Nat, imod (y * y) n ^ 2 ^ j % n ≠ n - 1 := fun j => by
          rw [hone, one_pow, Int.emod_eq_of_lt (by omega) (by omega)]
          omega
        simp [hstay]
      case isFalse => exact ih _

/-- The round of the test for the decomposition it is given. -/
theorem mrRound_eq_pass_iff_of_split {n : Int} (hn : 2 < n) (a : Int) {q k : Nat} (hq : 0 < q) (hk : k % 2 = 1)
    (hsplit : n - 1 = 2 ^ q * (k : Int)) :
    mrRound n a = .pass ↔ a ^ k % n = 1 ∨ ∃ j < q, a ^ (2 ^ j * k) % n = n - 1 := by
  have hfuel : q ≤ bitlen (n - 1) := by
    have hle : (2 : Int) ^ q ≤ n - 1 := by
      rw [hsplit]
      exact le_mul_of_one_le_right (by positivity) (by omega)
    have hlt : (2 : Int) ^ q < 2 ^ bitlen (n - 1) := hle.trans_lt (bitlen_le_iff.1 le_rfl)
    exact (pow_lt_pow_iff_right₀ one_lt_two).1 hlt |>.le
  have hqk : splitTwos (bitlen (n - 1)) 0 (n - 1) = (q, (k : Int)) := by
    have := splitTwos_two_pow_mul (k := k) (by omega) q hfuel 0
    rwa [← hsplit, zero_add] at this
  have hy : powmod a k n = a ^ k % n := powmod_eq a n (Int.natCast_nonneg k)
  have hpow : ∀ j : Nat, (a ^ k % n) ^ 2 ^ j % n = a ^ (2 ^ j * k) % n := fun j => by
    rw [mul_comm, pow_mul]
    exact (Int.mod_modEq (a ^ k) n).pow _
  obtain ⟨r, rfl⟩ : ∃ r, q = r + 1 := ⟨q - 1, by omega⟩
  simp only [mrRound, hqk, hy, Nat.add_sub_cancel]
  rw [Nat.exists_lt_succ_left, pow_zero, one_mul, ← or_assoc]
  split
  case isTrue h => simp [h]
  case isFalse h => simp only [h, false_or, mrSquarings_eq_pass_iff hn, hpow]

/-- An odd number less 1 is even, so its power of two is not 1. -/
theorem pos_of_split {n : Int} (hodd : n % 2 = 1) {q k : Nat} (hk : k % 2 = 1) (hsplit : n - 1 = 2 ^ q * (k : Int)) : 0 < q := by
  refine Nat.pos_of_ne_zero fun hq => ?_
  rw [hq, pow_zero, one_mul] at hsplit
  omega

/-- R164: a round of the test on an odd number passes exactly when its base passes. -/
theorem mrRound_eq_pass_iff {n : Int} (hn : 2 < n) (hodd : n % 2 = 1) (a : Int) :
    mrRound n a = .pass ↔ roundPasses n a := by
  constructor
  · intro hpass
    obtain ⟨q, k, hk, hsplit⟩ := Nat.exists_eq_two_pow_mul_odd (n := (n - 1).toNat) (by omega)
    rw [Nat.odd_iff] at hk
    have hsplit' : n - 1 = 2 ^ q * (k : Int) := by
      rw [← Int.toNat_of_nonneg (by omega : 0 ≤ n - 1), hsplit]
      push_cast
      rfl
    exact ⟨q, k, hsplit', hk, (mrRound_eq_pass_iff_of_split hn a (pos_of_split hodd hk hsplit') hk hsplit').1 hpass⟩
  · rintro ⟨q, k, hsplit, hk, h⟩
    exact (mrRound_eq_pass_iff_of_split hn a (pos_of_split hodd hk hsplit) hk hsplit).2 h

theorem mrRound_eq_composite_iff {n : Int} (hn : 2 < n) (hodd : n % 2 = 1) (a : Int) :
    mrRound n a = .composite ↔ ¬ roundPasses n a := by
  rw [← mrRound_eq_pass_iff hn hodd]
  cases mrRound n a <;> decide

end Sys2Proof.Machine
end

section
/-! The bases of the Miller-Rabin test (spec R165, R166), and ISPRIME (R168). -/

namespace Sys2Proof.Machine
open Sys2Proof.Claims

/-! ### the bases -/

/-- The base of round `j` (from 0) when every round before it has passed: the draw after `j` others (R165). -/
def baseAt (n : Int) (g : Source) (j : Nat) : Int := (draw 2 (n - 1) (g.afterDraws j)).1

theorem baseAt_mem_range {n : Int} (hn : 3 < n) (g : Source) (j : Nat) : 2 ≤ baseAt n g j ∧ baseAt n g j ≤ n - 2 := by
  obtain ⟨hlo, hhi, -⟩ := draw_spec (lo := 2) (hi := n - 1) (by omega) (g.afterDraws j)
  exact ⟨hlo, by unfold baseAt; omega⟩

/-- A listed answer in range is the base of its round (R160). -/
theorem baseAt_of_answer {n v : Int} {g : Source} {j : Nat} (hv : g.answers[j]? = some v) (h0 : 2 ≤ v) (h1 : v ≤ n - 2) :
    baseAt n g j = v :=
  draw_value_of_answer (by rw [Source.afterDraws, List.getElem?_drop]; exact hv) h0 (by omega)

theorem baseAt_succ (n : Int) (g : Source) (j : Nat) : baseAt n g (j + 1) = baseAt n (g.afterDraws 1) j := by
  rw [baseAt, baseAt, Source.afterDraws_afterDraws, Nat.add_comm]

/-- The first `k` bases, in the order of the rounds. -/
def firstBases (n : Int) (g : Source) (k : Nat) : List Int := (List.range k).map (baseAt n g)

theorem length_firstBases (n : Int) (g : Source) (k : Nat) : (firstBases n g k).length = k := by simp [firstBases]

theorem firstBases_succ (n : Int) (g : Source) (k : Nat) : firstBases n g (k + 1) = firstBases n g k ++ [baseAt n g k] := by
  simp [firstBases, List.range_succ]

theorem forall_mem_firstBases {n : Int} {g : Source} {k : Nat} {P : Int → Prop} :
    (∀ a ∈ firstBases n g k, P a) ↔ ∀ j < k, P (baseAt n g j) := by
  simp [firstBases]

theorem firstBases_of_answer {n v : Int} {g : Source} {j k : Nat} (hj : j < (firstBases n g k).length)
    (hv : g.answers[j]? = some v) (h0 : 2 ≤ v) (h1 : v ≤ n - 2) : (firstBases n g k)[j]? = some v := by
  rw [length_firstBases] at hj
  simp [firstBases, hj, baseAt_of_answer hv h0 h1]

/-- When not every index below `t` has a property, there is a first that has not. -/
theorem exists_first_failure {P : Nat → Prop} {t : Nat} (h : ¬ ∀ j < t, P j) : ∃ i < t, ¬ P i ∧ ∀ j < i, P j := by
  classical
  push Not at h
  obtain ⟨hi, hfail⟩ := Nat.find_spec h
  refine ⟨Nat.find h, hi, hfail, fun j hj => ?_⟩
  by_contra hj'
  exact Nat.find_min h hj ⟨by omega, hj'⟩

/-! ### the witness loop -/

section
variable {n : Int} (hn : 3 < n)
include hn

theorem witnessLoop_succ_of_pass {g : Source} (h : mrRound n (baseAt n g 0) = .pass) (t : Nat) :
    witnessLoop n (t + 1) g = witnessLoop n t (g.afterDraws 1) := by
  rw [← draw_source (by omega : 2 < n - 1)]
  simp only [baseAt, Source.afterDraws_zero] at h
  simp only [witnessLoop, h]

theorem witnessLoop_succ_of_composite {g : Source} (h : mrRound n (baseAt n g 0) = .composite) (t : Nat) :
    witnessLoop n (t + 1) g = (false, g.afterDraws 1) := by
  rw [← draw_source (by omega : 2 < n - 1)]
  simp only [baseAt, Source.afterDraws_zero] at h
  simp only [witnessLoop, h]

/-- The rounds that pass only move the source on. -/
theorem witnessLoop_add_of_pass {i : Nat} {g : Source} (h : ∀ j < i, mrRound n (baseAt n g j) = .pass) (t : Nat) :
    witnessLoop n (i + t) g = witnessLoop n t (g.afterDraws i) := by
  induction i generalizing g with
  | zero => rw [Nat.zero_add, Source.afterDraws_zero]
  | succ i ih =>
    have hrest : ∀ j < i, mrRound n (baseAt n (g.afterDraws 1) j) = .pass := fun j hj =>
      baseAt_succ n g j ▸ h (j + 1) (by omega)
    rw [Nat.add_right_comm, witnessLoop_succ_of_pass hn (h 0 (by omega)), ih hrest, Source.afterDraws_afterDraws, Nat.add_comm 1]

theorem witnessLoop_of_all_pass {t : Nat} {g : Source} (h : ∀ j < t, mrRound n (baseAt n g j) = .pass) :
    witnessLoop n t g = (true, g.afterDraws t) :=
  witnessLoop_add_of_pass hn h 0

/-- The first composite round ends the loop (R166). -/
theorem witnessLoop_of_first_composite {i t : Nat} {g : Source} (hi : i < t) (h : ∀ j < i, mrRound n (baseAt n g j) = .pass)
    (hc : mrRound n (baseAt n g i) = .composite) : witnessLoop n t g = (false, g.afterDraws (i + 1)) := by
  obtain ⟨r, rfl⟩ : ∃ r, t = i + (r + 1) := ⟨t - i - 1, by omega⟩
  rw [witnessLoop_add_of_pass hn h, witnessLoop_succ_of_composite hn, Source.afterDraws_afterDraws]
  rwa [baseAt, Source.afterDraws_afterDraws, Nat.add_zero]

end

/-! ### the test -/

theorem isprimeOf_of_lt_two {n : Int} (h : n < 2) (g : Source) : isprimeOf n g = (false, g) := if_pos h

theorem isprimeOf_of_two_or_three {n : Int} (h : n = 2 ∨ n = 3) (g : Source) : isprimeOf n g = (true, g) := by
  rcases h with rfl | rfl <;> rfl

theorem isprimeOf_of_even {n : Int} (h4 : 4 ≤ n) (heven : n % 2 = 0) (g : Source) : isprimeOf n g = (false, g) := by
  rw [isprimeOf, if_neg (by omega), if_neg (by omega), if_neg (by omega), if_pos ((isOdd_false_iff n).2 heven)]

theorem isprimeOf_of_odd {n : Int} (h5 : 5 ≤ n) (hodd : n % 2 = 1) (g : Source) : isprimeOf n g = witnessLoop n 5 g := by
  rw [isprimeOf, if_neg (by omega), if_neg (by omega), if_neg (by omega), if_neg]
  · rfl
  · simp [(isOdd_iff n).2 hodd]

/-! ### the command -/

/-- ISPRIME writes the verdict of the test, which fits in every register (R168). -/
theorem execIsprime_of_isprimeOf {s : State} (hs : s.Inv) (rd : XReg) {rs1 : XReg} {b : Bool} {g : Source}
    (h : isprimeOf (s.getX rs1) s.env.source = (b, g)) :
    execIsprime rd rs1 s = .next (wroteX rd (ofVerdict b) (s.setSource g)) := by
  obtain ⟨hwidth, -⟩ := Params.bounds_of_wf hs.params
  have hfit : fits s.width (ofVerdict b) = true := fits_ofVerdict (le_trans (by decide : 2 ≤ 64) hwidth) b
  simp only [execIsprime, h]
  exact commitX_eq_wroteX hfit

/-- Settles O19: for an odd number from 5 on, the bases are all five when all pass, else those up to the first that does not. -/
theorem isprimeWritesTheVerdict : Obligations.IsprimeWritesTheVerdict := by
  intro s rd rs1 hs
  refine ⟨decode_commandWord .isprime (xField rd) (xField rs1) 0 0 rfl, fun h => ?_, fun h => ?_, fun h4 heven => ?_,
    fun h5 hodd => ?_⟩
  · exact execIsprime_of_isprimeOf hs rd (isprimeOf_of_lt_two h _)
  · exact execIsprime_of_isprimeOf hs rd (isprimeOf_of_two_or_three h _)
  · exact execIsprime_of_isprimeOf hs rd (isprimeOf_of_even h4 heven _)
  · set n := s.getX rs1
    set g := s.env.source
    have h3 : 3 < n := by omega
    have hpass_iff := mrRound_eq_pass_iff (by omega : 2 < n) hodd
    have hcomposite_iff := mrRound_eq_composite_iff (by omega : 2 < n) hodd
    have hrange : ∀ k, ∀ a ∈ firstBases n g k, 2 ≤ a ∧ a ≤ n - 2 := fun k =>
      forall_mem_firstBases.2 fun j _ => baseAt_mem_range h3 g j
    by_cases hall : ∀ j < 5, roundPasses n (baseAt n g j)
    · have hloop := witnessLoop_of_all_pass h3 fun j hj => (hpass_iff _).2 (hall j hj)
      exact ⟨firstBases n g 5, hrange 5, fun j v => firstBases_of_answer, .inl ⟨length_firstBases n g 5,
        forall_mem_firstBases.2 hall, execIsprime_of_isprimeOf hs rd ((isprimeOf_of_odd h5 hodd g).trans hloop)⟩⟩
    · obtain ⟨i, hi, hfail, hleast⟩ := exists_first_failure hall
      have hloop := witnessLoop_of_first_composite h3 hi (fun j hj => (hpass_iff _).2 (hleast j hj)) ((hcomposite_iff _).2 hfail)
      refine ⟨firstBases n g (i + 1), hrange (i + 1), fun j v => firstBases_of_answer, .inr ⟨firstBases n g i, baseAt n g i,
        firstBases_succ n g i, by rwa [length_firstBases], forall_mem_firstBases.2 hleast, hfail, ?_⟩⟩
      rw [length_firstBases]
      exact execIsprime_of_isprimeOf hs rd ((isprimeOf_of_odd h5 hodd g).trans hloop)

end Sys2Proof.Machine
end

section
/-! GENPRIME (spec R172): the one loop of the model and the two nested loops of the rule are the same search. -/

namespace Sys2Proof.Machine
open Sys2Proof.Claims

/-! ### the loop of the model -/

/-- A fresh sample has `tb` bits (R309). -/
theorem bitlen_candidate {tb : Nat} (h : 1 ≤ tb) (g : Source) : bitlen (candidate tb g).1 = tb := by
  obtain ⟨hlo, hhi, -⟩ := candidate_spec h g
  exact (bitlen_eq_iff h).2 ⟨hlo, hhi⟩

theorem probeLoop_zero_of_bits {tb : Nat} {c : Int} (hc : bitlen c = tb) (g : Source) : probeLoop tb 0 c g = (none, g) := by
  rw [probeLoop, refresh, if_pos hc]

theorem probeLoop_succ_of_bits {tb : Nat} {c : Int} (hc : bitlen c = tb) (n : Nat) (g : Source) :
    probeLoop tb (n + 1) c g =
      if (isprimeOf c g).1 then (some c, (isprimeOf c g).2) else probeLoop tb n (c + 2) (isprimeOf c g).2 := by
  simp only [probeLoop, refresh, if_pos hc]

/-- An overflowed candidate is replaced by a fresh sample, whatever the budget left. -/
theorem probeLoop_of_overflow {tb : Nat} (h : 1 ≤ tb) {c : Int} (hc : bitlen c ≠ tb) (n : Nat) (g : Source) :
    probeLoop tb n c g = probeLoop tb n (candidate tb g).1 (candidate tb g).2 := by
  have hfresh : refresh tb c g = refresh tb (candidate tb g).1 (candidate tb g).2 := by
    rw [refresh, refresh, if_neg hc, if_pos (bitlen_candidate h g)]
  cases n <;> simp only [probeLoop, hfresh]

/-! ### the loops of the rule -/

/-- What the outer loop of R172 makes of the inner loop's end, with `samples` samples left. -/
def afterInner (tb max samples : Nat) : Probed → Option Int × Source
  | .found c g => (some c, g)
  | .spent g => (none, g)
  | .overflowed probes g => outerLoop tb max samples probes g

theorem outerLoop_succ (tb max samples probes : Nat) (g : Source) :
    outerLoop tb max (samples + 1) probes g =
      afterInner tb max samples (innerLoop tb max (max + 1) probes (candidate tb g).1 (candidate tb g).2) := by
  rw [outerLoop]
  cases innerLoop tb max (max + 1) probes (candidate tb g).1 (candidate tb g).2 <;> rfl

theorem innerLoop_of_spent {tb max turns : Nat} {c : Int} (hc : bitlen c = tb) (g : Source) :
    innerLoop tb max (turns + 1) max c g = .spent g := by
  rw [innerLoop, if_pos hc, if_pos rfl]

theorem innerLoop_of_overflow {tb max turns probes : Nat} {c : Int} (hc : bitlen c ≠ tb) (g : Source) :
    innerLoop tb max turns probes c g = .overflowed probes g := by
  cases turns with
  | zero => rfl
  | succ turns => rw [innerLoop, if_neg hc]

theorem innerLoop_of_bits {tb max turns probes : Nat} {c : Int} (hc : bitlen c = tb) (hp : probes ≠ max) (g : Source) :
    innerLoop tb max (turns + 1) probes c g =
      if (isprimeOf c g).1 then .found c (isprimeOf c g).2
      else innerLoop tb max turns (probes + 1) (c + 2) (isprimeOf c g).2 := by
  rw [innerLoop, if_pos hc, if_neg hp]

/-! ### the two are the same search -/

/-- With `left` probes left and a candidate of `tb` bits, the two loops do the same. Each sample but the first follows a probe, so
`left` more samples are enough (R309). -/
theorem afterInner_innerLoop {tb max : Nat} (h : 1 ≤ tb) {left turns samples probes : Nat} {c : Int} (hc : bitlen c = tb)
    (hbudget : probes + left = max) (hturns : left < turns) (hsamples : left ≤ samples) (g : Source) :
    afterInner tb max samples (innerLoop tb max turns probes c g) = probeLoop tb left c g := by
  induction left generalizing turns samples probes c g with
  | zero =>
    obtain ⟨turns, rfl⟩ : ∃ k, turns = k + 1 := ⟨turns - 1, by omega⟩
    obtain rfl : probes = max := hbudget
    rw [innerLoop_of_spent hc, probeLoop_zero_of_bits hc, afterInner]
  | succ left ih =>
    obtain ⟨turns, rfl⟩ : ∃ k, turns = k + 1 := ⟨turns - 1, by omega⟩
    rw [innerLoop_of_bits hc (by omega), probeLoop_succ_of_bits hc]
    split
    case isTrue => rfl
    case isFalse =>
      by_cases hnext : bitlen (c + 2) = tb
      · exact ih hnext (by omega) (by omega) (by omega) _
      · obtain ⟨samples, rfl⟩ : ∃ k, samples = k + 1 := ⟨samples - 1, by omega⟩
        rw [innerLoop_of_overflow hnext, afterInner, outerLoop_succ, probeLoop_of_overflow h hnext]
        exact ih (bitlen_candidate h _) (by omega) (by omega) (by omega) _

theorem outerLoop_eq_searchPrime {tb : Nat} (h : 1 ≤ tb) (max : Nat) (g : Source) :
    outerLoop tb max (max + 1) 0 g = searchPrime tb max g := by
  rw [outerLoop_succ, searchPrime]
  exact afterInner_innerLoop h (bitlen_candidate h g) (Nat.zero_add max) (Nat.lt_succ_self max) le_rfl _

/-! ### the command -/

section
variable {s : State} {rs1 : XReg} (rd : XReg)

theorem execGenprime_of_bad_length (h : s.getX rs1 < 8 ∨ s.getX rs1 % 8 ≠ 0 ∨ s.getX rs1 > (s.width : Int) - 8) :
    execGenprime rd rs1 s = raise .param 4 s := if_pos h

variable (hok : ¬ (s.getX rs1 < 8 ∨ s.getX rs1 % 8 ≠ 0 ∨ s.getX rs1 > (s.width : Int) - 8)) {g : Source}
include hok

theorem execGenprime_of_exhausted
    (hr : searchPrime (s.getX rs1).toNat s.env.params.maxPrimeProbes s.env.source = (none, g)) :
    execGenprime rd rs1 s = raise .exhausted 1 (s.setSource g) := by
  simp only [execGenprime, if_neg hok, hr]

theorem execGenprime_of_found {c : Int}
    (hr : searchPrime (s.getX rs1).toNat s.env.params.maxPrimeProbes s.env.source = (some c, g)) :
    execGenprime rd rs1 s = commitX (s.setSource g) rd c := by
  simp only [execGenprime, if_neg hok, hr]

end

/-- Settles O21: `outerLoop_eq_searchPrime`; the number found fits because it has `tb ≤ W − 8` bits. -/
theorem genprimeRunsTheNestedLoops : Obligations.GenprimeRunsTheNestedLoops := by
  intro s rd rs1 hs
  refine ⟨decode_commandWord .genprime (xField rd) (xField rs1) 0 0 rfl, fun h => ?_, fun h8 hmod hle => ?_⟩
  · exact (execGenprime_of_bad_length rd h).trans (raise_eq_faulted .param 4 s)
  · have hok : ¬ (s.getX rs1 < 8 ∨ s.getX rs1 % 8 ≠ 0 ∨ s.getX rs1 > (s.width : Int) - 8) := by omega
    have htb : 1 ≤ (s.getX rs1).toNat := by omega
    dsimp only
    rw [outerLoop_eq_searchPrime htb]
    refine ⟨fun c hfound => ?_, fun hnone => ?_⟩
    · obtain ⟨hlo, hhi, -⟩ := searchPrime_spec htb _ _ hfound
      have hfit : fits s.width c = true := fits_of_lt_pow (by omega) (le_trans (by positivity) hlo) hhi
      exact (execGenprime_of_found rd hok (Prod.ext hfound rfl)).trans (commitX_eq_wroteX hfit)
    · exact (execGenprime_of_exhausted rd hok (Prod.ext hnone rfl)).trans (raise_eq_faulted .exhausted 1 _)

end Sys2Proof.Machine
end

section
/-! FINDGEN (spec R186 to R188): the loop over the tries goes along the cyclic sequence of candidates, up to the first that passes. -/

namespace Sys2Proof.Machine
open Sys2Proof.Claims

/-! ### the cyclic sequence of candidates -/

theorem candidateAt_zero {pp g0 : Int} (h0 : 2 ≤ g0) (h1 : g0 < pp) : candidateAt pp g0 0 = g0 := by
  rw [candidateAt, Nat.cast_zero, Int.add_zero, Int.emod_eq_of_lt (by omega) (by omega)]
  omega

theorem candidateAt_mem_range {pp : Int} (h : 2 < pp) (g0 : Int) (n : Nat) :
    2 ≤ candidateAt pp g0 n ∧ candidateAt pp g0 n < pp := by
  have hnonneg := Int.emod_nonneg (g0 - 2 + n) (by omega : pp - 2 ≠ 0)
  have hlt := Int.emod_lt_of_pos (g0 - 2 + n) (by omega : 0 < pp - 2)
  unfold candidateAt
  omega

/-- The next candidate, with its wrap from `pp − 1` to 2 (R186), is the next of the sequence. -/
theorem advance_candidateAt {pp : Int} (h : 2 < pp) (g0 : Int) (n : Nat) :
    advance pp (candidateAt pp g0 n) = candidateAt pp g0 (n + 1) := by
  obtain ⟨hlo, hhi⟩ := candidateAt_mem_range h g0 n
  have hnext : candidateAt pp g0 (n + 1) = 2 + (candidateAt pp g0 n - 2 + 1) % (pp - 2) := by
    unfold candidateAt
    rw [add_sub_cancel_left, Int.emod_add_emod, Nat.cast_succ, Int.add_assoc (g0 - 2)]
  rw [hnext, advance]
  split
  case isTrue hwrap =>
    have hlast : candidateAt pp g0 n - 2 + 1 = pp - 2 := by omega
    rw [hlast, Int.emod_self]
    rfl
  case isFalse hinside =>
    rw [Int.emod_eq_of_lt (by omega) (by omega)]
    omega

/-! ### the search -/

theorem windowOk_iff_powersDistinct (g p : Int) (w : Nat) : windowOk g p w = true ↔ powersDistinct g p w := windowOk_iff g p w

theorem windowSize_eq_windowOf (pp : Int) : windowSize pp = windowOf pp := rfl

section
variable {pp g : Int} {w : Nat}

theorem tryLoop_succ_of_pass (h : powersDistinct g pp w) (t : Nat) : tryLoop pp w (t + 1) g = some g :=
  if_pos ((windowOk_iff_powersDistinct g pp w).2 h)

theorem tryLoop_succ_of_fail (h : ¬ powersDistinct g pp w) (t : Nat) :
    tryLoop pp w (t + 1) g = tryLoop pp w t (advance pp g) :=
  if_neg fun hok => h ((windowOk_iff_powersDistinct g pp w).1 hok)

end

section
variable {pp g0 : Int} (h0 : 2 ≤ g0) (h1 : g0 < pp) {w n : Nat}
include h0 h1

/-- The candidates that fail only move the search on along the sequence. -/
theorem tryLoop_add_of_fail (hfail : ∀ k < n, ¬ powersDistinct (candidateAt pp g0 k) pp w) (t : Nat) :
    tryLoop pp w (n + t) g0 = tryLoop pp w t (candidateAt pp g0 n) := by
  induction n generalizing t with
  | zero => rw [Nat.zero_add, candidateAt_zero h0 h1]
  | succ n ih =>
    have hbefore : ∀ k < n, ¬ powersDistinct (candidateAt pp g0 k) pp w := fun k hk => hfail k (by omega)
    calc tryLoop pp w (n + 1 + t) g0
      _ = tryLoop pp w (n + (t + 1)) g0 := by rw [Nat.add_assoc, Nat.add_comm 1]
      _ = tryLoop pp w (t + 1) (candidateAt pp g0 n) := ih hbefore (t + 1)
      _ = tryLoop pp w t (advance pp (candidateAt pp g0 n)) := tryLoop_succ_of_fail (hfail n (by omega)) t
      _ = tryLoop pp w t (candidateAt pp g0 (n + 1)) := by rw [advance_candidateAt (by omega)]

theorem tryLoop_of_first_pass {tries : Nat} (hn : n < tries) (hpass : powersDistinct (candidateAt pp g0 n) pp w)
    (hfail : ∀ k < n, ¬ powersDistinct (candidateAt pp g0 k) pp w) : tryLoop pp w tries g0 = some (candidateAt pp g0 n) := by
  obtain ⟨t, rfl⟩ : ∃ t, tries = n + (t + 1) := ⟨tries - n - 1, by omega⟩
  rw [tryLoop_add_of_fail h0 h1 hfail, tryLoop_succ_of_pass hpass]

theorem tryLoop_of_all_fail (hfail : ∀ k < n, ¬ powersDistinct (candidateAt pp g0 k) pp w) : tryLoop pp w n g0 = none :=
  tryLoop_add_of_fail h0 h1 hfail 0

end

/-! ### the command -/

theorem drawn_setSource (k : Nat) (s : State) (g : Source) : drawn k (s.setSource g) = s.setSource (g.afterDraws k) := rfl

section
variable {s : State} {rs1 : XReg} (rd : XReg)

theorem execFindgen_of_le_two (h : s.getX rs1 ≤ 2) : execFindgen rd rs1 s = raise .param 6 s := if_pos h

variable (hpp : 2 < s.getX rs1)
include hpp

theorem execFindgen_of_composite (hv : (isprimeOf (s.getX rs1) s.env.source).1 = false) :
    execFindgen rd rs1 s = raise .param 6 (s.setSource (isprimeOf (s.getX rs1) s.env.source).2) := by
  simp only [execFindgen, if_neg hpp.not_ge, if_pos hv]

variable {g : Source} (hv : isprimeOf (s.getX rs1) s.env.source = (true, g))
include hv

theorem execFindgen_of_exhausted
    (hr : tryLoop (s.getX rs1) (windowOf (s.getX rs1)) s.env.params.maxGenTries (draw 2 (s.getX rs1) g).1 = none) :
    execFindgen rd rs1 s = raise .exhausted 2 (drawn 1 (s.setSource g)) := by
  rw [← windowSize_eq_windowOf] at hr
  rw [drawn_setSource, ← draw_source hpp]
  simp [execFindgen, hpp.not_ge, hv, hr]

theorem execFindgen_of_found {c : Int}
    (hr : tryLoop (s.getX rs1) (windowOf (s.getX rs1)) s.env.params.maxGenTries (draw 2 (s.getX rs1) g).1 = some c) :
    execFindgen rd rs1 s = commitX (drawn 1 (s.setSource g)) rd c := by
  rw [← windowSize_eq_windowOf] at hr
  rw [drawn_setSource, ← draw_source hpp]
  simp [execFindgen, hpp.not_ge, hv, hr]

end

/-- Settles O24: the first candidate is the value drawn, and from it the tries go along the cyclic sequence to the first candidate that
passes (`tryLoop_of_first_pass`), which fits because `x[rs1]` does, or all fail (`tryLoop_of_all_fail`). -/
theorem findgenFindsFirstCandidate : Obligations.FindgenFindsFirstCandidate := by
  intro s rd rs1 hs
  refine ⟨decode_commandWord .findgen (xField rd) (xField rs1) 0 0 rfl, fun hle => ?_, fun hpp hv => ?_, fun hpp hv => ?_⟩
  · exact (execFindgen_of_le_two rd hle).trans (raise_eq_faulted .param 6 s)
  · exact (execFindgen_of_composite rd hpp hv).trans (raise_eq_faulted .param 6 _)
  · set g := (isprimeOf (s.getX rs1) s.env.source).2
    have hverdict : isprimeOf (s.getX rs1) s.env.source = (true, g) := Prod.ext hv rfl
    obtain ⟨hlo, hhi, -⟩ := draw_spec hpp g
    refine ⟨_, hlo, hhi, fun a rest hans h0 h1 => draw_value_of_answer (by rw [hans]; rfl) h0 h1,
      fun n hn hpass hfail => ?_, fun hfail => ?_⟩
    · obtain ⟨hlo', hhi'⟩ := candidateAt_mem_range hpp (draw 2 (s.getX rs1) g).1 n
      have hfound := execFindgen_of_found rd hpp hverdict (tryLoop_of_first_pass hlo hhi hn hpass hfail)
      exact hfound.trans (commitX_eq_wroteX (fits_of_lt (hs.xFits rs1) (by omega) hhi'))
    · have hnone := execFindgen_of_exhausted rd hpp hverdict (tryLoop_of_all_fail hlo hhi hfail)
      exact hnone.trans (raise_eq_faulted .exhausted 2 _)

end Sys2Proof.Machine
end

section
/-! The constructor of curves (spec R196, R197), and its two commands ECSET and ECSETNB (R198): the modulus is checked, and then the three
integers are stored as given; none of them overflows, since each comes from a register or is 0. -/

namespace Sys2Proof.Machine
open Sys2Proof.Claims

/-! ### the constructor -/

section
variable {s : State} {c : Curve}

/-- The end without fault writes the curve registers and `CV` (R93, R196). -/
theorem commit_setCurve (hfit : ∀ v ∈ [c.a, c.b, c.p], fits s.width v = true) :
    commit s [c.a, c.b, c.p] (s.setCurve c) = .next (wroteCurve c.a c.b c.p s) :=
  commit_of_fits s hfit

theorem construct_of_le_three (h : c.p ≤ 3) : construct c s = raise .curve 1 s := if_pos h

variable (h3 : 3 < c.p)
include h3

theorem construct_of_composite (hv : (isprimeOf c.p s.env.source).1 = false) :
    construct c s = raise .curve 2 (s.setSource (isprimeOf c.p s.env.source).2) := by
  simp only [construct, if_neg h3.not_ge, if_pos hv]

theorem construct_of_prime (hv : (isprimeOf c.p s.env.source).1 = true) :
    construct c s = commit (s.setSource (isprimeOf c.p s.env.source).2) [c.a, c.b, c.p]
      ((s.setSource (isprimeOf c.p s.env.source).2).setCurve c) := by
  have hne : ¬ (isprimeOf c.p s.env.source).1 = false := by simp [hv]
  simp only [construct, if_neg h3.not_ge, if_neg hne]

end

/-- R196 for a curve whose integers fit: the two faults in their order, else the curve in force. -/
theorem construct_faults_or_sets_curve {s : State} (c : Curve) (hfit : ∀ v ∈ [c.a, c.b, c.p], fits s.width v = true) :
    let v := isprimeOf c.p s.env.source
    (c.p ≤ 3 → construct c s = .next (faulted 2 1 s)) ∧
    (3 < c.p → v.1 = false → construct c s = .next (faulted 2 2 (s.setSource v.2))) ∧
    (3 < c.p → v.1 = true → construct c s = .next (wroteCurve c.a c.b c.p (s.setSource v.2))) := by
  refine ⟨fun h => ?_, fun h3 hv => ?_, fun h3 hv => ?_⟩
  · exact (construct_of_le_three h).trans (raise_eq_faulted .curve 1 s)
  · exact (construct_of_composite h3 hv).trans (raise_eq_faulted .curve 2 _)
  · exact (construct_of_prime h3 hv).trans (commit_setCurve hfit)

/-! ### the commands -/

/-- Settles O26: the encoding by `decode_commandWord`, then the constructor on three register contents, which fit. -/
theorem ecsetSetsTheCurve : Obligations.EcsetSetsTheCurve := by
  intro s rs1 rs2 rs3 hs
  have hfit : ∀ v ∈ [s.getX rs1, s.getX rs2, s.getX rs3], fits s.width v = true := by simp [hs.xFits]
  exact ⟨decode_commandWord .ecset 0 (xField rs1) (xField rs2) (xField rs3) rfl,
    construct_faults_or_sets_curve ⟨s.getX rs1, s.getX rs2, s.getX rs3⟩ hfit⟩

/-- Settles O27: as for ECSET, with the constant 0 in the place of the register read for `b`. -/
theorem ecsetnbSetsTheCurve : Obligations.EcsetnbSetsTheCurve := by
  intro s rs1 rs3 hs
  have hfit : ∀ v ∈ [s.getX rs1, 0, s.getX rs3], fits s.width v = true := by simp [hs.xFits, fits_zero]
  exact ⟨decode_commandWord .ecsetnb 0 (xField rs1) 0 (xField rs3) rfl,
    construct_faults_or_sets_curve ⟨s.getX rs1, 0, s.getX rs3⟩ hfit⟩

end Sys2Proof.Machine
end

section
/-! ECONCRV (spec R201): the preamble of the EC commands (R199), and the membership test (R200) on whatever the register holds. -/

namespace Sys2Proof.Machine
open Sys2Proof.Claims

/-! ### the preamble and the membership test -/

theorem withCurve_of_no_curve {s : State} (hcv : s.cv = false) (k : Curve → Out) : withCurve s k = raise .noCurve 0 s :=
  if_neg (by simp [hcv])

theorem withCurve_of_curve {s : State} (hcv : s.cv = true) (k : Curve → Out) : withCurve s k = k s.curve := if_pos hcv

@[simp] theorem oncurve_inf (c : Curve) : oncurve c .inf = true := rfl

/-- The test of a finite point is the curve equation (R200). -/
theorem oncurve_fin_iff_satisfies (c : Curve) (x y : Int) : oncurve c (.fin x y) = true ↔ satisfies c x y := oncurve_fin_iff c x y

/-- The number of a point register is the digit of its field (R91). -/
theorem toNat_pField (r : PReg) : (pField r).toNat = r := by revert r; decide

/-! ### the command -/

section
variable {s : State} (rd : XReg) (ps1 : PReg)

theorem execEconcrv_of_no_curve (hcv : s.cv = false) : execEconcrv rd ps1 s = raise .noCurve 0 s := withCurve_of_no_curve hcv _

/-- With a curve in force ECONCRV writes the verdict of the membership test, which fits in every register (R201). -/
theorem execEconcrv_of_curve (hs : s.Inv) (hcv : s.cv = true) :
    execEconcrv rd ps1 s = .next (wroteX rd (ofVerdict (oncurve s.curve (s.getP ps1))) s) := by
  obtain ⟨hwidth, -⟩ := Params.bounds_of_wf hs.params
  have hfit : fits s.width (ofVerdict (oncurve s.curve (s.getP ps1))) = true :=
    fits_ofVerdict (le_trans (by decide : 2 ≤ 64) hwidth) _
  exact (withCurve_of_curve hcv _).trans (commitX_eq_wroteX hfit)

end

/-- Settles O29: the encoding by `decode_commandWord`, then the fault without a curve, and the verdict by the value the point register holds. -/
theorem econcrvWritesTheVerdict : Obligations.EconcrvWritesTheVerdict := by
  intro s rd ps1 hs
  have hdecode := decode_commandWord (i := .econcrv rd ps1) .econcrv (xField rd) (pField ps1) 0 0 rfl
  rw [toNat_pField] at hdecode
  have hexec {b : Bool} (hcv : s.cv = true) (hb : oncurve s.curve (s.getP ps1) = b) :
      exec (.econcrv rd ps1) s = .next (wroteX rd (ofVerdict b) s) := hb ▸ execEconcrv_of_curve rd ps1 hs hcv
  refine ⟨hdecode, fun hcv => ?_, fun hcv hP => ?_, fun x y hcv hP hon => ?_, fun x y hcv hP hoff => ?_⟩
  · exact (execEconcrv_of_no_curve rd ps1 hcv).trans (raise_eq_faulted .noCurve 0 s)
  · exact hexec hcv (hP ▸ oncurve_inf _)
  · exact hexec hcv (hP ▸ (oncurve_fin_iff_satisfies _ x y).2 hon)
  · exact hexec hcv (hP ▸ Bool.eq_false_iff.2 (mt (oncurve_fin_iff_satisfies _ x y).1 hoff))

end Sys2Proof.Machine
end

section
/-! ECADD (spec R215): the operand check (R211), the write that ends a group-law command, and the sum, which fits because it is a
point of the curve in force. -/

namespace Sys2Proof.Machine
open Sys2Proof.Claims

/-! ### the operand check -/

section
variable {c : Curve} {P : Point} (n : BitVec 8)

theorem checkPoint_of_outOfRange (hout : outOfRange c P) : checkPoint c P n = some (0x10 + n) := by
  obtain ⟨x, y, rfl, hxy⟩ := hout
  exact if_pos (Bool.eq_false_iff.2 (mt (inRange_iff c x y).1 hxy))

theorem checkPoint_of_offCurve (hin : ¬ outOfRange c P) (hoff : offCurve c P) : checkPoint c P n = some n := by
  obtain ⟨x, y, rfl, hxy⟩ := hoff
  have hrange : inRange c x y = true := (inRange_iff c x y).2 (not_not.1 fun h => hin ⟨x, y, rfl, h⟩)
  have hcurve : oncurve c (.fin x y) = false := Bool.eq_false_iff.2 (mt (oncurve_fin_iff_satisfies c x y).1 hxy)
  simp [checkPoint, hrange, hcurve]

theorem checkPoint_of_usable (h : usable c P) : checkPoint c P n = none :=
  (checkPoint_eq_none_iff c P n).2 ((usable_iff_validPoint c P).1 h)

end

/-! ### the write of a point and `FB` -/

/-- A group-law command whose point fits leaves exactly the writes of the point and `FB` (R28, R93). -/
theorem commitP_eq_wroteP {s : State} (pd : PReg) {r : Point × Bool} (hfit : ∀ v ∈ r.1.coords, fits s.width v = true) :
    commitP s pd r = .next (wroteP pd r s) := by
  have hwrote : complete { s.setP pd r.1 with fb := r.2 } = wroteP pd r s := by
    obtain ⟨R, fb⟩ := r
    cases R <;> rfl
  exact (commit_of_fits s hfit).trans (congrArg _ hwrote)

theorem State.Inv.modulus_pos {s : State} (hs : s.Inv) (hcv : s.cv = true) : 0 < s.curve.p :=
  lt_trans (by decide) (hs.curveValid hcv).1

/-- Points of the curve in force fit, so a command that answers one does not overflow (R22, R210). -/
theorem commitP_of_validPoint {s : State} (hs : s.Inv) (pd : PReg) {r : Point × Bool} (hvalid : validPoint s.curve r.1 = true) :
    commitP s pd r = .next (wroteP pd r s) :=
  commitP_eq_wroteP pd (fits_coords hs.curveFits.2.2 hvalid)

/-! ### the command -/

section
variable {s : State} {ps1 ps2 : PReg} (pd : PReg)

theorem execEcadd_of_no_curve (hcv : s.cv = false) : execEcadd pd ps1 ps2 s = raise .noCurve 0 s := withCurve_of_no_curve hcv _

variable (hcv : s.cv = true)
include hcv

theorem execEcadd_of_bad_first {sub : BitVec 8} (hP : checkPoint s.curve (s.getP ps1) 1 = some sub) :
    execEcadd pd ps1 ps2 s = raise .point sub s := by
  simp only [execEcadd, withCurve_of_curve hcv, hP]

theorem execEcadd_of_bad_second {sub : BitVec 8} (hP : checkPoint s.curve (s.getP ps1) 1 = none)
    (hQ : checkPoint s.curve (s.getP ps2) 2 = some sub) : execEcadd pd ps1 ps2 s = raise .point sub s := by
  simp only [execEcadd, withCurve_of_curve hcv, hP, hQ]

theorem execEcadd_of_checked (hP : checkPoint s.curve (s.getP ps1) 1 = none) (hQ : checkPoint s.curve (s.getP ps2) 2 = none) :
    execEcadd pd ps1 ps2 s = commitP s pd (ecAdd s.curve (s.getP ps1) (s.getP ps2)) := by
  simp only [execEcadd, withCurve_of_curve hcv, hP, hQ]

end

/-- Settles O33: the encoding by `decode_commandWord`, then the faults in the order of the checks, and the sum, a point of the curve by
`ecAdd_valid`. -/
theorem ecaddWritesTheSum : Obligations.EcaddWritesTheSum := by
  intro s pd ps1 ps2 hs P Q c
  have hdecode := decode_commandWord (i := .ecadd pd ps1 ps2) .ecadd (pField pd) (pField ps1) (pField ps2) 0 rfl
  simp only [toNat_pField] at hdecode
  refine ⟨hdecode, fun hcv => ?_, fun hcv hout => ?_, fun hcv hin hoff => ?_, fun hcv hP hout => ?_, fun hcv hP hin hoff => ?_,
    fun hcv hP hQ => ?_⟩
  · exact (execEcadd_of_no_curve pd hcv).trans (raise_eq_faulted .noCurve 0 s)
  · exact (execEcadd_of_bad_first pd hcv (checkPoint_of_outOfRange 1 hout)).trans (raise_eq_faulted .point 0x11 s)
  · exact (execEcadd_of_bad_first pd hcv (checkPoint_of_offCurve 1 hin hoff)).trans (raise_eq_faulted .point 1 s)
  · exact (execEcadd_of_bad_second pd hcv (checkPoint_of_usable 1 hP) (checkPoint_of_outOfRange 2 hout)).trans
      (raise_eq_faulted .point 0x12 s)
  · exact (execEcadd_of_bad_second pd hcv (checkPoint_of_usable 1 hP) (checkPoint_of_offCurve 2 hin hoff)).trans
      (raise_eq_faulted .point 2 s)
  · have hsum : validPoint c (ecAdd c P Q).1 = true :=
      ecAdd_valid (hs.modulus_pos hcv) ((usable_iff_validPoint c P).1 hP) ((usable_iff_validPoint c Q).1 hQ)
    exact (execEcadd_of_checked pd hcv (checkPoint_of_usable 1 hP) (checkPoint_of_usable 2 hQ)).trans
      (commitP_of_validPoint hs pd hsum)

end Sys2Proof.Machine
end

section
/-! Scalar multiplication (spec R222) and its command ECSMUL (R223). The loop reads the scalar from the top, so the scalar with one more bit
at the bottom takes the same turns and then one more. -/

namespace Sys2Proof.Machine
open Sys2Proof.Claims

/-! ### the bits of a scalar with one more bit -/

theorem one_le_bitlen {k : Int} (hk : 1 ≤ k) : 1 ≤ bitlen k := by
  by_contra hzero
  have hlt : k < 2 ^ 0 := bitlen_le_iff.1 (by omega)
  exact hlt.not_ge hk

section
variable {k b : Int} (hb0 : 0 ≤ b) (hb2 : b < 2)
include hb0 hb2

theorem ibit_two_mul_add_zero : ibit (2 * k + b) 0 = b := by
  simp only [ibit, imod, idiv, pow_zero]
  omega

theorem ibit_two_mul_add_succ (i : Nat) : ibit (2 * k + b) (i + 1) = ibit k i := by
  have hhalf : (2 * k + b) / 2 = k := by omega
  simp only [ibit, idiv, pow_succ', ← Int.ediv_ediv_of_nonneg zero_le_two, hhalf]

theorem bitlen_two_mul_add (hk : 1 ≤ k) : bitlen (2 * k + b) = bitlen k + 1 := by
  obtain ⟨n, hn⟩ := Nat.exists_eq_add_of_le' (one_le_bitlen hk)
  obtain ⟨hlo, hhi⟩ := (bitlen_eq_iff (by omega)).1 hn
  rw [hn, bitlen_eq_iff (by omega)]
  simp only [Nat.add_sub_cancel, pow_succ] at hlo hhi ⊢
  omega

end

/-! ### the loop -/

section
variable (c : Curve) (G : Point) {k b : Int} (hb0 : 0 ≤ b) (hb2 : b < 2)
include hb0 hb2

/-- The loop on one more bit is the loop and then the turn of that bit. -/
theorem smulLoop_two_mul_add (n : Nat) (r : Point × Bool) :
    smulLoop c G (2 * k + b) (n + 1) r = smulTurn c G b (smulLoop c G k n r) := by
  induction n generalizing r with
  | zero => simp only [smulLoop, ibit_two_mul_add_zero hb0 hb2]
  | succ n ih => rw [smulLoop, ibit_two_mul_add_succ hb0 hb2, ih, smulLoop]

/-- The multiple by a scalar with one more bit is one more turn (R222). -/
theorem ecSmul_two_mul_add (hk : 1 ≤ k) : ecSmul c (2 * k + b) G = smulTurn c G b (ecSmul c k G) := by
  have hturns : bitlen (2 * k + b) - 1 = bitlen k - 1 + 1 := by
    rw [bitlen_two_mul_add hb0 hb2 hk, Nat.add_sub_cancel, Nat.sub_add_cancel (one_le_bitlen hk)]
  rw [ecSmul, ecSmul, if_neg (by omega), if_neg (by omega), hturns]
  exact smulLoop_two_mul_add c G hb0 hb2 _ _

end

/-- Settles O36: the loop takes no turn at 0 and at 1; a doubled scalar is one more turn by `ecSmul_two_mul_add`, with the bit 0 or 1. -/
theorem scalarMultipleDoublesAndAdds : Obligations.ScalarMultipleDoublesAndAdds := by
  intro c G
  refine ⟨rfl, rfl, fun k hk => ⟨?_, ?_⟩⟩
  · rw [← add_zero (2 * k)]
    exact ecSmul_two_mul_add c G le_rfl two_pos hk
  · exact ecSmul_two_mul_add c G zero_le_one one_lt_two hk

/-! ### the command -/

section
variable {s : State} {rs1 : XReg} {ps2 : PReg} (pd : PReg)

theorem execEcsmul_of_no_curve (hcv : s.cv = false) : execEcsmul pd rs1 ps2 s = raise .noCurve 0 s := withCurve_of_no_curve hcv _

variable (hcv : s.cv = true)
include hcv

theorem execEcsmul_of_neg (hk : s.getX rs1 < 0) : execEcsmul pd rs1 ps2 s = raise .param 7 s := by
  simp only [execEcsmul, withCurve_of_curve hcv, if_pos hk]

variable (hk : 0 ≤ s.getX rs1)
include hk

theorem execEcsmul_of_bad_point {sub : BitVec 8} (hG : checkPoint s.curve (s.getP ps2) 2 = some sub) :
    execEcsmul pd rs1 ps2 s = raise .point sub s := by
  simp only [execEcsmul, withCurve_of_curve hcv, if_neg hk.not_gt, hG]

theorem execEcsmul_of_checked (hG : checkPoint s.curve (s.getP ps2) 2 = none) :
    execEcsmul pd rs1 ps2 s = commitP s pd (ecSmul s.curve (s.getX rs1) (s.getP ps2)) := by
  simp only [execEcsmul, withCurve_of_curve hcv, if_neg hk.not_gt, hG]

end

/-- Settles O37: the encoding by `decode_commandWord`, then the faults in the order of the checks, and the multiple, a point of the curve by
`ecSmul_valid`. -/
theorem ecsmulWritesTheMultiple : Obligations.EcsmulWritesTheMultiple := by
  intro s pd rs1 ps2 hs k G c
  have hdecode := decode_commandWord (i := .ecsmul pd rs1 ps2) .ecsmul (pField pd) (xField rs1) (pField ps2) 0 rfl
  simp only [toNat_pField] at hdecode
  refine ⟨hdecode, fun hcv => ?_, fun hcv hk => ?_, fun hcv hk hout => ?_, fun hcv hk hin hoff => ?_, fun hcv hk hG => ?_⟩
  · exact (execEcsmul_of_no_curve pd hcv).trans (raise_eq_faulted .noCurve 0 s)
  · exact (execEcsmul_of_neg pd hcv hk).trans (raise_eq_faulted .param 7 s)
  · exact (execEcsmul_of_bad_point pd hcv hk (checkPoint_of_outOfRange 2 hout)).trans (raise_eq_faulted .point 0x12 s)
  · exact (execEcsmul_of_bad_point pd hcv hk (checkPoint_of_offCurve 2 hin hoff)).trans (raise_eq_faulted .point 2 s)
  · have hmultiple : validPoint c (ecSmul c k G).1 = true :=
      ecSmul_valid (hs.modulus_pos hcv) k ((usable_iff_validPoint c G).1 hG)
    exact (execEcsmul_of_checked pd hcv hk (checkPoint_of_usable 2 hG)).trans (commitP_of_validPoint hs pd hmultiple)

end Sys2Proof.Machine
end

section
/-! The enumeration (spec R237): what one `x` appends, and the list against the curve equation, over any modulus above 1 and over an odd
prime. -/

namespace Sys2Proof.Machine
open Sys2Proof.Claims

/-! ### the least root -/

theorem eq_of_isLeastRoot {p r y z : Int} (hy : isLeastRoot p r y) (hz : isLeastRoot p r z) : y = z := by
  obtain ⟨hy1, -, hyr, hymin⟩ := hy
  obtain ⟨hz1, -, hzr, hzmin⟩ := hz
  rcases lt_trichotomy y z with hlt | heq | hgt
  · exact absurd hyr (hzmin y hy1 hlt)
  · exact heq
  · exact absurd hzr (hymin z hz1 hgt)

/-- Everything the search over `1 .. p − 1` can answer (R237): `leastRoot_spec` in the words of the statements. -/
theorem leastRoot_cases {p : Int} (hp : 1 < p) (r : Int) :
    (∃ y, isLeastRoot p r y ∧ leastRoot p r (p - 1).toNat 1 = some y) ∨
      (∀ y, 1 ≤ y → y < p → y * y % p ≠ r) ∧ leastRoot p r (p - 1).toNat 1 = none := by
  have hend : (1 : Int) + (p - 1).toNat = p := by omega
  have hspec := leastRoot_spec p r (p - 1).toNat 1
  rw [hend] at hspec
  rcases hspec with ⟨y, hsome, h1, hlt, hroot, hmin⟩ | ⟨hnone, hno⟩
  · exact .inl ⟨y, ⟨h1, hlt, hroot, hmin⟩, hsome⟩
  · exact .inr ⟨hno, hnone⟩

/-- A root mirrored at the modulus is a root. -/
theorem mirror_mul_self_emod (p y : Int) : (p - y) * (p - y) % p = y * y % p := by
  have hexpand : (p - y) * (p - y) = y * y + p * (p - 2 * y) := by ring
  rw [hexpand, Int.add_mul_emod_self_left]

/-- Over an odd modulus the least root is below its mirror image: the image is a root, so not smaller, and not equal by parity. -/
theorem lt_mirror_of_isLeastRoot {p r y : Int} (hodd : p % 2 = 1) (hy : isLeastRoot p r y) : y < p - y := by
  obtain ⟨-, hlt, hroot, hmin⟩ := hy
  have hnot : ¬ p - y < y := fun h => hmin (p - y) (by omega) h ((mirror_mul_self_emod p y).trans hroot)
  omega

/-! ### what one `x` appends -/

/-- The right-hand side of the curve equation at `x` (R200). -/
def rhsAt (c : Curve) (x : Int) : Int := (x * x * x + c.a * x + c.b) % c.p

theorem satisfies_iff_rhsAt (c : Curve) (x y : Int) : satisfies c x y ↔ y * y % c.p = rhsAt c x := Iff.rfl

theorem pointsAt_of_rhs_zero {c : Curve} {x : Int} (hr : rhsAt c x = 0) : pointsAt c x = [(x, 0)] := if_pos hr

section
variable {c : Curve} (hp : 1 < c.p) {x : Int} (hr : rhsAt c x ≠ 0)
include hp hr

theorem pointsAt_of_isLeastRoot {y : Int} (hy : isLeastRoot c.p (rhsAt c x) y) :
    pointsAt c x = [(x, y), (x, c.p - y)] := by
  rcases leastRoot_cases hp (rhsAt c x) with ⟨z, hz, hsome⟩ | ⟨hno, -⟩
  · obtain rfl := eq_of_isLeastRoot hy hz
    rw [rhsAt] at hr hsome
    simp only [pointsAt, if_neg hr, hsome]
  · obtain ⟨h1, hlt, hroot, -⟩ := hy
    exact absurd hroot (hno y h1 hlt)

theorem pointsAt_of_no_root (hno : ∀ y, 1 ≤ y → y < c.p → y * y % c.p ≠ rhsAt c x) : pointsAt c x = [] := by
  rcases leastRoot_cases hp (rhsAt c x) with ⟨y, ⟨h1, hlt, hroot, -⟩, -⟩ | ⟨-, hnone⟩
  · exact absurd hroot (hno y h1 hlt)
  · rw [rhsAt] at hr hnone
    simp only [pointsAt, if_neg hr, hnone]

end

/-- The three cases of R237 leave no other. -/
theorem pointsAt_cases {c : Curve} (hp : 1 < c.p) (x : Int) :
    (rhsAt c x = 0 ∧ pointsAt c x = [(x, 0)]) ∨
    (∃ y, isLeastRoot c.p (rhsAt c x) y ∧ pointsAt c x = [(x, y), (x, c.p - y)]) ∨
    (rhsAt c x ≠ 0 ∧ (∀ y, 1 ≤ y → y < c.p → y * y % c.p ≠ rhsAt c x) ∧ pointsAt c x = []) := by
  by_cases hr : rhsAt c x = 0
  · exact .inl ⟨hr, pointsAt_of_rhs_zero hr⟩
  · rcases leastRoot_cases hp (rhsAt c x) with ⟨y, hy, -⟩ | ⟨hno, -⟩
    · exact .inr (.inl ⟨y, hy, pointsAt_of_isLeastRoot hp hr hy⟩)
    · exact .inr (.inr ⟨hr, hno, pointsAt_of_no_root hp hr hno⟩)

/-! ### square roots modulo a prime -/

/-- Two residues are equal when the modulus divides their difference. -/
theorem eq_of_dvd_sub {p y z : Int} (hy0 : 0 ≤ y) (hy : y < p) (hz0 : 0 ≤ z) (hz : z < p) (h : p ∣ y - z) : y = z := by
  have hmod : y % p = z % p := Int.emod_eq_emod_iff_emod_sub_eq_zero.2 (Int.emod_eq_zero_of_dvd h)
  rwa [Int.emod_eq_of_lt hy0 hy, Int.emod_eq_of_lt hz0 hz] at hmod

section
variable {p : Int} (hp : Prime p) {y : Int} (hy0 : 0 ≤ y) (hy : y < p)
include hp hy0 hy

theorem eq_zero_of_mul_self_emod (h : y * y % p = 0) : y = 0 := by
  have hdvd : p ∣ y := or_self_iff.1 (hp.dvd_or_dvd (Int.dvd_of_emod_eq_zero h))
  exact Int.eq_zero_of_dvd_of_nonneg_of_lt hy0 hy hdvd

/-- Modulo a prime a square has no roots but one root and its mirror image. -/
theorem eq_or_eq_mirror_of_mul_self_emod {z : Int} (hz1 : 1 ≤ z) (hz : z < p) (h : y * y % p = z * z % p) :
    y = z ∨ y = p - z := by
  have hdvd : p ∣ (y - z) * (y + z) := by
    have := Int.dvd_of_emod_eq_zero (Int.emod_eq_emod_iff_emod_sub_eq_zero.1 h)
    rwa [mul_self_sub_mul_self, mul_comm] at this
  rcases hp.dvd_or_dvd hdvd with hsub | hadd
  · exact .inl (eq_of_dvd_sub hy0 hy (by omega) hz hsub)
  · have hmirror : p ∣ y - (p - z) := by
      have := hadd.sub dvd_rfl
      rwa [← sub_sub_eq_add_sub] at this
    exact .inr (eq_of_dvd_sub hy0 hy (by omega) (by omega) hmirror)

end

/-! ### the list -/

theorem mem_ecPoints_iff {c : Curve} (hp : 1 < c.p) (x y : Int) :
    (x, y) ∈ ecPoints c ↔ (0 ≤ x ∧ x < c.p) ∧ (x, y) ∈ pointsAt c x := by
  rw [ecPoints, List.mem_flatMap]
  constructor
  · rintro ⟨n, hn, hmem⟩
    rw [List.mem_range] at hn
    have hlt : (n : Int) < c.p := by omega
    obtain rfl : x = n := ((pointsAt_spec hp n.cast_nonneg hlt).2 _ hmem).1
    exact ⟨⟨n.cast_nonneg, hlt⟩, hmem⟩
  · rintro ⟨⟨h0, hlt⟩, hmem⟩
    lift x to Nat using h0
    exact ⟨x, List.mem_range.2 (by omega), hmem⟩

/-- Modulo a prime the points appended for `x` are all the canonical points of the curve with that `x` (R237). -/
theorem mem_pointsAt_iff_of_prime {c : Curve} (hprime : Prime c.p) (hp : 1 < c.p) {x : Int} (h0 : 0 ≤ x) (hx : x < c.p) (y : Int) :
    (x, y) ∈ pointsAt c x ↔ 0 ≤ y ∧ y < c.p ∧ satisfies c x y := by
  constructor
  · intro hmem
    have hvalid := ((pointsAt_spec hp h0 hx).2 _ hmem).2
    rw [validPoint, Bool.and_eq_true, inRange_iff, oncurve_fin_iff_satisfies] at hvalid
    obtain ⟨⟨-, -, hy0, hy⟩, hon⟩ := hvalid
    exact ⟨hy0, hy, hon⟩
  · rintro ⟨hy0, hy, hon⟩
    rw [satisfies_iff_rhsAt] at hon
    rcases pointsAt_cases hp x with ⟨hr, hlist⟩ | ⟨z, ⟨hz1, hz, hroot, -⟩, hlist⟩ | ⟨hr, hno, -⟩
    · rw [hlist, eq_zero_of_mul_self_emod hprime hy0 hy (hon.trans hr)]
      exact List.mem_singleton_self _
    · rw [hlist]
      rcases eq_or_eq_mirror_of_mul_self_emod hprime hy0 hy hz1 hz (hon.trans hroot.symm) with rfl | rfl <;> simp
    · have hpos : y ≠ 0 := fun h => hr (by rw [← hon, h]; simp)
      exact absurd hon (hno y (by omega) hy)

/-- The order of the list (R237): `x` ascending, and within one `x` the smaller `y` first. -/
def listedBefore (e f : Entry) : Prop := e.1 < f.1 ∨ (e.1 = f.1 ∧ e.2 < f.2)

theorem pointsAt_pairwise {c : Curve} (hp : 1 < c.p) (hodd : c.p % 2 = 1) (x : Int) :
    (pointsAt c x).Pairwise listedBefore := by
  rcases pointsAt_cases hp x with ⟨-, hlist⟩ | ⟨y, hy, hlist⟩ | ⟨-, -, hlist⟩ <;> rw [hlist]
  · exact List.pairwise_singleton _ _
  · exact List.pairwise_pair.2 (.inr ⟨rfl, lt_mirror_of_isLeastRoot hodd hy⟩)
  · exact List.Pairwise.nil

theorem ecPoints_pairwise {c : Curve} (hp : 1 < c.p) (hodd : c.p % 2 = 1) : (ecPoints c).Pairwise listedBefore := by
  have hx : ∀ n ∈ List.range c.p.toNat, ∀ e ∈ pointsAt c n, e.1 = (n : Int) := fun n hn e he => by
    rw [List.mem_range] at hn
    exact ((pointsAt_spec hp n.cast_nonneg (by omega)).2 e he).1
  refine List.pairwise_flatMap.2 ⟨fun n _ => pointsAt_pairwise hp hodd n, ?_⟩
  refine List.pairwise_lt_range.imp_of_mem fun {m n} hm hn hlt e he f hf => .inl ?_
  rw [hx m hm e he, hx n hn f hf]
  exact_mod_cast hlt

/-- Settles O39: the cases of R237 by the lemmas on `pointsAt`; over an odd prime, membership by the two square roots of a residue, and the
order by the parity of the modulus. -/
theorem enumerationIsTheCurve : Obligations.EnumerationIsTheCurve := by
  intro c hp
  refine ⟨⟨pointsAt c, rfl, fun x _ _ => ?_⟩, fun n hn h2 hcp => ⟨fun x y => ?_, ?_⟩⟩
  · exact ⟨pointsAt_of_rhs_zero, fun hr _ hy => pointsAt_of_isLeastRoot hp hr hy, pointsAt_of_no_root hp⟩
  · have hprime : Prime c.p := hcp ▸ Nat.prime_iff_prime_int.1 hn
    constructor
    · intro hmem
      obtain ⟨⟨h0, hx⟩, hmem⟩ := (mem_ecPoints_iff hp x y).1 hmem
      exact ⟨h0, hx, (mem_pointsAt_iff_of_prime hprime hp h0 hx y).1 hmem⟩
    · rintro ⟨h0, hx, hy⟩
      exact (mem_ecPoints_iff hp x y).2 ⟨⟨h0, hx⟩, (mem_pointsAt_iff_of_prime hprime hp h0 hx y).2 hy⟩
  · have hodd : n % 2 = 1 := hn.eq_two_or_odd.resolve_left h2.ne'
    exact ecPoints_pairwise hp (by omega)

end Sys2Proof.Machine
end

section
/-! ECENUM (spec R236): its faults, and the list in the first entries of `EBUF`; its length fits, as `ENUM_MAX_P < 2^32`. -/

namespace Sys2Proof.Machine
open Sys2Proof.Claims

/-- A list written from the first entry on: the list, and every later entry as before (R236). -/
theorem Memory.read_writeList_zero {m : Memory} (hm : m.wf = true) (l : List Entry) (j : Nat) :
    Memory.read (Memory.writeList m 0 l) j = if h : j < l.length then l[j] else m.read j := by
  rw [Memory.read_writeList hm, if_pos j.zero_le, Nat.sub_zero]
  split
  · next h => exact List.getD_eq_getElem l _ h
  · next h => exact List.getD_eq_default l _ (not_lt.1 h)

section
variable {s : State} (rd : XReg)

theorem execEcenum_of_absent (hno : s.env.params.hasEnum = false) : execEcenum rd s = raise .illegal 0 s := if_pos hno

variable (henum : s.env.params.hasEnum = true)
include henum

theorem execEcenum_of_no_curve (hcv : s.cv = false) : execEcenum rd s = raise .noCurve 0 s := by
  rw [execEcenum, if_neg (by simp [henum]), withCurve_of_no_curve hcv]

variable (hcv : s.cv = true)
include hcv

theorem execEcenum_of_large_modulus (hmax : (s.env.params.enumMaxP : Int) < s.cp) : execEcenum rd s = raise .param 8 s := by
  rw [execEcenum, if_neg (by simp [henum]), withCurve_of_curve hcv]
  exact if_pos hmax

theorem execEcenum_of_small_modulus (hmax : s.cp ≤ (s.env.params.enumMaxP : Int)) :
    execEcenum rd s = commit s [((ecPoints s.curve).length : Int)]
      { s.setX rd ((ecPoints s.curve).length : Int) with
        ebuf := Memory.writeList s.ebuf 0 (ecPoints s.curve), ecnt := BitVec.ofNat 64 (ecPoints s.curve).length } := by
  rw [execEcenum, if_neg (by simp [henum]), withCurve_of_curve hcv]
  exact if_neg hmax.not_gt

end

/-- The list fits in `EBUF` (R49). -/
theorem State.Inv.length_ecPoints_le {s : State} (hs : s.Inv) (hcv : s.cv = true) (hmax : s.cp ≤ (s.env.params.enumMaxP : Int)) :
    (ecPoints s.curve).length ≤ s.env.params.ebufDepth := by
  have hp : 1 < s.curve.p := lt_trans (by decide) (hs.curveValid hcv).1
  have hlen : ((ecPoints s.curve).length : Int) ≤ 2 * s.cp := (ecPoints_spec hp).1
  unfold Params.ebufDepth
  omega

/-- A number of entries fits in every register (R7). -/
theorem State.Inv.fits_of_le_ebufDepth {s : State} (hs : s.Inv) {n : Nat} (hn : n ≤ s.env.params.ebufDepth) :
    fits s.width (n : Int) = true := by
  obtain ⟨hwidth, -, -, -, hmax⟩ := Params.bounds_of_wf hs.params
  have hlt : n < 2 ^ 33 := by
    unfold Params.ebufDepth at hn
    omega
  exact fits_of_lt_pow (k := 33) (le_trans (by decide) hwidth) n.cast_nonneg (by exact_mod_cast hlt)

/-- Settles O38: the encoding by `decode_commandWord`, then the faults in the order of the checks, and the list, whose length fits because
it is at most `EBUF_DEPTH`. -/
theorem ecenumFillsTheBuffer : Obligations.EcenumFillsTheBuffer := by
  intro s rd hs l
  refine ⟨decode_commandWord .ecenum (xField rd) 0 0 0 rfl, fun hno => ?_, fun henum hcv => ?_, fun henum hcv hmax => ?_,
    fun henum hcv hmax => ?_⟩
  · exact (execEcenum_of_absent rd hno).trans (raise_eq_faulted .illegal 0 s)
  · exact (execEcenum_of_no_curve rd henum hcv).trans (raise_eq_faulted .noCurve 0 s)
  · exact (execEcenum_of_large_modulus rd henum hcv hmax).trans (raise_eq_faulted .param 8 s)
  · have hlen : l.length ≤ s.env.params.ebufDepth := hs.length_ecPoints_le hcv hmax
    have hfit : ∀ v ∈ [(l.length : Int)], fits s.width v = true := by simp [hs.fits_of_le_ebufDepth hlen]
    exact ⟨hlen, Memory.writeList s.ebuf 0 l, Memory.wf_writeList hs.ebufWf 0 l, Memory.read_writeList_zero hs.ebufWf l,
      (execEcenum_of_small_modulus rd henum hcv hmax).trans (commit_of_fits s hfit)⟩

end Sys2Proof.Machine
end

section
/-! The step of the machine by what stands at its port (spec R75, R295, R296): the engine's step with an empty port and at an `engineTurn`, and
the host's accesses inside the window. -/

namespace Sys2Proof.Machine
open Sys2Proof.Claims

/-! ### the engine's step -/

/-- While idle the engine changes nothing on its own (R265). -/
theorem engineStep_of_idle {s : State} (hb : s.busy = false) : engineStep s = .next s := by
  rw [engineStep, if_neg (by simp [hb])]

/-- Settles O6: `engineStep_of_decode_some`, with an empty port and at an `engineTurn`. -/
theorem stepRunsTheDecodedCommand : Obligations.StepRunsTheDecodedCommand := by
  intro s i hb hi _
  refine ⟨fun hport => ?_, fun rest hport => ?_⟩
  · rw [step_of_port_nil hport, engineStep_of_decode_some hb hi]
  · rw [step_of_engineTurn hport]
    exact engineStep_of_decode_some (s := s.setPort rest) hb hi

/-- Settles O7: `engineStep_of_idle`, with an empty port and at an `engineTurn`. -/
theorem idleEngineChangesNothing : Obligations.IdleEngineChangesNothing := by
  intro s hb
  refine ⟨fun hport => ?_, fun rest hport => ?_⟩
  · rw [step_of_port_nil hport, engineStep_of_idle hb]
  · rw [step_of_engineTurn hport]
    exact engineStep_of_idle (s := s.setPort rest) hb

theorem engineStep_hasNext (s : State) : HasNext (engineStep s) := by
  unfold engineStep
  refine .ite ?_ ⟨s, rfl⟩
  split
  · exact .raise _ _ _
  · exact exec_hasNext _ s

/-- No port event stops the machine. -/
theorem portEvent_hasNext (e : PortEvent) (s : State) : HasNext (portEvent e s) := by
  cases e with
  | read addr size => exact ⟨_, rfl⟩
  | write addr size v => exact ⟨_, rfl⟩
  | reset => exact ⟨_, rfl⟩
  | engineTurn => exact engineStep_hasNext s

/-- Settles O10: the engine's step and every port event have a next state. -/
theorem everyStepHasNextState : Obligations.EveryStepHasNextState := by
  intro s
  change HasNext (step s)
  unfold step transition
  split
  · exact engineStep_hasNext s
  · exact portEvent_hasNext _ _

/-! ### the host's accesses -/

theorem step_of_read {s : State} {addr size : Nat} {l : List PortEvent} (h : s.env.port = .read addr size :: l) :
    step s = .next (hostRead (s.setPort l) addr size) := by
  unfold step transition
  rw [h]
  rfl

theorem step_of_write {s : State} {addr size : Nat} {v : Word} {l : List PortEvent} (h : s.env.port = .write addr size v :: l) :
    step s = .next (hostWrite (s.setPort l) addr size v) := by
  unfold step transition
  rw [h]
  rfl

theorem busOffset_base_add (p : Params) {off : Nat} (h : off < windowBytes) : busOffset p (p.nteBase + off) = some off := by
  rw [busOffset, if_pos (by omega), Nat.add_sub_cancel_left]

/-- An address that has an offset lies at that offset of the window (R60). -/
theorem eq_base_add_of_busOffset {p : Params} {addr off : Nat} (h : busOffset p addr = some off) : addr = p.nteBase + off := by
  obtain ⟨hin, hoff⟩ := Option.ite_none_right_eq_some.1 h
  obtain rfl := Option.some.inj hoff
  omega

section
variable {s : State} {off size : Nat} (hoff : off < windowBytes)
include hoff

/-- A read inside the window answers what `MemRead` says (R73). -/
theorem hostRead_of_lt : hostRead s (s.env.params.nteBase + off) size =
    s.respond (some (match memRead s off size with | some d => .data d | none => .busError)) := by
  rw [hostRead, busOffset_base_add _ hoff]
  cases hd : memRead s off size <;> simp only [hd]

/-- A write inside the window that is refused (R63). -/
theorem hostWrite_of_refused {v : Word} (h : memWrite s off size v = none) :
    hostWrite s (s.env.params.nteBase + off) size v = s.respond (some .busError) := by
  rw [hostWrite, busOffset_base_add _ hoff]
  simp only [h]

/-- A write inside the window that is accepted makes the state `MemWrite` says (R295 (b)). -/
theorem hostWrite_of_accepted {t : State} {v : Word} (h : memWrite s off size v = some t) :
    hostWrite s (s.env.params.nteBase + off) size v = t.respond (some .done) := by
  rw [hostWrite, busOffset_base_add _ hoff]
  simp only [h]

end

/-- Settles O60: an access of the window is what `memRead` and `memWrite` say, which do not see what still waits at the port
(`memRead_setPort`, `memWrite_setPort`). -/
theorem refusedAccessChangesNothing : Obligations.RefusedAccessChangesNothing := by
  intro s off size v rest hoff
  refine ⟨fun hport => ?_, fun hport => ⟨fun hnone => ?_, fun t ht => ?_⟩⟩
  · rw [step_of_read hport]
    exact congrArg _ (hostRead_of_lt (s := s.setPort rest) hoff)
  · have hmem : memWrite (s.setPort rest) off size v = none := by rw [memWrite_setPort, hnone]; rfl
    rw [step_of_write hport]
    exact congrArg _ (hostWrite_of_refused hoff hmem)
  · have hmem : memWrite (s.setPort rest) off size v = some (t.setPort rest) := by rw [memWrite_setPort, ht]; rfl
    rw [step_of_write hport]
    exact congrArg _ (hostWrite_of_accepted hoff hmem)

/-- Settles O8: the `CMD` write is accepted (`cmdWriteIsAcceptedWhenIdle`), and the engine's step then runs the command whose word `IR`
holds (`decode_encode`). -/
theorem commandIsTwoTransitions : Obligations.CommandIsTwoTransitions := by
  rintro s t i - hb hf hport rfl
  refine ⟨?_, ?_⟩
  · have hmem := (cmdWriteIsAcceptedWhenIdle (s.setPort []) (encode i)).1 hb hf
    rw [step_of_write hport]
    exact congrArg _ (hostWrite_of_accepted (by decide : 0x010 < windowBytes) hmem)
  · rw [step_of_port_nil rfl]
    exact engineStep_of_decode_some rfl (decode_encode i)

end Sys2Proof.Machine
end

section
/-! The writes the window accepts (spec R64, R65, R68, R254), and what a write and a read can do while a fault is pending (R255) or a command is
in flight (R264). -/

namespace Sys2Proof.Machine

/-- Settles O50: the offset `0x018` is `STATUS`, whose write is `writeStatus`. -/
theorem statusWriteClearsTheFault : Obligations.StatusWriteClearsTheFault := by
  intro s v
  rw [memWrite_ctl (r := .status) rfl]
  exact ⟨fun hv hf => congrArg some (writeStatus_of_clear hv hf), fun h => congrArg some (writeStatus_of_keep h)⟩

/-! ### the accepted writes -/

/-- The offset of a control register (R64). -/
def CtlReg.offset : CtlReg → Nat
  | .id => 0x000
  | .param0 => 0x008
  | .cmd => 0x010
  | .status => 0x018
  | .ie => 0x020
  | .finfo => 0x028
  | .param1 => 0x030
  | .param2 => 0x038
  | .param3 => 0x040
  | .param4 => 0x048
  | .esel => 0x050
  | .ecnt => 0x058
  | .ptag i => 0x080 + 8 * i.val

theorem ctlAt_eq_some_iff (off : Nat) (r : CtlReg) : ctlAt off = some r ↔ off = r.offset := by
  constructor
  · intro h
    unfold ctlAt at h
    split at h <;> cases h <;> rfl
  · rintro rfl
    cases r with
    | ptag i => exact ctlAt_ptag i
    | _ => rfl

/-- The slot of a wide register (R65). -/
def WideReg.slot : WideReg → Nat
  | .x i => i.val
  | .ca => 16
  | .cb => 17
  | .cp => 18
  | .px i => 32 + 2 * i.val
  | .py i => 33 + 2 * i.val
  | .ex => 48
  | .ey => 49

theorem wideAt_eq_some_iff (slot : Nat) (r : WideReg) : wideAt slot = some r ↔ slot = r.slot := by
  constructor
  · intro h
    unfold wideAt at h
    split at h
    · cases h; rfl
    · split at h <;> cases h <;> rfl
  · rintro rfl
    cases r with
    | x i => exact wideAt_x i
    | px i => exact wideAt_px i
    | py i => exact wideAt_py i
    | _ => rfl

/-- An accepted write is one of a control register, or of a limb that exists (R62, R64, R65, R70, R71). -/
theorem memWrite_eq_some_iff {s : State} (hp : s.env.params.wf = true) (t : State) (off size : Nat) (v : Word) :
    memWrite s off size v = some t ↔ size = 8 ∧ ((∃ r : CtlReg, off = r.offset ∧ ctlWrite s v r = some t) ∨
      ∃ (r : WideReg) (j : Nat), off = 0x10000 + r.slot * 0x1000 + 8 * j ∧ j < s.env.params.limbs ∧ wideWrite s j v r = some t) := by
  constructor
  · intro h
    obtain ⟨loc, hloc, h⟩ := Option.bind_eq_some_iff.1 h
    obtain ⟨hsize, ⟨r, hr, rfl⟩ | ⟨slot, r, j, hr, hj, hoff, rfl⟩⟩ := locate_cases hloc
    · exact ⟨hsize, .inl ⟨r, (ctlAt_eq_some_iff off r).1 hr, h⟩⟩
    · exact ⟨hsize, .inr ⟨r, j, (wideAt_eq_some_iff slot r).1 hr ▸ hoff, hj, h⟩⟩
  · rintro ⟨rfl, ⟨r, hoff, h⟩ | ⟨r, j, hoff, hj, h⟩⟩
    · rwa [memWrite_ctl ((ctlAt_eq_some_iff off r).2 hoff)]
    · rwa [memWrite_limb hp ((wideAt_eq_some_iff _ r).2 rfl) hj hoff]

theorem accept_eq_some_iff (w : Word) (s t : State) :
    accept w s = some t ↔ s.busy = false ∧ s.fault = false ∧ t = { s with ir := w, busy := true, done := false } := by
  refine ⟨accept_eq_some s, ?_⟩
  rintro ⟨hb, hf, rfl⟩
  exact accept_of_idle hb hf w

/-- The control registers a host can write, and what the write makes (R47, R64, R68, R92, R254). -/
theorem exists_ctlWrite_iff (s t : State) (off : Nat) (v : Word) :
    (∃ r : CtlReg, off = r.offset ∧ ctlWrite s v r = some t) ↔
      (off = 0x010 ∧ s.busy = false ∧ s.fault = false ∧ t = { s with ir := v, busy := true, done := false }) ∨
      (off = 0x018 ∧ t = writeStatus v s) ∨ (off = 0x020 ∧ t = writeIe v s) ∨
      (off = 0x050 ∧ s.busy = false ∧ v.toNat < s.env.params.ebufDepth ∧ t = { s with esel := v }) ∨
      ∃ i : PReg, off = 0x080 + 8 * i.val ∧ s.busy = false ∧ t = s.setPReg i { s.getPReg i with inf := v.getLsbD 0 } := by
  constructor
  · rintro ⟨r, hoff, h⟩
    cases r with
    | cmd => exact .inl ⟨hoff, (accept_eq_some_iff v s t).1 h⟩
    | status => exact .inr (.inl ⟨hoff, (Option.some.inj h).symm⟩)
    | ie => exact .inr (.inr (.inl ⟨hoff, (Option.some.inj h).symm⟩))
    | esel =>
      obtain ⟨hb, h⟩ := Option.ite_none_left_eq_some.1 h
      obtain ⟨hv, h⟩ := Option.ite_none_right_eq_some.1 h
      exact .inr (.inr (.inr (.inl ⟨hoff, Bool.eq_false_iff.2 hb, hv, (Option.some.inj h).symm⟩)))
    | ptag i =>
      obtain ⟨hb, h⟩ := Option.ite_none_left_eq_some.1 h
      exact .inr (.inr (.inr (.inr ⟨i, hoff, Bool.eq_false_iff.2 hb, (Option.some.inj h).symm⟩)))
    | _ => cases h
  · rintro (⟨hoff, h⟩ | ⟨hoff, rfl⟩ | ⟨hoff, rfl⟩ | ⟨hoff, hb, hv, rfl⟩ | ⟨i, hoff, hb, rfl⟩)
    · exact ⟨.cmd, hoff, (accept_eq_some_iff v s t).2 h⟩
    · exact ⟨.status, hoff, rfl⟩
    · exact ⟨.ie, hoff, rfl⟩
    · exact ⟨.esel, hoff, by simp [ctlWrite, hb, hv]⟩
    · exact ⟨.ptag i, hoff, by simp [ctlWrite, hb]⟩

/-- The wide registers a host can write, a limb at a time while idle, and what the write makes (R65, R66, R68). -/
theorem exists_wideWrite_iff (s t : State) (off : Nat) (v : Word) :
    (∃ (r : WideReg) (j : Nat), off = 0x10000 + r.slot * 0x1000 + 8 * j ∧ j < s.env.params.limbs ∧ wideWrite s j v r = some t) ↔
      (∃ (i : XReg) (j : Nat), off = 0x10000 + i.val * 0x1000 + 8 * j ∧ j < s.env.params.limbs ∧ s.busy = false ∧
        t = s.setX i (putLimb s.width (s.getX i) j v)) ∨
      (∃ (i : PReg) (j : Nat), off = 0x30000 + i.val * 0x2000 + 8 * j ∧ j < s.env.params.limbs ∧ s.busy = false ∧
        t = s.setPReg i { s.getPReg i with x := putLimb s.width (s.getPReg i).x j v }) ∨
      ∃ (i : PReg) (j : Nat), off = 0x31000 + i.val * 0x2000 + 8 * j ∧ j < s.env.params.limbs ∧ s.busy = false ∧
        t = s.setPReg i { s.getPReg i with y := putLimb s.width (s.getPReg i).y j v } := by
  constructor
  · rintro ⟨r, j, hoff, hj, h⟩
    obtain ⟨hb, h⟩ := Option.ite_none_left_eq_some.1 h
    have hb := Bool.eq_false_iff.2 hb
    cases r with
    | x i => exact .inl ⟨i, j, hoff, hj, hb, (Option.some.inj h).symm⟩
    | px i => exact .inr (.inl ⟨i, j, by rw [hoff, WideReg.slot]; omega, hj, hb, (Option.some.inj h).symm⟩)
    | py i => exact .inr (.inr ⟨i, j, by rw [hoff, WideReg.slot]; omega, hj, hb, (Option.some.inj h).symm⟩)
    | _ => cases h
  · rintro (⟨i, j, hoff, hj, hb, rfl⟩ | ⟨i, j, hoff, hj, hb, rfl⟩ | ⟨i, j, hoff, hj, hb, rfl⟩)
    · exact ⟨.x i, j, hoff, hj, by simp [wideWrite, hb]⟩
    · exact ⟨.px i, j, by rw [hoff, WideReg.slot]; omega, hj, by simp [wideWrite, hb]⟩
    · exact ⟨.py i, j, by rw [hoff, WideReg.slot]; omega, hj, by simp [wideWrite, hb]⟩

/-- Settles O57: a write lands on a control register (`exists_ctlWrite_iff`) or on a limb (`exists_wideWrite_iff`). -/
theorem writesAcceptedExactly : Obligations.WritesAcceptedExactly := by
  intro s t off size v hp
  rw [memWrite_eq_some_iff hp, exists_ctlWrite_iff, exists_wideWrite_iff]
  simp only [or_assoc]
  rfl

/-! ### while a fault is pending -/

/-- `FAULT`, `CAUSE`, `FINFO` and `IR` are as before, and no command is in flight. -/
def faultKept (s t : State) : Prop :=
  t.fault = true ∧ t.cause = s.cause ∧ t.sub = s.sub ∧ t.ir = s.ir ∧ t.busy = false

/-- While a fault is pending, no accepted write but the one of R254 touches it, and no command is accepted (R92, R255). -/
theorem faultKept_of_memWrite {s t : State} (hs : s.Inv) (hf : s.fault = true) (hb : s.busy = false) {off size : Nat} {v : Word}
    (hkeep : off = 0x018 → size = 8 → v.getLsbD 2 = false) (h : memWrite s off size v = some t) : faultKept s t := by
  obtain ⟨rfl, hctl | hwide⟩ := (memWrite_eq_some_iff hs.params t off size v).1 h
  · rcases (exists_ctlWrite_iff s t off v).1 hctl with ⟨-, -, hf', -⟩ | ⟨hoff, rfl⟩ | ⟨-, rfl⟩ | ⟨-, -, -, rfl⟩ | ⟨i, -, -, rfl⟩
    · simp [hf] at hf'
    · rw [writeStatus_of_keep (.inl (hkeep hoff rfl))]
      exact ⟨hf, rfl, rfl, rfl, hb⟩
    · exact ⟨hf, rfl, rfl, rfl, hb⟩
    · exact ⟨hf, rfl, rfl, rfl, hb⟩
    · exact ⟨hf, rfl, rfl, rfl, hb⟩
  · rcases (exists_wideWrite_iff s t off v).1 hwide with ⟨i, j, -, -, -, rfl⟩ | ⟨i, j, -, -, -, rfl⟩ | ⟨i, j, -, -, -, rfl⟩
    all_goals exact ⟨hf, rfl, rfl, rfl, hb⟩

/-- A host's write while a fault is pending: what the window does with it, if it reaches the window (R255). -/
theorem faultKept_hostWrite {s : State} (hs : s.Inv) (hf : s.fault = true) (hb : s.busy = false) {addr size : Nat} {v : Word}
    (hkeep : addr = s.env.params.nteBase + 0x018 → size = 8 → v.getLsbD 2 = false) : faultKept s (hostWrite s addr size v) := by
  have hsame : ∀ r, faultKept s (s.respond r) := fun _ => ⟨hf, rfl, rfl, rfl, hb⟩
  unfold hostWrite
  split
  · exact hsame none
  · next off hoff =>
    have haddr := eq_base_add_of_busOffset hoff
    split
    · exact hsame _
    · next t ht =>
      have hkept : faultKept s t := faultKept_of_memWrite hs hf hb (fun h => hkeep (h ▸ haddr)) ht
      exact hkept

/-- Settles O47: with a fault pending the engine is idle (R41), so only the host's writes are left (`faultKept_hostWrite`). -/
theorem faultIsSticky : Obligations.FaultIsSticky := by
  intro s t hs hf h hreset hclear
  have hb : s.busy = false := by
    by_contra hb
    simp [(hs.busyFlags (by simpa using hb)).2] at hf
  have hsame : ∀ l r, faultKept s ((s.setPort l).respond r) := fun _ _ => ⟨hf, rfl, rfl, rfl, hb⟩
  cases hport : s.env.port with
  | nil =>
    rw [step_of_port_nil hport, engineStep_of_idle hb] at h
    cases h
    exact ⟨hf, rfl, rfl, rfl, hb⟩
  | cons e l =>
    cases e with
    | read addr size =>
      obtain ⟨r, hr⟩ := hostRead_eq_respond (s.setPort l) addr size
      rw [step_of_read hport, hr] at h
      cases h
      exact hsame l r
    | write addr size v =>
      rw [step_of_write hport] at h
      cases h
      exact faultKept_hostWrite (hs.setPort l) hf hb fun haddr hsize => hclear v l (by rw [hport, haddr, hsize]; rfl)
    | reset => exact absurd hport (hreset l)
    | engineTurn =>
      rw [step_of_engineTurn hport, engineStep_of_idle (s := s.setPort l) hb] at h
      cases h
      exact hsame l _

/-! ### while a command is in flight -/

/-- While `BUSY = 1` every limb is locked (R68). -/
theorem readLoc_limb_of_busy {s : State} (hb : s.busy = true) (r : WideReg) (j : Nat) : readLoc s (.limb r j) = none := by
  rw [readLoc, if_pos hb]

/-- Settles O48: the window's layout and the control registers agree, and the limbs are locked (`readLoc_limb_of_busy`). -/
theorem inFlightReadsShowNoOperand : Obligations.InFlightReadsShowNoOperand := by
  intro s t addr size hbs hbt hir hdone hfault hni hcv hfb hcause hsub hdoneIe hfaultIe hesel hecnt hinf hparams
  have hctl : ∀ r, ctlRead s r = ctlRead t r := by
    intro r
    cases r with
    | status => simp only [ctlRead, statusWord, hbs, hbt, hdone, hfault, hni, hcv, hfb, hcause]
    | ptag i => simp only [ctlRead, ptagWord, hinf i]
    | _ => simp only [ctlRead, ieWord, finfoWord, hir, hdoneIe, hfaultIe, hsub, hesel, hecnt, hparams]
  have hloc : ∀ loc, readLoc s loc = readLoc t loc := by
    intro loc
    cases loc with
    | ctl r => exact congrArg some (hctl r)
    | limb r j => rw [readLoc_limb_of_busy hbs, readLoc_limb_of_busy hbt]
  have hmem : ∀ off, memRead s off size = memRead t off size := by
    intro off
    rw [memRead, memRead, hparams, funext hloc]
  unfold hostRead
  rw [hparams]
  cases busOffset t.env.params addr with
  | none => rfl
  | some off =>
    simp only [hmem off]
    cases memRead t off size <;> rfl

end Sys2Proof.Machine
end

section
/-! Primes and the commands that test for them (spec R165 to R173, R196): a prime passes every round, so the draws of a test on it are known. -/

namespace Sys2Proof.Machine
open Sys2Proof.Claims

/-- The test on a prime, draws included: none below 5, else one for each of the five rounds (R165, R167 (a)). -/
theorem isprimeOf_eq_of_prime {n : Nat} (hn : n.Prime) (g : Source) :
    isprimeOf n g = (true, g.afterDraws (if n < 5 then 0 else 5)) := by
  by_cases h5 : n < 5
  · rw [if_pos h5, Source.afterDraws_zero]
    have h4 : n ≠ 4 := by rintro rfl; exact absurd hn (by decide)
    have h2 := hn.two_le
    exact isprimeOf_of_two_or_three (by omega) g
  · have hodd : n % 2 = 1 := (hn.eq_two_or_odd).resolve_left (by omega)
    have hpass : ∀ j < 5, mrRound n (baseAt n g j) = .pass := fun j _ => by
      obtain ⟨hlo, hhi⟩ := baseAt_mem_range (by omega : 3 < (n : Int)) g j
      exact mrRound_of_prime hn (by omega) hlo (by omega)
    rw [if_neg h5, isprimeOf_of_odd (by omega) (by omega), witnessLoop_of_all_pass (by omega) hpass]

/-- Settles O20: `isprimeOf_eq_of_prime`. -/
theorem isprimeAcceptsEveryPrime : Obligations.IsprimeAcceptsEveryPrime := by
  intro s rd rs1 n hs hn hx
  have hverdict := isprimeOf_eq_of_prime hn s.env.source
  rw [← hx] at hverdict
  exact execIsprime_of_isprimeOf hs rd hverdict

/-- Settles O28: `construct_faults_or_sets_curve` on a modulus that passes by `isprimeOf_eq_of_prime`. -/
theorem primeModulusSetsTheCurve : Obligations.PrimeModulusSetsTheCurve := by
  intro s rs1 rs2 rs3 n hs hn h3 hx
  have h4 : n ≠ 4 := by rintro rfl; exact absurd hn (by decide)
  have hverdict := isprimeOf_eq_of_prime hn s.env.source
  rw [if_neg (by omega)] at hverdict
  have hset : ∀ b, fits s.width b = true → construct ⟨s.getX rs1, b, s.getX rs3⟩ s =
      .next (wroteCurve (s.getX rs1) b n (drawn 5 s)) := by
    intro b hb
    obtain ⟨-, -, hok⟩ := construct_faults_or_sets_curve (s := s) ⟨s.getX rs1, b, s.getX rs3⟩ (by simp [hs.xFits, hb])
    simp only [hx, hverdict] at hok ⊢
    exact hok (by omega) trivial
  exact ⟨hset _ (hs.xFits rs2), hset _ (fits_zero _)⟩

/-! ### GENPRIME -/

/-- The result of GENPRIME fits, having at most `W − 8` bits (R172). -/
theorem fits_of_searchPrime {tb : Int} {w probes : Nat} {g g' : Source} {c : Int} (h8 : 8 ≤ tb) (hw : tb ≤ (w : Int) - 8)
    (hr : searchPrime tb.toNat probes g = (some c, g')) : fits w c = true := by
  obtain ⟨hlo, hhi, -⟩ := searchPrime_spec (by omega : 1 ≤ tb.toNat) probes g (congrArg Prod.fst hr)
  exact fits_of_lt_pow (by omega) (le_trans (by positivity) hlo) hhi

/-- Settles O22: without a fault the search found a number, which `searchPrime_spec` describes. -/
theorem genprimeResultHasWantedBits : Obligations.GenprimeResultHasWantedBits := by
  intro s t rd rs1 hs hf h hft
  change execGenprime rd rs1 s = .next t at h
  by_cases hbad : s.getX rs1 < 8 ∨ s.getX rs1 % 8 ≠ 0 ∨ s.getX rs1 > (s.width : Int) - 8
  · rw [execGenprime_of_bad_length rd hbad] at h
    cases h
    cases hft
  · rcases hr : searchPrime (s.getX rs1).toNat s.env.params.maxPrimeProbes s.env.source with ⟨_ | c, g⟩
    · rw [execGenprime_of_exhausted rd hbad hr] at h
      cases h
      cases hft
    · have hfit : fits s.width c = true := fits_of_searchPrime (by omega) (by omega) hr
      rw [execGenprime_of_found rd hbad hr, commitX_of_fits (s.setSource g) hfit] at h
      cases h
      obtain ⟨hlo, hhi, hodd, g', hpass, hg'⟩ :=
        searchPrime_spec (by omega : 1 ≤ (s.getX rs1).toNat) _ _ (congrArg Prod.fst hr)
      have hx : (complete ((s.setSource g).setX rd c)).getX rd = c := State.getX_setX_self (s.setSource g) rd c
      rw [hx]
      exact ⟨hlo, hhi, hodd, g', Prod.ext hpass (by rw [hg', hr]; rfl)⟩

/-- The number a draw makes a candidate of, for a listed answer in the range (R172). -/
theorem candidate_of_answer {tb : Nat} {v : Int} {g : Source} (hv : g.answers[0]? = some v) (h0 : 0 ≤ v) (h1 : v < 2 ^ tb) :
    candidate tb g = (((v.toNat ||| 2 ^ (tb - 1) ||| 1 : Nat) : Int), g.afterDraws 1) := by
  have hpow : ((2 : Int) ^ (tb - 1)).toNat = 2 ^ (tb - 1) := Int.toNat_natCast (2 ^ (tb - 1))
  rw [candidate, draw_value_of_answer hv h0 h1, draw_source (by positivity)]
  simp only [ior, hpow, Int.toNat_natCast, Int.toNat_one]

theorem Params.maxPrimeProbes_pos {p : Params} (h : p.wf = true) : 1 ≤ p.maxPrimeProbes := by
  simp only [Params.wf, Bool.and_eq_true, decide_eq_true_eq] at h
  obtain ⟨⟨⟨-, hprobes, -⟩, -⟩, -⟩ := h
  exact hprobes

/-- Settles O23: the listed answer gives the first candidate, and a prime passes at the first probe (`searchPrime_of_prime`). -/
theorem genprimeCompletesAtFirstPrime : Obligations.GenprimeCompletesAtFirstPrime := by
  intro s rd rs1 tb c v rest hs hx h8 hmod hw hans h0 h1 hc hprime
  have hcand : candidate tb s.env.source = ((c : Int), s.env.source.afterDraws 1) :=
    hc ▸ candidate_of_answer (by rw [hans]; rfl) h0 h1
  have h5 : ¬ c < 5 := by
    obtain ⟨hlo, -⟩ := candidate_spec (by omega : 1 ≤ tb) s.env.source
    have hpow : (2 : Int) ^ 7 ≤ 2 ^ (tb - 1) := pow_le_pow_right₀ (by norm_num) (by omega)
    rw [hcand] at hlo
    omega
  have hsearch : searchPrime (s.getX rs1).toNat s.env.params.maxPrimeProbes s.env.source =
      (some (c : Int), s.env.source.afterDraws 6) := by
    rw [hx, Int.toNat_natCast, searchPrime_of_prime (by omega) (Params.maxPrimeProbes_pos hs.params) _ (by rwa [hcand]), hcand,
      isprimeOf_eq_of_prime hprime, if_neg h5, Source.afterDraws_afterDraws]
  have hfit : fits s.width (c : Int) = true := fits_of_searchPrime (by omega) (by omega) hsearch
  exact (execGenprime_of_found rd (by omega) hsearch).trans (commitX_eq_wroteX hfit)

end Sys2Proof.Machine
end

section
/-! FINDGEN on a prime (spec R186 to R188): a prime has a primitive root, the window over `pp − 1` powers tells it from the other candidates,
and `pp − 2` tries reach every candidate. -/

namespace Sys2Proof.Machine
open Sys2Proof.Claims

/-- A prime has a primitive root, which is not 1 when the prime is odd: a generator of the units modulo it. -/
theorem exists_powersDistinct_of_prime {n : Nat} (hn : n.Prime) (h3 : 3 ≤ n) :
    ∃ g : Int, 2 ≤ g ∧ g < n ∧ powersDistinct g n (n - 1) := by
  have : Fact n.Prime := ⟨hn⟩
  obtain ⟨u, hu⟩ := IsCyclic.exists_ofOrder_eq_natCard (α := (ZMod n)ˣ)
  rw [Nat.card_eq_fintype_card, ZMod.card_units n] at hu
  have hcast : (((u : ZMod n).val : Int) : ZMod n) = u := by simp
  have hval0 : (u : ZMod n).val ≠ 0 := by
    rw [Ne, ZMod.val_eq_zero]
    exact u.ne_zero
  have hval1 : (u : ZMod n).val ≠ 1 := by
    intro h1
    have : u = 1 := Units.ext (by rw [← hcast, h1]; simp)
    rw [this, orderOf_one] at hu
    omega
  refine ⟨((u : ZMod n).val : Int), by omega, by exact_mod_cast ZMod.val_lt (u : ZMod n), fun i j h1 hji hi heq => ?_⟩
  have hpow : u ^ i = u ^ j := by
    have := (ZMod.intCast_eq_intCast_iff _ _ n).2 heq
    push_cast [hcast] at this
    exact Units.ext (by simpa using this)
  rw [pow_eq_pow_iff_modEq, hu] at hpow
  have hdvd : n - 1 ∣ i - j := (Nat.modEq_iff_dvd' hji.le).1 hpow.symm
  have := Nat.le_of_dvd (by omega) hdvd
  omega

/-- With distinct powers over `w`, no power below the `w`-th is 1: else the next one is the first again. -/
theorem pow_ne_one_of_powersDistinct {g p : Int} {w : Nat} (h : powersDistinct g p w) {k : Nat} (h1 : 1 ≤ k) (hk : k < w) :
    g ^ k % p ≠ 1 := by
  intro hone
  have hmod : g ^ k ≡ 1 [ZMOD p] := by
    rw [Int.ModEq, ← hone, Int.emod_emod_of_dvd _ dvd_rfl]
  refine h (k + 1) 1 le_rfl (by omega) hk ?_
  have := hmod.mul_right g
  rwa [one_mul, ← pow_succ, ← pow_one g, ← pow_mul, one_mul] at this

/-- The cyclic sequence meets every candidate within `pp − 2` tries (R188). -/
theorem exists_candidateAt_eq {pp : Int} (hpp : 2 < pp) (g0 : Int) {g : Int} (hlo : 2 ≤ g) (hhi : g < pp) :
    ∃ k : Nat, (k : Int) < pp - 2 ∧ candidateAt pp g0 k = g := by
  have hpos : 0 < pp - 2 := by omega
  have hcast : (((g - g0) % (pp - 2)).toNat : Int) = (g - g0) % (pp - 2) :=
    Int.toNat_of_nonneg (Int.emod_nonneg _ hpos.ne')
  refine ⟨((g - g0) % (pp - 2)).toNat, by rw [hcast]; exact Int.emod_lt_of_pos _ hpos, ?_⟩
  have hsum : g0 - 2 + (g - g0) = g - 2 := by ring
  rw [candidateAt, hcast, Int.add_emod_emod, hsum, Int.emod_eq_of_lt (by omega) (by omega)]
  omega

/-- Settles O25: some candidate is a primitive root and is reached in time, so FINDGEN writes the first candidate whose powers are distinct
over the window, which here is all `pp − 1` powers. -/
theorem findgenFindsPrimitiveRoot : Obligations.FindgenFindsPrimitiveRoot := by
  intro s rd rs1 n hs hn h3 hmax hx htries
  have hverdict := isprimeOf_eq_of_prime hn s.env.source
  obtain ⟨-, -, -, hfind⟩ := findgenFindsFirstCandidate s rd rs1 hs
  simp only [hx, hverdict] at hfind
  obtain ⟨g0, -, -, -, hfound, -⟩ := hfind (by omega) trivial
  have hwindow : windowOf n = n - 1 := by
    unfold windowOf
    omega
  rw [hwindow] at hfound
  obtain ⟨r, hrlo, hrhi, hroot⟩ := exists_powersDistinct_of_prime hn h3
  obtain ⟨m, hm, hmr⟩ := exists_candidateAt_eq (by omega : 2 < (n : Int)) g0 hrlo hrhi
  obtain ⟨i, hi, hpass, hfail⟩ := exists_first_failure (P := fun k => ¬ powersDistinct (candidateAt n g0 k) n (n - 1)) (t := m + 1)
    fun hall => hall m (Nat.lt_succ_self m) (hmr ▸ hroot)
  obtain ⟨hlo, hhi⟩ := candidateAt_mem_range (by omega : 2 < (n : Int)) g0 i
  have hexec := hfound i (by omega) (not_not.1 hpass) hfail
  rw [drawn_setSource, Source.afterDraws_afterDraws, ite_add] at hexec
  exact ⟨candidateAt n g0 i, hlo, hhi, fun k h1 hk => pow_ne_one_of_powersDistinct (not_not.1 hpass) h1 hk, hexec⟩

end Sys2Proof.Machine
end

section
/-! The chord and the tangent (spec R212): the slope as a residue, the third point on its line, and that it satisfies the curve equation over
any modulus for which the slope exists (R213 (a) is never reached). -/

namespace Sys2Proof.Machine
open Sys2Proof.Claims

/-! ### the curve equation in a commutative ring -/

section
variable {R : Type*} [CommRing R] {a b xP yP sl : R}

/-- The chord of slope `sl` through two points of the curve meets it again where the sum of the roots says. The cubic that the line cuts out
vanishes at `xP` and `xQ`, and `xQ − xP` can be cancelled. -/
theorem chord_meets_curve {xQ yQ : R} (hP : yP * yP = xP * xP * xP + a * xP + b) (hQ : yQ * yQ = xQ * xQ * xQ + a * xQ + b)
    (hsl : sl * (xQ - xP) = yQ - yP) (hunit : IsUnit (xQ - xP)) {xR yR : R} (hx : xR = sl * sl - xP - xQ)
    (hy : yR = sl * (xP - xR) - yP) : yR * yR = xR * xR * xR + a * xR + b := by
  subst hy hx
  refine hunit.mul_left_cancel ?_
  linear_combination (2 * xQ + xP - sl * sl) * hP + (sl * sl - xQ - 2 * xP) * hQ +
    (sl * sl - xQ - 2 * xP) * (yQ + yP + sl * (xQ - xP)) * hsl

/-- The tangent of slope `sl` at a point of the curve: there the cubic has a double root. -/
theorem tangent_meets_curve (hP : yP * yP = xP * xP * xP + a * xP + b) (hsl : sl * (2 * yP) = 3 * xP * xP + a) {xR yR : R}
    (hx : xR = sl * sl - xP - xP) (hy : yR = sl * (xP - xR) - yP) : yR * yR = xR * xR * xR + a * xR + b := by
  subst hy hx
  linear_combination hP + (sl * sl - 3 * xP) * hsl

end

/-! ### residues -/

/-- Equal residues are equal numbers of the ring of residues. -/
theorem emod_eq_emod_iff_cast {p : Int} (hp : 0 < p) (x y : Int) : x % p = y % p ↔ (x : ZMod p.toNat) = y := by
  rw [ZMod.intCast_eq_intCast_iff, Int.toNat_of_nonneg hp.le]
  rfl

theorem cast_emod {p : Int} (hp : 0 < p) (x : Int) : ((x % p : Int) : ZMod p.toNat) = x :=
  (emod_eq_emod_iff_cast hp _ _).1 (Int.emod_emod_of_dvd x dvd_rfl)

theorem isUnit_cast_of_gcd_eq_one {p : Int} (hp : 0 < p) {x : Int} (h : Int.gcd x p = 1) : IsUnit (x : ZMod p.toNat) := by
  obtain ⟨v, -, -, -, hv⟩ := invOf_of_gcd_eq_one hp h
  have hone : ((x * v : Int) : ZMod p.toNat) = (1 : Int) := (emod_eq_emod_iff_cast hp _ _).1 hv
  push_cast at hone
  exact IsUnit.of_mul_eq_one _ hone

theorem satisfies_iff_cast {c : Curve} (hp : 0 < c.p) (x y : Int) :
    satisfies c x y ↔ (y : ZMod c.p.toNat) * y = x * x * x + c.a * x + c.b := by
  rw [satisfies, emod_eq_emod_iff_cast hp]
  push_cast
  rfl

/-! ### the slope -/

/-- `sl` is the slope of R212, `mod(num · den⁻¹, p)`: the canonical solution of `sl · den = num` modulo `p`. -/
def isSlope (c : Curve) (num den sl : Int) : Prop := 0 ≤ sl ∧ sl < c.p ∧ sl * den % c.p = num % c.p

/-- The point R212 computes from the slope. -/
def slopePoint (c : Curve) (sl xP yP xQ : Int) : Point :=
  .fin ((sl * sl - xP - xQ) % c.p) ((sl * (xP - (sl * sl - xP - xQ) % c.p) - yP) % c.p)

/-- With an inverse of the denominator there is only one slope. -/
theorem isSlope_unique {c : Curve} {num den sl sl' : Int} (hgcd : Int.gcd den c.p = 1) (h : isSlope c num den sl)
    (h' : isSlope c num den sl') : sl = sl' := by
  obtain ⟨h0, hlt, hmul⟩ := h
  obtain ⟨h0', hlt', hmul'⟩ := h'
  have hdvd : c.p ∣ (sl - sl') * den := by
    rw [sub_mul]
    exact Int.dvd_of_emod_eq_zero (Int.emod_eq_emod_iff_emod_sub_eq_zero.1 (hmul.trans hmul'.symm))
  exact eq_of_dvd_sub h0 hlt h0' hlt' ((Int.isCoprime_iff_gcd_eq_one.2 hgcd).symm.dvd_of_dvd_mul_right hdvd)

/-- The third point of two points of the curve satisfies the curve equation, over any modulus (46_ec_group.md section 2). -/
theorem oncurve_slopePoint {c : Curve} (hp : 0 < c.p) {xP yP xQ yQ sl : Int} (hP : satisfies c xP yP) (hQ : satisfies c xQ yQ)
    (hgcd : Int.gcd (slopeTerms c xP yP xQ yQ).2 c.p = 1)
    (hsl : isSlope c (slopeTerms c xP yP xQ yQ).1 (slopeTerms c xP yP xQ yQ).2 sl) :
    oncurve c (slopePoint c sl xP yP xQ) = true := by
  obtain ⟨-, -, hmul⟩ := hsl
  have hunit := isUnit_cast_of_gcd_eq_one hp hgcd
  rw [satisfies_iff_cast hp] at hP hQ
  rw [emod_eq_emod_iff_cast hp] at hmul
  rw [slopePoint, oncurve_fin_iff_satisfies, satisfies_iff_cast hp]
  have hx := cast_emod hp (sl * sl - xP - xQ)
  have hy := cast_emod hp (sl * (xP - (sl * sl - xP - xQ) % c.p) - yP)
  push_cast at hx hy
  unfold slopeTerms at hmul hunit
  split at hmul
  · next heq =>
    obtain ⟨rfl, rfl⟩ := heq
    push_cast at hmul
    exact tangent_meets_curve hP hmul hx hy
  · next hne =>
    rw [if_neg hne] at hunit
    push_cast at hmul hunit
    exact chord_meets_curve hP hQ hmul hunit hx hy

/-! ### the sum of finite points -/

section
variable {c : Curve} (hp : 1 < c.p) {xP yP xQ yQ : Int}
include hp

theorem addFinite_of_no_inverse (h : Int.gcd (slopeTerms c xP yP xQ yQ).2 c.p ≠ 1) : addFinite c xP yP xQ yQ = (.inf, true) := by
  simp only [addFinite, invOf_of_gcd_ne_one (by omega : 0 < c.p) h]

theorem addFinite_of_inverse (hP : satisfies c xP yP) (hQ : satisfies c xQ yQ) (h : Int.gcd (slopeTerms c xP yP xQ yQ).2 c.p = 1) :
    ∃ sl, isSlope c (slopeTerms c xP yP xQ yQ).1 (slopeTerms c xP yP xQ yQ).2 sl ∧
      addFinite c xP yP xQ yQ = (slopePoint c sl xP yP xQ, false) := by
  have hpos : 0 < c.p := by omega
  obtain ⟨v, hv, -, -, hmul⟩ := invOf_of_gcd_eq_one hpos h
  set num := (slopeTerms c xP yP xQ yQ).1 with hnum
  set den := (slopeTerms c xP yP xQ yQ).2 with hden
  have hslope : isSlope c num den (imod (num * v) c.p) := by
    refine ⟨imod_nonneg _ hpos, imod_lt _ hpos, ?_⟩
    calc imod (num * v) c.p * den % c.p
      _ = num * v * den % c.p := (Int.mod_modEq (num * v) c.p).mul_right den
      _ = num * (den * v) % c.p := by rw [mul_assoc, mul_comm v]
      _ = num * 1 % c.p := (Int.ModEq.mul_left num hmul : _)
      _ = num % c.p := by rw [mul_one]
  refine ⟨_, hslope, ?_⟩
  have hon := oncurve_slopePoint hpos hP hQ h hslope
  unfold slopePoint at hon
  simp only [addFinite, ← hnum, ← hden, hv, imod] at hon ⊢
  rw [if_neg (by simp [hon]), slopePoint]

end

/-- Additive inverses, which R212 sends to `Inf`: distinct points of one `x` whose `y` add up to 0. -/
def mirrored (c : Curve) (xP yP xQ yQ : Int) : Prop :=
  Point.fin xP yP ≠ .fin xQ yQ ∧ xP = xQ ∧ (yP + yQ) % c.p = 0

theorem ecAdd_of_mirrored {c : Curve} {xP yP xQ yQ : Int} (h : mirrored c xP yP xQ yQ) :
    ecAdd c (.fin xP yP) (.fin xQ yQ) = (.inf, false) := if_pos h

theorem ecAdd_of_not_mirrored {c : Curve} {xP yP xQ yQ : Int} (h : ¬ mirrored c xP yP xQ yQ) :
    ecAdd c (.fin xP yP) (.fin xQ yQ) = addFinite c xP yP xQ yQ := if_neg h

theorem ecAdd_inf_left (c : Curve) (Q : Point) : ecAdd c .inf Q = (Q, false) := rfl

theorem ecAdd_inf_right (c : Curve) (P : Point) : ecAdd c P .inf = (P, false) := by cases P <;> rfl

theorem usable_fin_iff (c : Curve) (x y : Int) :
    usable c (.fin x y) ↔ (0 ≤ x ∧ x < c.p ∧ 0 ≤ y ∧ y < c.p) ∧ satisfies c x y := by
  rw [usable_iff_validPoint, validPoint, Bool.and_eq_true, inRange_iff, oncurve_fin_iff_satisfies]

/-- Settles O30: the clauses of R212 in order, the slope by `addFinite_of_inverse`. -/
theorem additionFollowsTheGroupLaw : Obligations.AdditionFollowsTheGroupLaw := by
  intro c P Q hp hP hQ
  refine ⟨fun h => h ▸ ecAdd_inf_left c Q, fun h => h ▸ ecAdd_inf_right c P, ?_⟩
  rintro xP yP xQ yQ rfl rfl
  obtain ⟨-, hP⟩ := (usable_fin_iff c xP yP).1 hP
  obtain ⟨-, hQ⟩ := (usable_fin_iff c xQ yQ).1 hQ
  refine ⟨fun hne hx hy => ecAdd_of_mirrored ⟨hne, hx, hy⟩, fun hnot => ?_⟩
  have hnum : (slopeTerms c xP yP xQ yQ).1 = if Point.fin xP yP = .fin xQ yQ then 3 * xP * xP + c.a else yQ - yP := by
    simp only [slopeTerms, Point.fin.injEq, apply_ite Prod.fst]
  have hden : (slopeTerms c xP yP xQ yQ).2 = if Point.fin xP yP = .fin xQ yQ then 2 * yP else xQ - xP := by
    simp only [slopeTerms, Point.fin.injEq, apply_ite Prod.snd]
  rw [ecAdd_of_not_mirrored hnot, ← hnum, ← hden]
  refine ⟨addFinite_of_no_inverse hp, fun hgcd => ?_⟩
  obtain ⟨sl, ⟨h0, hlt, hmul⟩, hadd⟩ := addFinite_of_inverse hp hP hQ hgcd
  exact ⟨sl, h0, hlt, hmul, hadd⟩

/-! ### the fallback over a prime (R213) -/

/-- The fallback bit says that the denominator has no inverse. -/
theorem addFinite_fallback_iff {c : Curve} (hp : 1 < c.p) {xP yP xQ yQ : Int} (hP : satisfies c xP yP) (hQ : satisfies c xQ yQ) :
    (addFinite c xP yP xQ yQ).2 = true ↔ Int.gcd (slopeTerms c xP yP xQ yQ).2 c.p ≠ 1 := by
  by_cases h : Int.gcd (slopeTerms c xP yP xQ yQ).2 c.p = 1
  · obtain ⟨sl, -, hadd⟩ := addFinite_of_inverse hp hP hQ h
    simp [hadd, h]
  · simp [addFinite_of_no_inverse hp h, h]

theorem gcd_ne_one_iff_dvd {p : Int} (hprime : Prime p) (x : Int) : Int.gcd x p ≠ 1 ↔ p ∣ x := by
  rw [Ne, ← Int.isCoprime_iff_gcd_eq_one, isCoprime_comm, hprime.coprime_iff_not_dvd, not_not]

/-- Over a prime, two points with the same `x` have the same `y` or are additive inverses. -/
theorem eq_or_mirrored_of_prime {c : Curve} (hprime : Prime c.p) {x yP yQ : Int} (hP : usable c (.fin x yP)) (hQ : usable c (.fin x yQ)) :
    yP = yQ ∨ mirrored c x yP x yQ := by
  obtain ⟨⟨-, -, hP0, hPlt⟩, hP⟩ := (usable_fin_iff c x yP).1 hP
  obtain ⟨⟨-, -, hQ0, hQlt⟩, hQ⟩ := (usable_fin_iff c x yQ).1 hQ
  have hsq : yP * yP % c.p = yQ * yQ % c.p := hP.trans hQ.symm
  by_cases heq : yP = yQ
  · exact .inl heq
  · refine .inr ⟨by simp [heq], rfl, ?_⟩
    rcases hQ0.eq_or_lt with rfl | hQ1
    · exact absurd (eq_zero_of_mul_self_emod hprime hP0 hPlt (by simpa using hsq)) heq
    · rw [(eq_or_eq_mirror_of_mul_self_emod hprime hP0 hPlt hQ1 hQlt hsq).resolve_left heq, Int.sub_add_cancel, Int.emod_self]

/-- Settles O31: the denominator has no inverse only when the prime divides it, that is `2·y` of a doubling; a chord's `xQ − xP` is
divisible only when the points are equal or additive inverses. -/
theorem fallbackOnlyAtDoublingZeroY : Obligations.FallbackOnlyAtDoublingZeroY := by
  intro c P Q n hn h2 hcp hP hQ
  have hprime : Prime c.p := hcp ▸ Nat.prime_iff_prime_int.1 hn
  have hp : 2 < c.p := by omega
  cases P with
  | inf => simp [ecAdd_inf_left]
  | fin xP yP =>
    cases Q with
    | inf => simp [ecAdd_inf_right]
    | fin xQ yQ =>
      obtain ⟨⟨hxP0, hxP, hyP0, hyP⟩, hPc⟩ := (usable_fin_iff c xP yP).1 hP
      obtain ⟨⟨hxQ0, hxQ, -, -⟩, hQc⟩ := (usable_fin_iff c xQ yQ).1 hQ
      have hfallback := addFinite_fallback_iff (by omega : 1 < c.p) hPc hQc
      rw [gcd_ne_one_iff_dvd hprime] at hfallback
      constructor
      · intro h
        have hnot : ¬ mirrored c xP yP xQ yQ := fun hm => by simp [ecAdd_of_mirrored hm] at h
        rw [ecAdd_of_not_mirrored hnot, hfallback, slopeTerms] at h
        split at h
        · next heq =>
          obtain ⟨rfl, rfl⟩ := heq
          have hdvd : c.p ∣ yP := (hprime.dvd_or_dvd h).resolve_left fun h => absurd (Int.le_of_dvd (by omega) h) (by omega)
          obtain rfl := Int.eq_zero_of_dvd_of_nonneg_of_lt hyP0 hyP hdvd
          exact ⟨xP, rfl, rfl⟩
        · next hne =>
          obtain rfl := eq_of_dvd_sub hxQ0 hxQ hxP0 hxP h
          exact absurd ((eq_or_mirrored_of_prime hprime hP hQ).resolve_right hnot) fun h => hne ⟨rfl, h⟩
      · rintro ⟨x, hPx, hQx⟩
        cases hPx
        cases hQx
        rw [ecAdd_of_not_mirrored fun hm => hm.1 rfl, hfallback]
        simp [slopeTerms]

/-! ### commutativity (R214) -/

theorem slopeTerms_swap {c : Curve} {xP yP xQ yQ : Int} (hne : ¬ (xP = xQ ∧ yP = yQ)) :
    slopeTerms c xP yP xQ yQ = (yQ - yP, xQ - xP) ∧ slopeTerms c xQ yQ xP yP = (-(yQ - yP), -(xQ - xP)) := by
  refine ⟨if_neg hne, ?_⟩
  rw [slopeTerms, if_neg fun h => hne ⟨h.1.symm, h.2.symm⟩, Int.neg_sub, Int.neg_sub]

theorem isSlope_neg {c : Curve} {num den sl : Int} (h : isSlope c (-num) (-den) sl) : isSlope c num den sl := by
  obtain ⟨h0, hlt, hmul⟩ := h
  have hneg : -(sl * -den) ≡ - -num [ZMOD c.p] := Int.ModEq.neg hmul
  rw [mul_neg, neg_neg, neg_neg] at hneg
  exact ⟨h0, hlt, hneg⟩

/-- The chord's third point may be computed from either end. -/
theorem slopePoint_swap {c : Curve} {xP yP xQ yQ sl : Int} (h : isSlope c (yQ - yP) (xQ - xP) sl) :
    slopePoint c sl xQ yQ xP = slopePoint c sl xP yP xQ := by
  obtain ⟨-, -, hmul⟩ := h
  unfold slopePoint
  rw [sub_right_comm (sl * sl) xQ xP]
  set xR := (sl * sl - xP - xQ) % c.p
  have hleft : sl * (xQ - xR) - yQ = sl * (xQ - xP) + (sl * (xP - xR) - yQ) := by ring
  have hright : sl * (xP - xR) - yP = yQ - yP + (sl * (xP - xR) - yQ) := by ring
  rw [hleft, hright]
  exact congrArg _ (Int.ModEq.add_right _ hmul)

theorem addFinite_comm {c : Curve} (hp : 1 < c.p) {xP yP xQ yQ : Int} (hP : satisfies c xP yP) (hQ : satisfies c xQ yQ) :
    addFinite c xP yP xQ yQ = addFinite c xQ yQ xP yP := by
  by_cases heq : xP = xQ ∧ yP = yQ
  · obtain ⟨rfl, rfl⟩ := heq
    rfl
  · obtain ⟨hterms, hswap⟩ := slopeTerms_swap (c := c) heq
    by_cases hgcd : Int.gcd (xQ - xP) c.p = 1
    · obtain ⟨sl, hsl, hadd⟩ := addFinite_of_inverse hp hP hQ (by rwa [hterms])
      obtain ⟨sl', hsl', hadd'⟩ := addFinite_of_inverse hp hQ hP (by rwa [hswap, Int.neg_gcd])
      rw [hterms] at hsl
      rw [hswap] at hsl'
      obtain rfl := isSlope_unique hgcd hsl (isSlope_neg hsl')
      rw [hadd, hadd', slopePoint_swap hsl]
    · rw [addFinite_of_no_inverse hp (by rwa [hterms]), addFinite_of_no_inverse hp (by rwa [hswap, Int.neg_gcd])]

theorem mirrored_comm (c : Curve) (xP yP xQ yQ : Int) : mirrored c xP yP xQ yQ ↔ mirrored c xQ yQ xP yP := by
  unfold mirrored
  rw [ne_comm, eq_comm (a := xP), Int.add_comm yP]

theorem ecAdd_comm {c : Curve} (hp : 1 < c.p) {P Q : Point} (hP : usable c P) (hQ : usable c Q) : ecAdd c P Q = ecAdd c Q P := by
  cases P with
  | inf => rw [ecAdd_inf_left, ecAdd_inf_right]
  | fin xP yP =>
    cases Q with
    | inf => rw [ecAdd_inf_left, ecAdd_inf_right]
    | fin xQ yQ =>
      by_cases h : mirrored c xP yP xQ yQ
      · rw [ecAdd_of_mirrored h, ecAdd_of_mirrored ((mirrored_comm c xP yP xQ yQ).1 h)]
      · rw [ecAdd_of_not_mirrored h, ecAdd_of_not_mirrored (mt (mirrored_comm c xQ yQ xP yP).1 h)]
        exact addFinite_comm hp ((usable_fin_iff c xP yP).1 hP).2 ((usable_fin_iff c xQ yQ).1 hQ).2

/-- A point with `y ≠ 0` and its mirror image are distinct over an odd modulus, and so add up to `Inf`. -/
theorem mirrored_neg {c : Curve} (hodd : c.p % 2 = 1) {x y : Int} (h0 : 0 < y) (hlt : y < c.p) :
    mirrored c x y x (-y % c.p) := by
  have hneg : -y % c.p = c.p - y := by
    rw [← Int.add_emod_right, Int.emod_eq_of_lt (by omega) (by omega)]
    omega
  refine ⟨fun h => ?_, rfl, ?_⟩
  · have := (Point.fin.inj h).2
    omega
  · rw [hneg, add_sub_cancel, Int.emod_self]

/-- Settles O32: closure is `ecAdd_valid`, commutativity `ecAdd_comm`. -/
theorem additionLaws : Obligations.AdditionLaws := by
  intro c P Q hp hodd hP hQ
  refine ⟨?_, ecAdd_inf_right c P, rfl, ?_, ecAdd_comm (by omega) hP hQ⟩
  · rw [usable_iff_validPoint] at hP hQ ⊢
    exact ecAdd_valid (by omega) hP hQ
  · rintro x y rfl hy
    obtain ⟨⟨-, -, h0, hlt⟩, -⟩ := (usable_fin_iff c x y).1 hP
    exact ecAdd_of_mirrored (mirrored_neg hodd (by omega) hlt)

end Sys2Proof.Machine
end

section
/-! ECDBL (spec R217, R218): the operand check and the double; it is ECADD of the point with itself. -/

namespace Sys2Proof.Machine
open Sys2Proof.Claims

section
variable {s : State} {ps1 : PReg} (pd : PReg)

theorem execEcdbl_of_no_curve (hcv : s.cv = false) : execEcdbl pd ps1 s = raise .noCurve 0 s := withCurve_of_no_curve hcv _

variable (hcv : s.cv = true)
include hcv

theorem execEcdbl_of_bad_point {sub : BitVec 8} (hP : checkPoint s.curve (s.getP ps1) 1 = some sub) :
    execEcdbl pd ps1 s = raise .point sub s := by
  simp only [execEcdbl, withCurve_of_curve hcv, hP]

theorem execEcdbl_of_checked (hP : checkPoint s.curve (s.getP ps1) 1 = none) :
    execEcdbl pd ps1 s = commitP s pd (ecAdd s.curve (s.getP ps1) (s.getP ps1)) := by
  simp only [execEcdbl, withCurve_of_curve hcv, hP]

end

/-- Settles O34: the encoding by `decode_commandWord`, then the faults in the order of the checks, and the double, a point of the curve by
`ecAdd_valid`. -/
theorem ecdblWritesTheDouble : Obligations.EcdblWritesTheDouble := by
  intro s pd ps1 hs P c
  have hdecode := decode_commandWord (i := .ecdbl pd ps1) .ecdbl (pField pd) (pField ps1) 0 0 rfl
  simp only [toNat_pField] at hdecode
  refine ⟨hdecode, fun hcv => ?_, fun hcv hout => ?_, fun hcv hin hoff => ?_, fun hcv hP => ?_⟩
  · exact (execEcdbl_of_no_curve pd hcv).trans (raise_eq_faulted .noCurve 0 s)
  · exact (execEcdbl_of_bad_point pd hcv (checkPoint_of_outOfRange 1 hout)).trans (raise_eq_faulted .point 0x11 s)
  · exact (execEcdbl_of_bad_point pd hcv (checkPoint_of_offCurve 1 hin hoff)).trans (raise_eq_faulted .point 1 s)
  · have hvalid := (usable_iff_validPoint c P).1 hP
    exact (execEcdbl_of_checked pd hcv (checkPoint_of_usable 1 hP)).trans
      (commitP_of_validPoint hs pd (ecAdd_valid (hs.modulus_pos hcv) hvalid hvalid))

/-- Settles O35: without a curve both fault; else both check the point first, and the second check of ECADD then passes too. -/
theorem doublingIsAddingToItself : Obligations.DoublingIsAddingToItself := by
  intro s pd ps1
  change execEcdbl pd ps1 s = execEcadd pd ps1 ps1 s
  cases hcv : s.cv with
  | false => rw [execEcdbl_of_no_curve pd hcv, execEcadd_of_no_curve pd hcv]
  | true =>
    cases hP : checkPoint s.curve (s.getP ps1) 1 with
    | some sub => rw [execEcdbl_of_bad_point pd hcv hP, execEcadd_of_bad_first pd hcv hP]
    | none =>
      have hP2 : checkPoint s.curve (s.getP ps1) 2 = none := by
        rwa [checkPoint_eq_none_iff] at hP ⊢
      rw [execEcdbl_of_checked pd hcv hP, execEcadd_of_checked pd hcv hP hP2]

end Sys2Proof.Machine
end

section
/-! How a command comes to its end (spec R15, R23, R258): by a fault of its checks, which is never `E_RANGE`, or by the fit check on what it would
write. Said once for every command (`exec_form`), with what the statements about faults and results need of the values written. -/

namespace Sys2Proof.Machine
open Sys2Proof.Claims

/-- Settles O40: the one end of a command that sets `FAULT` is the fault of `CommandEnd`. -/
theorem faultsArePrecise : Obligations.FaultsArePrecise := by
  intro s t i hs h ht
  have hnot : s.fault = true → (t.cause, t.sub) ∈ faultPairs ∧ t = faulted t.cause t.sub (s.setSource t.env.source) := by
    simp [hs]
  cases exec_end h with
  | faults c n g hpair => exact ⟨hpair, rfl⟩
  | _ => exact hnot ht

/-! ### the form of a command -/

/-- The one operand pair whose result does not fit (R137, R251). -/
def rangePair (s : State) (i : Instr) : Prop :=
  ∃ rd rs1 rs2, i = .gcd rd rs1 rs2 ∧ s.getX rs1 = -2 ^ (s.width - 1) ∧ s.getX rs2 = 0

/-- The two forms of the answer to the command `i` run from `s`. -/
inductive CommandForm (s : State) (i : Instr) : Out → Prop
  /-- A check fails, after any number of draws. -/
  | raises (c : Cause) (n : BitVec 8) (g : Source) (hc : c ≠ .range) : CommandForm s i (raise c n (s.setSource g))
  /-- The fit check of the values `vs`, and then the state `u`: its result is not negative, and the values fit but for one operand pair. -/
  | commits (vs : List Int) (u : State) (g : Source) (hcause : u.cause = s.cause) (hnonneg : ∀ rd, destX i = some rd → 0 ≤ u.getX rd)
      (hfits : s.Inv → ¬ rangePair s i → ∀ v ∈ vs, fits s.width v = true) : CommandForm s i (commit (s.setSource g) vs u)

namespace CommandForm
variable {s : State} {i : Instr}

theorem of_raise {c : Cause} {n : BitVec 8} (hc : c ≠ .range) : CommandForm s i (raise c n s) :=
  .raises c n s.env.source hc

/-- A command whose only write is a non-negative integer. -/
theorem of_commitX_after {rd : XReg} {v : Int} (g : Source) (hd : destX i = some rd) (h0 : 0 ≤ v)
    (hfit : s.Inv → ¬ rangePair s i → fits s.width v = true) : CommandForm s i (commitX (s.setSource g) rd v) := by
  refine .commits [v] _ g rfl (fun r hr => ?_) fun hs hno => by simpa using hfit hs hno
  obtain rfl : rd = r := Option.some.inj (hd.symm.trans hr)
  rwa [State.getX_setX_self]

theorem of_commitX {rd : XReg} {v : Int} (hd : destX i = some rd) (h0 : 0 ≤ v)
    (hfit : s.Inv → ¬ rangePair s i → fits s.width v = true) : CommandForm s i (commitX s rd v) :=
  of_commitX_after s.env.source hd h0 hfit

/-- A group-law command: its point is valid on the curve in force, and so fits. -/
theorem of_commitP {pd : PReg} {r : Point × Bool} (hd : destX i = none) (hcv : s.cv = true)
    (hvalid : 0 < s.curve.p → validPoint s.curve r.1 = true) : CommandForm s i (commitP s pd r) :=
  .commits _ _ s.env.source rfl (fun rd hrd => by rw [hd] at hrd; cases hrd) fun hs _ =>
    fits_coords hs.curveFits.2.2 (hvalid (hs.modulus_pos hcv))

/-- The constructor of curves stores what fits in registers (R196). -/
theorem of_construct {c : Curve} (hd : destX i = none) (hfits : s.Inv → ∀ v ∈ [c.a, c.b, c.p], fits s.width v = true) :
    CommandForm s i (construct c s) := by
  rcases le_or_gt c.p 3 with h3 | h3
  · rw [construct_of_le_three h3]
    exact of_raise (by decide)
  · cases hv : (isprimeOf c.p s.env.source).1 with
    | false =>
      rw [construct_of_composite h3 hv]
      exact .raises _ _ _ (by decide)
    | true =>
      rw [construct_of_prime h3 hv]
      exact .commits _ _ _ rfl (fun rd hrd => by rw [hd] at hrd; cases hrd) fun hs _ => hfits hs

/-! ### the commands, one by one -/

theorem modmul (rd rs1 rs2 rs3 : XReg) : CommandForm s (.modmul rd rs1 rs2 rs3) (execModmul rd rs1 rs2 rs3 s) := by
  rcases le_or_gt (s.getX rs3) 0 with hm | hm
  · rw [execModmul_of_nonpos rd rs1 rs2 hm]
    exact of_raise (by decide)
  · rw [execModmul_of_pos rd rs1 rs2 hm]
    exact of_commitX rfl (imod_nonneg _ hm) fun hs _ => fits_emod (hs.xFits rs3) hm _

theorem gcd (rd rs1 rs2 : XReg) : CommandForm s (.gcd rd rs1 rs2) (execGcd rd rs1 rs2 s) := by
  rcases lt_or_ge (s.getX rs2) 0 with hb | hb
  · rw [execGcd_of_neg rd rs1 hb]
    exact of_raise (by decide)
  · rw [execGcd_of_nonneg rd rs1 hb]
    exact of_commitX rfl (Int.natCast_nonneg _) fun hs hno =>
      (fits_gcd_iff (hs.xFits rs1) (hs.xFits rs2) hb).2 fun hpair => hno ⟨rd, rs1, rs2, rfl, hpair⟩

/-- MODINV writes `NI` beside its result (R141). -/
theorem of_modinv {rd rs1 rs2 : XReg} {v : Int} (b : Bool) (h0 : 0 ≤ v) (hfit : s.Inv → fits s.width v = true) :
    CommandForm s (.modinv rd rs1 rs2) (commit s [v] { s.setX rd v with ni := b }) := by
  refine .commits [v] _ s.env.source rfl (fun r hr => ?_) fun hs _ => by simpa using hfit hs
  obtain rfl : rd = r := Option.some.inj hr
  exact (State.getX_setX_self s rd v).symm ▸ h0

theorem modinv (rd rs1 rs2 : XReg) : CommandForm s (.modinv rd rs1 rs2) (execModinv rd rs1 rs2 s) := by
  rcases le_or_gt (s.getX rs2) 0 with hm | hm
  · rw [execModinv_of_nonpos rd rs1 hm]
    exact of_raise (by decide)
  · rcases invOf_cases (s.getX rs1) hm with ⟨v, hv, -, h0, hlt, -⟩ | ⟨hnone, -⟩
    · rw [execModinv_of_inverse rd hm hv]
      exact of_modinv false h0 fun hs => fits_of_lt (hs.xFits rs2) h0 hlt
    · rw [execModinv_of_no_inverse rd hm hnone]
      exact of_modinv true le_rfl fun _ => fits_zero _

theorem powmod (rd rs1 rs2 rs3 : XReg) : CommandForm s (.powmod rd rs1 rs2 rs3) (execPowmod rd rs1 rs2 rs3 s) := by
  rcases le_or_gt (s.getX rs3) 0 with hm | hm
  · rw [execPowmod_of_nonpos rd rs1 rs2 hm]
    exact of_raise (by decide)
  · rcases lt_or_ge (s.getX rs2) 0 with he | he
    · rw [execPowmod_of_pos_of_neg rd rs1 hm he]
      exact of_raise (by decide)
    · rw [execPowmod_of_pos_of_nonneg rd rs1 hm he]
      exact of_commitX rfl (imod_nonneg _ hm) fun hs _ => fits_emod (hs.xFits rs3) hm _

/-- A verdict is 0 or 1, and fits in every register. -/
theorem of_verdict {rd : XReg} (b : Bool) (g : Source) (hd : destX i = some rd) :
    CommandForm s i (commitX (s.setSource g) rd (ofVerdict b)) := by
  refine of_commitX_after g hd (by cases b <;> decide) fun hs _ => ?_
  obtain ⟨hwidth, -⟩ := Params.bounds_of_wf hs.params
  exact fits_ofVerdict (le_trans (by decide : 2 ≤ 64) hwidth) b

theorem isprime (rd rs1 : XReg) : CommandForm s (.isprime rd rs1) (execIsprime rd rs1 s) := of_verdict _ _ rfl

theorem genprime (rd rs1 : XReg) : CommandForm s (.genprime rd rs1) (execGenprime rd rs1 s) := by
  by_cases hbad : s.getX rs1 < 8 ∨ s.getX rs1 % 8 ≠ 0 ∨ s.getX rs1 > (s.width : Int) - 8
  · rw [execGenprime_of_bad_length rd hbad]
    exact of_raise (by decide)
  · rcases hr : searchPrime (s.getX rs1).toNat s.env.params.maxPrimeProbes s.env.source with ⟨_ | c, g⟩
    · rw [execGenprime_of_exhausted rd hbad hr]
      exact .raises _ _ _ (by decide)
    · obtain ⟨hlo, -⟩ := searchPrime_spec (by omega : 1 ≤ (s.getX rs1).toNat) _ _ (congrArg Prod.fst hr)
      rw [execGenprime_of_found rd hbad hr]
      exact of_commitX_after g rfl (le_trans (by positivity) hlo) fun _ _ => fits_of_searchPrime (by omega) (by omega) hr

theorem sample (rd rs1 rs2 : XReg) : CommandForm s (.sample rd rs1 rs2) (execSample rd rs1 rs2 s) := by
  by_cases hrange : s.getX rs1 < 0 ∨ s.getX rs2 ≤ s.getX rs1
  · rw [execSample_of_empty_range rd hrange]
    exact of_raise (by decide)
  · have hlt : s.getX rs1 < s.getX rs2 := by omega
    obtain ⟨hlo, hhi, -⟩ := draw_spec hlt s.env.source
    have h0 := le_trans (by omega : 0 ≤ s.getX rs1) hlo
    rw [execSample_of_range rd (by omega) hlt]
    exact of_commitX_after _ rfl h0 fun hs _ => fits_of_lt (hs.xFits rs2) h0 hhi

theorem findgen (rd rs1 : XReg) : CommandForm s (.findgen rd rs1) (execFindgen rd rs1 s) := by
  rcases le_or_gt (s.getX rs1) 2 with hpp | hpp
  · rw [execFindgen_of_le_two rd hpp]
    exact of_raise (by decide)
  · rcases hv : isprimeOf (s.getX rs1) s.env.source with ⟨_ | _, g⟩
    · rw [execFindgen_of_composite rd hpp (congrArg Prod.fst hv)]
      exact .raises _ _ _ (by decide)
    · obtain ⟨hlo, hhi, -⟩ := draw_spec hpp g
      cases hr : tryLoop (s.getX rs1) (windowOf (s.getX rs1)) s.env.params.maxGenTries (draw 2 (s.getX rs1) g).1 with
      | none =>
        rw [execFindgen_of_exhausted rd hpp hv hr]
        exact .raises _ _ _ (by decide)
      | some c =>
        obtain ⟨hclo, hchi, -⟩ := tryLoop_spec hpp _ _ hlo hhi hr
        have h0 : 0 ≤ c := le_trans (by decide) hclo
        rw [execFindgen_of_found rd hpp hv hr]
        exact of_commitX_after _ rfl h0 fun hs _ => fits_of_lt (hs.xFits rs1) h0 hchi

theorem ecset (rs1 rs2 rs3 : XReg) : CommandForm s (.ecset rs1 rs2 rs3) (execEcset rs1 rs2 rs3 s) :=
  of_construct rfl fun hs => by simp [hs.xFits]

theorem ecsetnb (rs1 rs3 : XReg) : CommandForm s (.ecsetnb rs1 rs3) (execEcsetnb rs1 rs3 s) :=
  of_construct rfl fun hs => by simp [hs.xFits, fits_zero]

/-- The preamble of R199: the fault without a curve, else what the command does on the curve in force. -/
theorem of_withCurve {k : Curve → Out} (hk : s.cv = true → CommandForm s i (k s.curve)) : CommandForm s i (withCurve s k) := by
  cases hcv : s.cv with
  | false =>
    rw [withCurve_of_no_curve hcv]
    exact of_raise (by decide)
  | true =>
    rw [withCurve_of_curve hcv]
    exact hk hcv

theorem econcrv (rd : XReg) (ps1 : PReg) : CommandForm s (.econcrv rd ps1) (execEconcrv rd ps1 s) :=
  of_withCurve fun _ => of_verdict _ s.env.source rfl

theorem ecadd (pd ps1 ps2 : PReg) : CommandForm s (.ecadd pd ps1 ps2) (execEcadd pd ps1 ps2 s) := by
  refine of_withCurve fun hcv => ?_
  dsimp only
  split
  · exact of_raise (by decide)
  · next hP =>
    split
    · exact of_raise (by decide)
    · next hQ =>
      rw [checkPoint_eq_none_iff] at hP hQ
      exact of_commitP rfl hcv fun hp => ecAdd_valid hp hP hQ

theorem ecdbl (pd ps1 : PReg) : CommandForm s (.ecdbl pd ps1) (execEcdbl pd ps1 s) := by
  refine of_withCurve fun hcv => ?_
  dsimp only
  split
  · exact of_raise (by decide)
  · next hP =>
    rw [checkPoint_eq_none_iff] at hP
    exact of_commitP rfl hcv fun hp => ecAdd_valid hp hP hP

theorem ecsmul (pd : PReg) (rs1 : XReg) (ps2 : PReg) : CommandForm s (.ecsmul pd rs1 ps2) (execEcsmul pd rs1 ps2 s) := by
  refine of_withCurve fun hcv => ?_
  dsimp only
  split
  · exact of_raise (by decide)
  · split
    · exact of_raise (by decide)
    · next hG =>
      rw [checkPoint_eq_none_iff] at hG
      exact of_commitP rfl hcv fun hp => ecSmul_valid hp _ hG

theorem ecenum (rd : XReg) : CommandForm s (.ecenum rd) (execEcenum rd s) := by
  unfold execEcenum
  split
  · exact of_raise (by decide)
  · refine of_withCurve fun hcv => ?_
    split
    · exact of_raise (by decide)
    · next hmax =>
      refine .commits _ _ s.env.source rfl (fun r hr => ?_) fun hs _ => ?_
      · obtain rfl : rd = r := Option.some.inj hr
        exact (State.getX_setX_self s rd _).symm ▸ Int.natCast_nonneg _
      · simpa using hs.fits_of_le_ebufDepth (hs.length_ecPoints_le hcv (not_lt.1 hmax))

end CommandForm

/-- Every command comes to its end in one of the two forms. -/
theorem exec_form (i : Instr) (s : State) : CommandForm s i (exec i s) := by
  cases i with
  | modmul rd rs1 rs2 rs3 => exact .modmul rd rs1 rs2 rs3
  | gcd rd rs1 rs2 => exact .gcd rd rs1 rs2
  | modinv rd rs1 rs2 => exact .modinv rd rs1 rs2
  | powmod rd rs1 rs2 rs3 => exact .powmod rd rs1 rs2 rs3
  | isprime rd rs1 => exact .isprime rd rs1
  | genprime rd rs1 => exact .genprime rd rs1
  | sample rd rs1 rs2 => exact .sample rd rs1 rs2
  | findgen rd rs1 => exact .findgen rd rs1
  | ecset rs1 rs2 rs3 => exact .ecset rs1 rs2 rs3
  | ecsetnb rs1 rs3 => exact .ecsetnb rs1 rs3
  | econcrv rd ps1 => exact .econcrv rd ps1
  | ecadd pd ps1 ps2 => exact .ecadd pd ps1 ps2
  | ecdbl pd ps1 => exact .ecdbl pd ps1
  | ecsmul pd rs1 ps2 => exact .ecsmul pd rs1 ps2
  | ecenum rd => exact .ecenum rd

/-! ### what follows for every command -/

theorem causeCode_eq_range {c : Cause} (h : causeCode c = causeCode .range) : c = .range := by
  revert h
  cases c <;> decide

/-- From a state without a fault pending only a failed fit check records `E_RANGE`, and only one operand pair fails it (R251). -/
theorem CommandForm.rangePair_of_cause {s t : State} {i : Instr} {o : Out} (h : CommandForm s i o) (hs : s.Inv) (hf : s.fault = false)
    (ho : o = .next t) (hc : t.cause = causeCode .range) : rangePair s i := by
  cases h with
  | raises c n g hne =>
    cases ho
    exact absurd (causeCode_eq_range hc) hne
  | commits vs u g hcause _ hfits =>
    by_contra hno
    rw [commit_of_fits (s.setSource g) (hfits hs hno)] at ho
    cases ho
    have hzero : s.cause = 0 := not_not.1 fun h => by simp [hs.causeIffFault.1 h] at hf
    rw [complete_cause, hcause, hzero] at hc
    exact absurd hc (by decide)

/-- Settles O44: code 6 is `E_RANGE`. -/
theorem rangeFaultOnlyFromGcd : Obligations.RangeFaultOnlyFromGcd :=
  fun s _ i hs hf h hc => (exec_form i s).rangePair_of_cause hs hf h hc

/-- A command faults, and then writes no register, or its integer result is not negative. -/
theorem CommandForm.faults_or_nonneg {s t : State} {i : Instr} {o : Out} (h : CommandForm s i o) (ho : o = .next t) {rd : XReg}
    (hd : destX i = some rd) : (t.fault = true ∧ t.getX rd = s.getX rd) ∨ 0 ≤ t.getX rd := by
  cases h with
  | raises c n g _ =>
    cases ho
    exact .inl ⟨rfl, rfl⟩
  | commits vs u g _ hnonneg _ =>
    rcases commit_cases (s.setSource g) vs u with ⟨-, hc⟩ | ⟨-, hc⟩ <;> rw [hc] at ho <;> cases ho
    · exact .inr (hnonneg rd hd)
    · exact .inl ⟨rfl, rfl⟩

/-- The coordinates of a point written are not negative: `Inf` has zeros, a valid point is canonical (R28, R210). -/
theorem coords_nonneg_of_validPoint {c : Curve} {P : Point} (h : validPoint c P = true) : 0 ≤ P.toReg.x ∧ 0 ≤ P.toReg.y := by
  cases P with
  | inf => exact ⟨le_rfl, le_rfl⟩
  | fin x y =>
    obtain ⟨⟨hx, -, hy, -⟩, -⟩ := (usable_fin_iff c x y).1 ((usable_iff_validPoint c _).2 h)
    exact ⟨hx, hy⟩

theorem CommandEnd.coords_nonneg {s t : State} {i : Instr} (h : CommandEnd s i t) (hs : s.Inv) (hft : t.fault = false) {r : PReg}
    (hd : destP i = some r) : 0 ≤ (t.getPReg r).x ∧ 0 ≤ (t.getPReg r).y := by
  cases h with
  | faults => cases hft
  | writesInt rd v g hx => cases i <;> cases hd <;> cases hx
  | inverts rd rs1 rs2 v b hi => subst hi; cases hd
  | setsCurve c g hi => rcases hi with ⟨_, _, _, rfl⟩ | ⟨_, _, rfl⟩ <;> cases hd
  | writesPoint pd R hpd hcv _ hvalid =>
    obtain rfl : pd = r := Option.some.inj (hpd.symm.trans hd)
    have hreg : (complete { s.setP pd R.1 with fb := R.2 }).getPReg pd = R.1.toReg := s.getPReg_setP_self pd R.1
    rw [hreg]
    exact coords_nonneg_of_validPoint (hvalid (hs.modulus_pos hcv))
  | enumerates rd hi => subst hi; cases hd

/-- Settles O43: only the destination changes, and only a command without a fault writes it. -/
theorem resultsAreNonNegative : Obligations.ResultsAreNonNegative := by
  intro s t i h
  refine ⟨fun r hne => ?_, fun r hd _ hft => ?_, fun r hd hs _ hft => (exec_end h).coords_nonneg hs hft hd⟩
  · have hd : destX i = some r := not_not.1 fun hd => hne ((exec_end h).getX_of_not_dest hd)
    exact ((exec_form i s).faults_or_nonneg h hd).resolve_left fun hfault => hne hfault.2
  · exact ((exec_form i s).faults_or_nonneg h hd).resolve_left fun hfault => by simp [hft] at hfault

end Sys2Proof.Machine
end

section
/-! The commands that take no draw (spec R96, 70_reset_and_hazards.md section 3): with another source they answer the same, beside that source. -/

namespace Sys2Proof.Machine
open Sys2Proof.Claims

/-- The answer with the source `g` in its next state. -/
def withSource (g : Source) : Out → Out
  | .next t => .next (t.setSource g)
  | .fault r => .fault r
  | .refused r => .refused r

/-- `o'` is the answer `o` beside the source `g`. -/
def SourceOnly (g : Source) (o o' : Out) : Prop := o' = withSource g o

namespace SourceOnly
variable {g : Source} {s : State}

theorem raise (c : Cause) (n : BitVec 8) (s : State) : SourceOnly g (raise c n s) (raise c n (s.setSource g)) := rfl

theorem ite {c : Prop} [Decidable c] {a b a' b' : Out} (ha : SourceOnly g a a') (hb : SourceOnly g b b') :
    SourceOnly g (if c then a else b) (if c then a' else b') := by
  split
  · exact ha
  · exact hb

theorem commit (s : State) (vs : List Int) (t : State) : SourceOnly g (commit s vs t) (commit (s.setSource g) vs (t.setSource g)) :=
  ite rfl (raise _ _ s)

theorem commitX (s : State) (rd : XReg) (v : Int) : SourceOnly g (commitX s rd v) (commitX (s.setSource g) rd v) :=
  commit s [v] (s.setX rd v)

theorem commitP (s : State) (pd : PReg) (r : Point × Bool) : SourceOnly g (commitP s pd r) (commitP (s.setSource g) pd r) :=
  commit s _ { s.setP pd r.1 with fb := r.2 }

theorem withCurve {k k' : Curve → Out} (h : ∀ c, SourceOnly g (k c) (k' c)) :
    SourceOnly g (withCurve s k) (withCurve (s.setSource g) k') := ite (h s.curve) (raise _ _ s)

theorem modinv (rd rs1 rs2 : XReg) (s : State) : SourceOnly g (execModinv rd rs1 rs2 s) (execModinv rd rs1 rs2 (s.setSource g)) := by
  refine ite (raise _ _ s) ?_
  simp only [State.getX_setSource]
  cases invOf (s.getX rs1) (s.getX rs2) with
  | some v => exact commit s [v] { s.setX rd v with ni := false }
  | none => exact commit s [0] { s.setX rd 0 with ni := true }

/-! ### the group-law commands, check by check -/

theorem ecadd (pd ps1 ps2 : PReg) (s : State) : SourceOnly g (execEcadd pd ps1 ps2 s) (execEcadd pd ps1 ps2 (s.setSource g)) := by
  cases hcv : s.cv with
  | false =>
    rw [execEcadd_of_no_curve pd hcv, execEcadd_of_no_curve (s := s.setSource g) pd hcv]
    exact raise _ _ s
  | true =>
    cases hP : checkPoint s.curve (s.getP ps1) 1 with
    | some n =>
      rw [execEcadd_of_bad_first pd hcv hP, execEcadd_of_bad_first (s := s.setSource g) pd hcv hP]
      exact raise _ _ s
    | none =>
      cases hQ : checkPoint s.curve (s.getP ps2) 2 with
      | some n =>
        rw [execEcadd_of_bad_second pd hcv hP hQ, execEcadd_of_bad_second (s := s.setSource g) pd hcv hP hQ]
        exact raise _ _ s
      | none =>
        rw [execEcadd_of_checked pd hcv hP hQ, execEcadd_of_checked (s := s.setSource g) pd hcv hP hQ]
        exact commitP s _ _

theorem ecsmul (pd : PReg) (rs1 : XReg) (ps2 : PReg) (s : State) :
    SourceOnly g (execEcsmul pd rs1 ps2 s) (execEcsmul pd rs1 ps2 (s.setSource g)) := by
  cases hcv : s.cv with
  | false =>
    rw [execEcsmul_of_no_curve pd hcv, execEcsmul_of_no_curve (s := s.setSource g) pd hcv]
    exact raise _ _ s
  | true =>
    rcases lt_or_ge (s.getX rs1) 0 with hk | hk
    · rw [execEcsmul_of_neg pd hcv hk, execEcsmul_of_neg (s := s.setSource g) pd hcv hk]
      exact raise _ _ s
    · cases hG : checkPoint s.curve (s.getP ps2) 2 with
      | some n =>
        rw [execEcsmul_of_bad_point pd hcv hk hG, execEcsmul_of_bad_point (s := s.setSource g) pd hcv hk hG]
        exact raise _ _ s
      | none =>
        rw [execEcsmul_of_checked pd hcv hk hG, execEcsmul_of_checked (s := s.setSource g) pd hcv hk hG]
        exact commitP s _ _

end SourceOnly

/-- The nine commands without a draw (R96). -/
theorem exec_setSource {i : Instr} (hi : draws i = false) (s : State) (g : Source) : SourceOnly g (exec i s) (exec i (s.setSource g)) := by
  cases i with
  | modmul rd rs1 rs2 rs3 => exact .ite (.raise _ _ s) (.commitX s _ _)
  | gcd rd rs1 rs2 => exact .ite (.raise _ _ s) (.commitX s _ _)
  | modinv rd rs1 rs2 => exact .modinv rd rs1 rs2 s
  | powmod rd rs1 rs2 rs3 => exact .ite (.raise _ _ s) (.ite (.raise _ _ s) (.commitX s _ _))
  | econcrv rd ps1 => exact .withCurve fun _ => .commitX s _ _
  | ecadd pd ps1 ps2 => exact .ecadd pd ps1 ps2 s
  | ecdbl pd ps1 =>
    rw [doublingIsAddingToItself, doublingIsAddingToItself]
    exact .ecadd pd ps1 ps1 s
  | ecsmul pd rs1 ps2 => exact .ecsmul pd rs1 ps2 s
  | ecenum rd =>
    exact .ite (.raise _ _ s) (.withCurve fun _ => .ite (.raise _ _ s) (.commit s _ _))
  | _ => cases hi

/-- Settles O42: `exec_setSource` for any source, and for the state's own, which is then also the source of the next state. -/
theorem drawlessCommandsIgnoreTheSource : Obligations.DrawlessCommandsIgnoreTheSource := by
  intro s t i g hi h
  have hother : ∀ g', exec i (s.setSource g') = .next (t.setSource g') := fun g' => by
    rw [exec_setSource hi s g', h, withSource]
  have hown : exec i s = .next (t.setSource s.env.source) := hother s.env.source
  have ht : t = t.setSource s.env.source := Host.Outcome.next.inj (h.symm.trans hown)
  exact ⟨congrArg (·.env.source) ht, hother g⟩

end Sys2Proof.Machine
end
